-- ==== Sys2Proof/Word.lean ====
section
/-! DEFINITION. The widths of the block's words (00_scope.md R6, 10_state.md R22, R24). -/

namespace Sys2Proof

/-- A command word, and a response data word: `CMDW` = `RDW` = 64 bits (R6, R90, R93). -/
abbrev Word := BitVec 64

/-- A byte on an output port or fed to the unpacker. -/
abbrev Byte := BitVec 8

/-- A node weight: `WB` = 32 bits, unsigned (R6). -/
abbrev Weight := BitVec 32

/-- A node index: `IDXW` = 10 bits (R6, R23). -/
abbrev NodeIdx := BitVec 10

end Sys2Proof
end

