-- ==== Sys2Proof/Syntax.lean ====
section
/-! DEFINITION. The 26 commands (30_encoding.md R95), one constructor per row of spec/opcode_table.json.
An operand that is an index is a `Nat`; `Instr.WellFormed` says that it fits its field. -/

namespace Sys2Proof

inductive Instr where
  /-- `NOP` (R245). -/
  | nop
  /-- `RESET` (R246). -/
  | reset
  /-- `STATUS` (R247). -/
  | status
  /-- `ERRCMD` (R248). -/
  | errcmd
  /-- `LEAF s, c` (R151): symbol, weight. -/
  | leaf (sym : Nat) (weight : Weight)
  /-- `HEAP.PEEK` (R125). -/
  | heapPeek
  /-- `HEAP.EXTRACT` (R126). -/
  | heapExtract
  /-- `HEAP.INSERT i` (R127): node index. -/
  | heapInsert (node : Nat)
  /-- `NODE.JOIN l, r` (R129): left and right node index. -/
  | nodeJoin (left right : Nat)
  /-- `NODE.INFO i` (R130): node index. -/
  | nodeInfo (node : Nat)
  /-- `NODE.KIDS i` (R131): node index. -/
  | nodeKids (node : Nat)
  /-- `HEAP.SLOT k` (R128): heap slot. -/
  | heapSlot (slot : Nat)
  /-- `MERGE` (R153). -/
  | merge
  /-- `BUILD` (R154). -/
  | build
  /-- `ASSIGN` (R171). -/
  | assign
  /-- `TB.CLEAR` (R155). -/
  | tbClear
  /-- `TBL.CLEAR` (R174). -/
  | tblClear
  /-- `TBL.DEFINE s` (R175): symbol. -/
  | tblDefine (sym : Nat)
  /-- `TBL.APPEND s, b` (R176): symbol, bit. -/
  | tblAppend (sym : Nat) (bit : Bool)
  /-- `TBL.LEN s` (R177): symbol. -/
  | tblLen (sym : Nat)
  /-- `TBL.BIT s, j` (R178): symbol, bit index. -/
  | tblBit (sym bitIdx : Nat)
  /-- `PACK.SYM s` (R212): symbol. -/
  | packSym (sym : Nat)
  /-- `PACK.END` (R213). -/
  | packEnd
  /-- `UNPK.START` (R228). -/
  | unpkStart
  /-- `UNPK.BYTE v` (R229): data byte. -/
  | unpkByte (byte : Byte)
  /-- `UNPK.END` (R230). -/
  | unpkEnd
  deriving DecidableEq, Repr

end Sys2Proof
end

