-- ==== Sys2Proof/WellFormed.lean ====
section
/-! DEFINITION. When an instruction can be written as a command word: every index operand fits its field
(30_encoding.md R90, R91). Range checks on the decoded values (a symbol above 256, say) are NOT made here:
they belong to each command's rule and raise `PARAM` (R91). -/

namespace Sys2Proof

/-- A symbol, node index or heap slot operand fits its 10-bit field (R90, R91). -/
abbrev fitsIndex (x : Nat) : Prop := x < 2 ^ 10

/-- A bit index operand fits its 8-bit field (R91). -/
abbrev fitsBitIndex (j : Nat) : Prop := j < 2 ^ 8

abbrev Instr.WellFormed (i : Instr) : Prop :=
  match i with
  | .leaf s _ => fitsIndex s
  | .heapInsert n => fitsIndex n
  | .nodeJoin l r => fitsIndex l ∧ fitsIndex r
  | .nodeInfo n => fitsIndex n
  | .nodeKids n => fitsIndex n
  | .heapSlot k => fitsIndex k
  | .tblDefine s => fitsIndex s
  | .tblAppend s _ => fitsIndex s
  | .tblLen s => fitsIndex s
  | .tblBit s j => fitsIndex s ∧ fitsBitIndex j
  | .packSym s => fitsIndex s
  | .nop => True
  | .reset => True
  | .status => True
  | .errcmd => True
  | .heapPeek => True
  | .heapExtract => True
  | .merge => True
  | .build => True
  | .assign => True
  | .tbClear => True
  | .tblClear => True
  | .packEnd => True
  | .unpkStart => True
  | .unpkByte _ => True
  | .unpkEnd => True

end Sys2Proof
end

