-- ==== Sys2Proof/Decode.lean ====
section
/-! DEFINITION. Decoding a command word (30_encoding.md R90 to R97), total, rejecting by name, and the encoder;
both from R90's fields and R95's opcode map. `Row` is R95's table of `match` and `mask` as data. -/

namespace Sys2Proof

/-- The field `op` = `cmd[63:56]` (R90). -/
def opField (w : Word) : BitVec 8 := w.extractLsb' 56 8

/-- The field `rsv` = `cmd[55:42]` (R90). -/
def rsvField (w : Word) : BitVec 14 := w.extractLsb' 42 14

/-- The field `a` = `cmd[41:32]` (R90). -/
def aField (w : Word) : BitVec 10 := w.extractLsb' 32 10

/-- The field `w` = `cmd[31:0]` (R90). -/
def wField (w : Word) : BitVec 32 := w.extractLsb' 0 32

/-- The command word with these fields and `rsv` = 0: `op << 56 | a << 32 | w` (R90, R98). -/
def mkWord (op : BitVec 8) (a : BitVec 10) (w : BitVec 32) : Word :=
  op.setWidth 64 <<< 56 ||| a.setWidth 64 <<< 32 ||| w.setWidth 64

/-- Why a word is illegal (R96 names the three ways; which one is not observable, log 11). -/
inductive Illegal where
  /-- `op` is none of the 26 of R95. -/
  | unknownOp
  /-- `rsv` is not 0. -/
  | reservedBits
  /-- A bit of an operand field that the command does not use is not 0. -/
  | unusedBits
  deriving DecidableEq, Repr

/-- Accept `i` when the word's `rsv` is 0, its `a` is 0 unless used, and `w` is 0 above its low `wBits` bits (R90, R96). -/
def accept (w : Word) (aUsed : Bool) (wBits : Nat) (i : Instr) : Except Illegal Instr :=
  if rsvField w ≠ 0 then .error .reservedBits
  else if (aUsed = false ∧ aField w ≠ 0) ∨ wField w >>> wBits ≠ 0 then .error .unusedBits
  else .ok i

/-- Decoding (R92): one of the 26 commands with its operand values (R91), or illegal. -/
def decode (w : Word) : Except Illegal Instr :=
  let a := (aField w).toNat
  let x := wField w
  match (opField w).toNat with
  | 0x00 => accept w false 0 .nop
  | 0x01 => accept w false 0 .reset
  | 0x02 => accept w false 0 .status
  | 0x03 => accept w false 0 .errcmd
  | 0x10 => accept w true 32 (.leaf a x)
  | 0x11 => accept w false 0 .heapPeek
  | 0x12 => accept w false 0 .heapExtract
  | 0x13 => accept w true 0 (.heapInsert a)
  | 0x14 => accept w true 10 (.nodeJoin a (x.extractLsb' 0 10).toNat)
  | 0x15 => accept w true 0 (.nodeInfo a)
  | 0x16 => accept w true 0 (.nodeKids a)
  | 0x17 => accept w true 0 (.heapSlot a)
  | 0x20 => accept w false 0 .merge
  | 0x21 => accept w false 0 .build
  | 0x22 => accept w false 0 .assign
  | 0x23 => accept w false 0 .tbClear
  | 0x30 => accept w false 0 .tblClear
  | 0x31 => accept w true 0 (.tblDefine a)
  | 0x32 => accept w true 1 (.tblAppend a (x.getLsbD 0))
  | 0x33 => accept w true 0 (.tblLen a)
  | 0x34 => accept w true 8 (.tblBit a (x.extractLsb' 0 8).toNat)
  | 0x40 => accept w true 0 (.packSym a)
  | 0x41 => accept w false 0 .packEnd
  | 0x50 => accept w false 0 .unpkStart
  | 0x51 => accept w false 8 (.unpkByte (x.extractLsb' 0 8))
  | 0x52 => accept w false 0 .unpkEnd
  | _ => .error .unknownOp

/-- The command word of an instruction (R95, R98). -/
def encode (i : Instr) : Word :=
  match i with
  | .nop => mkWord 0x00 0 0
  | .reset => mkWord 0x01 0 0
  | .status => mkWord 0x02 0 0
  | .errcmd => mkWord 0x03 0 0
  | .leaf s c => mkWord 0x10 (.ofNat 10 s) c
  | .heapPeek => mkWord 0x11 0 0
  | .heapExtract => mkWord 0x12 0 0
  | .heapInsert n => mkWord 0x13 (.ofNat 10 n) 0
  | .nodeJoin l r => mkWord 0x14 (.ofNat 10 l) ((BitVec.ofNat 10 r).setWidth 32)
  | .nodeInfo n => mkWord 0x15 (.ofNat 10 n) 0
  | .nodeKids n => mkWord 0x16 (.ofNat 10 n) 0
  | .heapSlot k => mkWord 0x17 (.ofNat 10 k) 0
  | .merge => mkWord 0x20 0 0
  | .build => mkWord 0x21 0 0
  | .assign => mkWord 0x22 0 0
  | .tbClear => mkWord 0x23 0 0
  | .tblClear => mkWord 0x30 0 0
  | .tblDefine s => mkWord 0x31 (.ofNat 10 s) 0
  | .tblAppend s b => mkWord 0x32 (.ofNat 10 s) ((BitVec.ofBool b).setWidth 32)
  | .tblLen s => mkWord 0x33 (.ofNat 10 s) 0
  | .tblBit s j => mkWord 0x34 (.ofNat 10 s) ((BitVec.ofNat 8 j).setWidth 32)
  | .packSym s => mkWord 0x40 (.ofNat 10 s) 0
  | .packEnd => mkWord 0x41 0 0
  | .unpkStart => mkWord 0x50 0 0
  | .unpkByte v => mkWord 0x51 0 (v.setWidth 32)
  | .unpkEnd => mkWord 0x52 0 0

/-- A row of the opcode map: the bits a word must have (`pattern`, the table's `match`) under `mask` (R92, R95). -/
structure Row where
  pattern : Word
  mask    : Word
  deriving DecidableEq, Repr

/-- The row of R95 that an instruction belongs to. -/
def Instr.row (i : Instr) : Row :=
  match i with
  | .nop => ⟨0x0000000000000000#64, 0xFFFFFFFFFFFFFFFF#64⟩
  | .reset => ⟨0x0100000000000000#64, 0xFFFFFFFFFFFFFFFF#64⟩
  | .status => ⟨0x0200000000000000#64, 0xFFFFFFFFFFFFFFFF#64⟩
  | .errcmd => ⟨0x0300000000000000#64, 0xFFFFFFFFFFFFFFFF#64⟩
  | .leaf _ _ => ⟨0x1000000000000000#64, 0xFFFFFC0000000000#64⟩
  | .heapPeek => ⟨0x1100000000000000#64, 0xFFFFFFFFFFFFFFFF#64⟩
  | .heapExtract => ⟨0x1200000000000000#64, 0xFFFFFFFFFFFFFFFF#64⟩
  | .heapInsert _ => ⟨0x1300000000000000#64, 0xFFFFFC00FFFFFFFF#64⟩
  | .nodeJoin _ _ => ⟨0x1400000000000000#64, 0xFFFFFC00FFFFFC00#64⟩
  | .nodeInfo _ => ⟨0x1500000000000000#64, 0xFFFFFC00FFFFFFFF#64⟩
  | .nodeKids _ => ⟨0x1600000000000000#64, 0xFFFFFC00FFFFFFFF#64⟩
  | .heapSlot _ => ⟨0x1700000000000000#64, 0xFFFFFC00FFFFFFFF#64⟩
  | .merge => ⟨0x2000000000000000#64, 0xFFFFFFFFFFFFFFFF#64⟩
  | .build => ⟨0x2100000000000000#64, 0xFFFFFFFFFFFFFFFF#64⟩
  | .assign => ⟨0x2200000000000000#64, 0xFFFFFFFFFFFFFFFF#64⟩
  | .tbClear => ⟨0x2300000000000000#64, 0xFFFFFFFFFFFFFFFF#64⟩
  | .tblClear => ⟨0x3000000000000000#64, 0xFFFFFFFFFFFFFFFF#64⟩
  | .tblDefine _ => ⟨0x3100000000000000#64, 0xFFFFFC00FFFFFFFF#64⟩
  | .tblAppend _ _ => ⟨0x3200000000000000#64, 0xFFFFFC00FFFFFFFE#64⟩
  | .tblLen _ => ⟨0x3300000000000000#64, 0xFFFFFC00FFFFFFFF#64⟩
  | .tblBit _ _ => ⟨0x3400000000000000#64, 0xFFFFFC00FFFFFF00#64⟩
  | .packSym _ => ⟨0x4000000000000000#64, 0xFFFFFC00FFFFFFFF#64⟩
  | .packEnd => ⟨0x4100000000000000#64, 0xFFFFFFFFFFFFFFFF#64⟩
  | .unpkStart => ⟨0x5000000000000000#64, 0xFFFFFFFFFFFFFFFF#64⟩
  | .unpkByte _ => ⟨0x5100000000000000#64, 0xFFFFFFFFFFFFFF00#64⟩
  | .unpkEnd => ⟨0x5200000000000000#64, 0xFFFFFFFFFFFFFFFF#64⟩

/-- A word has a row's bits: `(cmd AND mask) = match` (R92). -/
def Row.matchesWord (r : Row) (w : Word) : Prop := w &&& r.mask = r.pattern

/-- One command per row of R95, operands 0: the rows in the table's order are `Instr.row` of these. -/
def tableCommands : List Instr :=
  [.nop, .reset, .status, .errcmd, .leaf 0 0, .heapPeek, .heapExtract, .heapInsert 0, .nodeJoin 0 0,
    .nodeInfo 0, .nodeKids 0, .heapSlot 0] ++
  [.merge, .build, .assign, .tbClear, .tblClear, .tblDefine 0, .tblAppend 0 false, .tblLen 0, .tblBit 0 0] ++
  [.packSym 0, .packEnd, .unpkStart, .unpkByte 0, .unpkEnd]

/-- The decoder on an instruction's bits, numbered as spec/opcode_table.json numbers them. A command is one 64-bit
value with no byte order of its own (20_memory.md R64), so its bits are the word's; bits at and above `nbits` are 0. -/
def decodeTableWord (nbits w : Nat) : Option Instr :=
  (decode (BitVec.ofNat 64 (w % 2 ^ nbits))).toOption

end Sys2Proof
end

