-- ==== Sys2Proof/Machine/Node.lean ====
section
/-! DEFINITION. One entry of the node store and one entry of the codeword table, as records. -/

namespace Sys2Proof.Machine

/-- The `kind` field of a node (10_state.md R24): 0 = leaf, 1 = internal. -/
inductive Kind where
  | leaf
  | internal
  deriving DecidableEq, Repr, Inhabited

/-- The `own` field of a node (10_state.md R26). `free` is never stored in an allocated entry. -/
inductive Owner where
  | free
  | heap
  | child
  | detached
  deriving DecidableEq, Repr, Inhabited

/-- A node store entry: the six fields of 10_state.md R24. -/
structure Node where
  kind   : Kind
  sym    : BitVec 9
  weight : Weight
  left   : NodeIdx
  right  : NodeIdx
  own    : Owner
  deriving DecidableEq, Repr, Inhabited

/-- A codeword table entry: `ct_valid`, `ct_len`, `ct_code` of one symbol (10_state.md R31, R32). -/
structure CtEntry where
  valid : Bool
  len   : BitVec 9
  code  : BitVec 256
  deriving DecidableEq, Repr, Inhabited

end Sys2Proof.Machine
end

