-- ==== Sys2Proof/Config.lean ====
section
/-! DEFINITION. The block's parameters (00_scope.md R6) and its one free value (log 6). -/

namespace Sys2Proof.Config

/-- `NSYM`: the 256 byte values and the end-of-stream sentinel. -/
abbrev nsym : Nat := 257

/-- `EOS`: the symbol index of the end-of-stream sentinel. -/
abbrev eos : Nat := 256

/-- `NODE_CAP`: node store entries, `2 * NSYM - 1`. -/
abbrev nodeCap : Nat := 513

/-- `HEAP_CAP`: heap array slots. -/
abbrev heapCap : Nat := 257

/-- `L_MAX`: the greatest codeword length in bits. -/
abbrev lMax : Nat := 256

/-- `NIL`: the node index value that names no node. -/
abbrev nil : NodeIdx := 0x3FF#10

/-- The `sym` field of an internal node: a marker that names no symbol (10_state.md R24). -/
abbrev internalSym : BitVec 9 := 0x1FF#9

/-- FREE VALUE (log 6). What node store entry `i` holds while it is not allocated. The spec calls it
unobservable, "any value" (93_implementation_defined.md U14). No state that meets `Machine.Inv` reads it. -/
opaque freeNode : Nat → Machine.Node

end Sys2Proof.Config
end

