-- ==== Sys2Proof/Machine/State.lean ====
section
/-! DEFINITION. The block's state (10_state.md R20), the two output ports, and the model's own record of the host:
inputs not yet taken and responses given (logs 1, 3, 4, 5). Plain data. -/

namespace Sys2Proof.Machine

/-- The response status `st` (30_encoding.md R93). -/
inductive Status where
  | ok
  | none
  | fault
  | refused
  deriving DecidableEq, Repr, Inhabited

/-- A response: status and data word (R93). -/
structure Response where
  st : Status
  rd : Word
  deriving DecidableEq, Repr, Inhabited

/-- One input from outside the block: a command word, or a hardware reset between commands
(70_reset_and_hazards.md R302, log 9). -/
inductive HostEvent where
  | command (w : Word)
  | hardReset
  deriving DecidableEq, Repr

/-- The codes `ERR` can hold when it is not 0 (60_exceptions.md R271). -/
inductive FaultCode where
  /-- 1, never raised by the block; a host reports it (R273). -/
  | ioFailure
  /-- 2 -/
  | formatError
  /-- 3 -/
  | truncatedStream
  /-- 4, never raised (R271, 90_conflicts.md C2). -/
  | emptyInput
  /-- 5 -/
  | illegalCommand
  /-- 6 -/
  | param
  /-- 7 -/
  | ownership
  /-- 8 -/
  | sequence
  /-- 9 -/
  | capacity
  /-- 10 -/
  | weightOverflow
  /-- 11 -/
  | noCode
  deriving DecidableEq, Repr

/-- Ways the MACHINE could stop: none. A fault of the block (R275) is a next state with `ERR` written and the
response `FAULT`; the spec says "Nothing in this block is `stuck`: every command returns a response"
(93_implementation_defined.md). Nothing raises a value of this type, which is the safe and the exact reading. -/
inductive Fault where
  deriving DecidableEq, Repr

/-- Ways the model could have no meaning for a command. -/
inductive Refusal where
  /-- Raised by an arm of `exec` that has no meaning yet, by the instruction's mnemonic; safe. No arm raises it now. -/
  | notModelled (mnemonic : String)
  deriving DecidableEq, Repr

structure State where
  /-- The allocated entries of the node store, in index order; `ncount` is its length (R23, R25, log 5). -/
  nodes    : List Node
  /-- The occupied slots of the heap array, slot 0 first; `hsize` is its length (R27, log 5). -/
  heap     : List NodeIdx
  /-- `leafseen[0..256]` (R29). -/
  leafseen : Vector Bool 257
  /-- `root`, or `NIL` (R30). -/
  root     : NodeIdx
  /-- `ct_valid`, `ct_len`, `ct_code` (R31, R32). -/
  ct       : Vector CtEntry 257
  /-- `pk_acc` (R34). -/
  pkAcc    : BitVec 8
  /-- `pk_cnt` (R34). -/
  pkCnt    : BitVec 3
  /-- `up_acc` (R35). -/
  upAcc    : BitVec 256
  /-- `up_len` (R35). -/
  upLen    : BitVec 9
  /-- `up_dead` (R36). -/
  upDead   : Bool
  /-- `up_done` (R36). -/
  upDone   : Bool
  /-- `ERR` (R37). -/
  err      : BitVec 4
  /-- `ERR_CMD` (R37). -/
  errCmd   : Word
  /-- Bytes emitted on `PK_OUT`, oldest first (R38, log 4). -/
  pkOut    : List Byte
  /-- Bytes emitted on `UP_OUT`, oldest first (R38, log 4). -/
  upOut    : List Byte
  /-- The model's own: inputs the host has yet to hand over, next first (log 1). -/
  inbox    : List HostEvent
  /-- The model's own: responses given, oldest first (log 3). -/
  resps    : List Response
  deriving DecidableEq, Repr

/-- A symbol outside the table: `ct_valid`, `ct_len` and `ct_code` all 0 (R32, R41). -/
def CtEntry.empty : CtEntry := ⟨false, 0, 0⟩

/-- The state right after hardware reset (R41, R300): both ports empty, nothing handed over, nothing answered. -/
def State.reset : State where
  nodes := []
  heap := []
  leafseen := Vector.replicate 257 false
  root := Config.nil
  ct := Vector.replicate 257 CtEntry.empty
  pkAcc := 0
  pkCnt := 0
  upAcc := 0
  upLen := 0
  upDead := false
  upDone := false
  err := 0
  errCmd := 0
  pkOut := []
  upOut := []
  inbox := []
  resps := []

/-- `ncount` (R22, R25). -/
def State.ncount (s : State) : Nat := s.nodes.length

/-- `hsize` (R22, R27). -/
def State.hsize (s : State) : Nat := s.heap.length

/-! Field updates. Every change a command makes to the state is a composition of these. -/

def State.setNodes (s : State) (v : List Node) : State := { s with nodes := v }
def State.setHeap (s : State) (v : List NodeIdx) : State := { s with heap := v }
def State.setLeafseen (s : State) (v : Vector Bool 257) : State := { s with leafseen := v }
def State.setRoot (s : State) (v : NodeIdx) : State := { s with root := v }
def State.setCt (s : State) (v : Vector CtEntry 257) : State := { s with ct := v }
def State.setPk (s : State) (acc : BitVec 8) (cnt : BitVec 3) : State := { s with pkAcc := acc, pkCnt := cnt }
def State.setUp (s : State) (acc : BitVec 256) (len : BitVec 9) : State := { s with upAcc := acc, upLen := len }
def State.setUpFlags (s : State) (dead done : Bool) : State := { s with upDead := dead, upDone := done }
def State.setErr (s : State) (code : BitVec 4) (cmd : Word) : State := { s with err := code, errCmd := cmd }
def State.setInbox (s : State) (v : List HostEvent) : State := { s with inbox := v }

/-- `emit PK_OUT, b` (R8, R38). -/
def State.emitPk (s : State) (b : Byte) : State := { s with pkOut := s.pkOut ++ [b] }

/-- `emit UP_OUT, b` (R8, R38). -/
def State.emitUp (s : State) (b : Byte) : State := { s with upOut := s.upOut ++ [b] }

/-- Give a response (R93). -/
def State.respond (s : State) (r : Response) : State := { s with resps := s.resps ++ [r] }

/-- A codeword table entry in its canonical form (R32): all 0 when not valid, at most 256 bits, no bit of `ct_code`
at or above `ct_len`. -/
def CtEntry.wf (e : CtEntry) : Bool :=
  (e.valid || (e.len == 0 && e.code == 0)) && decide (e.len.toNat ≤ 256) && decide (e.code.toNat < 2 ^ e.len.toNat)

/-- The four internal memories (20_memory.md R60) are in their canonical form: at most 513 allocated nodes, at most
257 occupied slots, every table entry canonical. `leafseen` has only one form. -/
def Memory.wf (s : State) : Bool :=
  decide (s.nodes.length ≤ 513) && decide (s.heap.length ≤ 257) && s.ct.toList.all CtEntry.wf

end Sys2Proof.Machine
end

