-- ==== Sys2Proof/Machine/Flags.lean ====
section
/-! DEFINITION. The block's one-bit flags (10_state.md R39): "faulted", `leafseen`, `ct_valid`; `up_done` and `up_dead`
are fields of their own. There are no arithmetic condition codes. -/

namespace Sys2Proof.Machine

/-- Write bit `i` of a bit vector; nothing when there is no such bit. -/
def writeBit {n : Nat} (v : BitVec n) (i : Nat) (b : Bool) : BitVec n :=
  if b then v ||| BitVec.twoPow n i else v &&& ~~~(BitVec.twoPow n i)

/-- "faulted": `ERR` is not 0 (R39, 00_scope.md R15). -/
def State.faulted (s : State) : Bool := s.err != 0

/-- `leafseen[x]` (R29). -/
def State.leafSeen (s : State) (x : Nat) : Bool := s.leafseen[x]?.getD false

/-- `leafseen[x] <- 1` (R29). -/
def State.setLeafSeen (s : State) (x : Nat) : State := s.setLeafseen (s.leafseen.setIfInBounds x true)

/-- `for s in 0..256: leafseen[s] <- 0` (41_tree_build.md R155). -/
def State.clearLeafSeen (s : State) : State := s.setLeafseen (Vector.replicate 257 false)

/-- The codeword table's entry of symbol `x` (R31, R32). -/
def State.entry (s : State) (x : Nat) : CtEntry := s.ct[x]?.getD CtEntry.empty

/-- `ct_valid[x]` (R31). -/
def State.ctValid (s : State) (x : Nat) : Bool := (s.entry x).valid

end Sys2Proof.Machine
end

