-- ==== Sys2Proof/Machine/Operands.lean ====
section
/-! DEFINITION. Operand ranges (20_memory.md R61) and the fields of a response data word (30_encoding.md R94). How an
operand is taken from the command word is `decode` (R91). -/

namespace Sys2Proof.Machine

/-- A symbol operand in range: 0 to 256 (R61). -/
abbrev symInRange (x : Nat) : Prop := x ≤ Config.eos

/-- A byte symbol, 0 to 255: what `PACK.SYM` takes (44_bit_packer.md R212). -/
abbrev byteInRange (x : Nat) : Prop := x ≤ 255

/-- A node index operand in range: 0 to 512 (R61). -/
abbrev nodeInRange (i : Nat) : Prop := i < Config.nodeCap

/-- A heap slot operand in range: 0 to 256 (R61). -/
abbrev slotInRange (k : Nat) : Prop := k < Config.heapCap

/-- `v` placed in a response data word from bit `lo` up (R94). -/
def place {n : Nat} (v : BitVec n) (lo : Nat) : Word := v.setWidth 64 <<< lo

/-- `rd[41:32]` = a node index, `rd[31:0]` = a weight: the data word of every command that names a node (R94). -/
def rdNode (i : NodeIdx) (wt : Weight) : Word := place i 32 ||| place wt 0

/-- `kind` as its bit (R24). -/
def Kind.code (k : Kind) : BitVec 1 :=
  match k with
  | .leaf => 0
  | .internal => 1

/-- `own` as its two bits (R26). -/
def Owner.code (o : Owner) : BitVec 2 :=
  match o with
  | .free => 0
  | .heap => 1
  | .child => 2
  | .detached => 3

/-- The status `st` as its four bits (R93). -/
def Status.code (st : Status) : BitVec 4 :=
  match st with
  | .ok => 0
  | .none => 1
  | .fault => 2
  | .refused => 3

/-- A fault code as the four bits of `ERR` (60_exceptions.md R271). -/
def FaultCode.code (c : FaultCode) : BitVec 4 :=
  match c with
  | .ioFailure => 1
  | .formatError => 2
  | .truncatedStream => 3
  | .emptyInput => 4
  | .illegalCommand => 5
  | .param => 6
  | .ownership => 7
  | .sequence => 8
  | .capacity => 9
  | .weightOverflow => 10
  | .noCode => 11

/-- The bit string of a table entry in path order, first bit first: `Code(s)` (10_state.md R33). -/
def CtEntry.bits (e : CtEntry) : List Bool := (List.range e.len.toNat).map e.code.getLsbD

/-- `Code(x)` (R33). -/
def State.codeOf (s : State) (x : Nat) : List Bool := (s.entry x).bits

/-- The bits of a data byte, bit 0 first (20_memory.md R63, 45_bit_unpacker.md R229). -/
def byteBits (v : Byte) : List Bool := (List.range 8).map v.getLsbD

end Sys2Proof.Machine
end

