-- ==== Sys2Proof/Machine/Ops.lean ====
section
/-! DEFINITION. What the commands share: the outcome of a command and the execution wrapper with fault entry, refusal and
reset (60_exceptions.md R275 to R280), and the operations over the node store, the heap array and the codeword table
(40_heap.md R122 to R124). -/

namespace Sys2Proof.Machine

/-! ### Outcome, fault entry, refusal, reset -/

/-- How a command's rule ends (00_scope.md R9): `return OK(rd)` with the state it leaves, `return NONE`, or
`raise Fault(code)`. -/
inductive Result where
  | ok (rd : Word) (s : State)
  | none
  | fault (c : FaultCode)
  deriving DecidableEq, Repr

/-- `raise Fault(code)` (R275): `s` is the state the command found, so every write and every emission the command made is
discarded (R276); `ERR` and `ERR_CMD` are written and the response is `FAULT` with `rd[3:0]` = the code. -/
def raiseFault (cmd : Word) (c : FaultCode) (s : State) : State :=
  (s.setErr c.code cmd).respond ⟨.fault, place c.code 0⟩

/-- Refusal while faulted (R278): nothing changes, `rd[3:0]` = `ERR`. -/
def refuse (s : State) : State := s.respond ⟨.refused, place s.err 0⟩

/-- Every register and memory at its reset value (10_state.md R41); the ports' bytes stay (R38), and so does the model's
record of the host (logs 1, 3). The only return from a fault (R280). -/
def resetBlock (s : State) : State :=
  { State.reset with pkOut := s.pkOut, upOut := s.upOut, inbox := s.inbox, resps := s.resps }

/-- Hardware reset as an event between commands (70_reset_and_hazards.md R300, R302): the reset state, both ports observed
from empty. The inputs still to come stay (log 9). -/
def hardReset (s : State) : State := State.reset.setInbox s.inbox

/-- End a command (R9, R93): commit the state with its response, or answer `NONE` with no change, or enter the fault. -/
def complete (cmd : Word) (s : State) (r : Result) : State :=
  match r with
  | .ok rd t => t.respond ⟨.ok, rd⟩
  | .none => s.respond ⟨.none, 0⟩
  | .fault c => raiseFault cmd c s

/-- Run a command's rule whether or not the block is faulted: `RESET`, `STATUS`, `ERRCMD` (R275, R278). -/
def always (cmd : Word) (rule : State → Result) (s : State) : Host.Outcome State Fault Refusal :=
  .next (complete cmd s (rule s))

/-- Run any other command's rule: refused when the block is faulted (R275, R278, R281). -/
def guarded (cmd : Word) (rule : State → Result) (s : State) : Host.Outcome State Fault Refusal :=
  .next (if s.faulted then refuse s else complete cmd s (rule s))

/-- A word that matches no row (60_exceptions.md R272): refused like any other command when faulted (30_encoding.md R96),
`ILLEGAL_COMMAND` otherwise. -/
def illegalCommand (cmd : Word) (s : State) : Host.Outcome State Fault Refusal :=
  guarded cmd (fun _ => .fault .illegalCommand) s

/-! ### Node store -/

/-- Node store entry `i`; a free value where the entry is not allocated (log 6). -/
def State.node (s : State) (i : Nat) : Node := s.nodes[i]?.getD (Config.freeNode i)

/-- `W(i)` (00_scope.md R8). -/
def State.weightOf (s : State) (i : NodeIdx) : Weight := (s.node i.toNat).weight

/-- The index the next allocated node takes (R25). -/
def State.nextIdx (s : State) : NodeIdx := BitVec.ofNat 10 s.ncount

/-- `AllocNode(rec)` (R122): the new entry takes index `ncount`. -/
def State.allocNode (s : State) (n : Node) : State := s.setNodes (s.nodes ++ [n])

/-- A node with its `own` field rewritten; no other field ever changes (10_state.md R24). -/
def Node.withOwn (n : Node) (o : Owner) : Node := { n with own := o }

/-- `node[i].own <- o` (R26). -/
def State.setOwn (s : State) (i : Nat) (o : Owner) : State := s.setNodes (s.nodes.modify i (·.withOwn o))

/-- A leaf as `LEAF` allocates it (41_tree_build.md R151). -/
def leafNode (x : Nat) (c : Weight) : Node :=
  ⟨.leaf, BitVec.ofNat 9 x, c, Config.nil, Config.nil, .heap⟩

/-- An internal node as `NODE.JOIN` and `MERGE` allocate it (R129, R152). -/
def joinNode (l r : NodeIdx) (wt : Weight) (o : Owner) : Node :=
  ⟨.internal, Config.internalSym, wt, l, r, o⟩

/-- The exact natural-number sum of two weights (R129, R152). -/
def weightSum (s : State) (l r : NodeIdx) : Nat := (s.weightOf l).toNat + (s.weightOf r).toNat

/-! ### Heap array -/

/-- `heap[k]` (R27). -/
def slot (h : List NodeIdx) (k : Nat) : NodeIdx := h.getD k Config.nil

/-- `swap heap[k], heap[p]`. -/
def swapSlots (h : List NodeIdx) (k p : Nat) : List NodeIdx := (h.set k (slot h p)).set p (slot h k)

/-- The `while` loop of `HeapInsert` (R123) from slot `k`: an entry rises past a strictly heavier parent. `fuel` bounds
the iterations; from slot `k`, `k` of them are enough. -/
def siftUp (wt : NodeIdx → Weight) : Nat → List NodeIdx → Nat → List NodeIdx
  | 0, h, _ => h
  | fuel + 1, h, k =>
    if k = 0 then h
    else
      let p := (k - 1) / 2
      if wt (slot h k) < wt (slot h p) then siftUp wt fuel (swapSlots h k p) p else h

/-- The slot an entry at `k` would move to (R124): the lighter child while strictly lighter, the left one first. -/
def lighterChild (wt : NodeIdx → Weight) (h : List NodeIdx) (k : Nat) : Nat :=
  let l := 2 * k + 1
  let r := 2 * k + 2
  let c := if l < h.length ∧ wt (slot h l) < wt (slot h k) then l else k
  if r < h.length ∧ wt (slot h r) < wt (slot h c) then r else c

/-- The `loop` of `HeapExtract` (R124) from slot `k`. `fuel` bounds the iterations; the heap's length of them are enough. -/
def siftDown (wt : NodeIdx → Weight) : Nat → List NodeIdx → Nat → List NodeIdx
  | 0, h, _ => h
  | fuel + 1, h, k =>
    let c := lighterChild wt h k
    if c = k then h else siftDown wt fuel (swapSlots h k c) c

/-- The heap array after `HeapInsert(i)` (R123). -/
def heapPush (wt : NodeIdx → Weight) (h : List NodeIdx) (i : NodeIdx) : List NodeIdx :=
  siftUp wt h.length (h ++ [i]) h.length

/-- The heap array after `HeapExtract()` (R124): the last slot's entry goes to slot 0 and sinks. -/
def heapPop (wt : NodeIdx → Weight) (h : List NodeIdx) : List NodeIdx :=
  siftDown wt h.length (h.dropLast.set 0 (slot h (h.length - 1))) 0

/-- `HeapInsert(i)` (R123). -/
def State.heapInsert (s : State) (i : NodeIdx) : State := s.setHeap (heapPush s.weightOf s.heap i)

/-- The index `HeapExtract()` returns, `heap[0]` (R124). -/
def State.heapMin (s : State) : NodeIdx := slot s.heap 0

/-- The state after `HeapExtract()` (R124). -/
def State.heapExtract (s : State) : State := s.setHeap (heapPop s.weightOf s.heap)

/-! ### Codeword table -/

/-- `ct_valid[x]`, `ct_len[x]`, `ct_code[x]` <- one entry. -/
def State.setEntry (s : State) (x : Nat) (e : CtEntry) : State := s.setCt (s.ct.setIfInBounds x e)

/-- `for s in 0..256: ct_valid[s] <- 0 ; ct_len[s] <- 0 ; ct_code[s] <- 0` (R171, R174). -/
def State.clearTable (s : State) : State := s.setCt (Vector.replicate 257 CtEntry.empty)

/-- `Match(p)` (45_bit_unpacker.md R226): the symbols whose codeword equals `p`, in ascending order. -/
def State.matchSyms (s : State) (p : List Bool) : List Nat :=
  (s.ct.toList.zipIdx.filter (fun e => e.1.valid && e.1.bits == p)).map (·.2)

end Sys2Proof.Machine
end

