-- ==== Sys2Proof/Machine/Control.lean ====
section
/-! DEFINITION. The control commands (46_control_and_host.md R245 to R248). -/

namespace Sys2Proof.Machine

/-- `NOP` (R245). -/
def execNop (s : State) : Host.Outcome State Fault Refusal :=
  guarded (encode .nop) (fun s => .ok 0 s) s

/-- `RESET` (R246): executes whether or not the block is faulted. -/
def execReset (s : State) : Host.Outcome State Fault Refusal :=
  always (encode .reset) (fun s => .ok 0 (resetBlock s)) s

/-- The data word of `STATUS` (R247). -/
def statusWord (s : State) : Word :=
  place s.err 0 ||| place (BitVec.ofNat 9 s.hsize) 4 ||| place (BitVec.ofNat 10 s.ncount) 13 ||| place s.root 23 |||
    place s.pkCnt 33 ||| place s.upLen 36 ||| place (BitVec.ofBool s.upDone) 45 ||| place (BitVec.ofBool s.upDead) 46

/-- `STATUS` (R247): executes whether or not the block is faulted. -/
def execStatus (s : State) : Host.Outcome State Fault Refusal :=
  always (encode .status) (fun s => .ok (statusWord s) s) s

/-- `ERRCMD` (R248): executes whether or not the block is faulted. -/
def execErrcmd (s : State) : Host.Outcome State Fault Refusal :=
  always (encode .errcmd) (fun s => .ok s.errCmd s) s

end Sys2Proof.Machine
end

