-- ==== Sys2Proof/Machine/Heap.lean ====
section
/-! DEFINITION. The heap and node store commands (40_heap.md R125 to R131). -/

namespace Sys2Proof.Machine

/-- R125's pseudocode. -/
def heapPeekRule (s : State) : Result :=
  if s.hsize = 0 then .none else .ok (rdNode s.heapMin (s.weightOf s.heapMin)) s

/-- `HEAP.PEEK` (R125). -/
def execHeapPeek (s : State) : Host.Outcome State Fault Refusal :=
  guarded (encode .heapPeek) heapPeekRule s

/-- R126's pseudocode. -/
def heapExtractRule (s : State) : Result :=
  if s.hsize = 0 then .none
  else
    let m := s.heapMin
    .ok (rdNode m (s.weightOf m)) ((s.heapExtract.setOwn m.toNat .detached).setRoot Config.nil)

/-- `HEAP.EXTRACT` (R126). -/
def execHeapExtract (s : State) : Host.Outcome State Fault Refusal :=
  guarded (encode .heapExtract) heapExtractRule s

/-- A node that `HEAP.INSERT` and `NODE.JOIN` may take: allocated and DETACHED (R127, R129). -/
def State.isDetached (s : State) (i : Nat) : Bool := decide (i < s.ncount) && (s.node i).own == .detached

/-- R127's pseudocode. -/
def heapInsertRule (i : Nat) (s : State) : Result :=
  if ¬ nodeInRange i then .fault .param
  else if s.isDetached i = false then .fault .ownership
  else if s.hsize = Config.heapCap then .fault .capacity
  else .ok 0 (((s.heapInsert (BitVec.ofNat 10 i)).setOwn i .heap).setRoot Config.nil)

/-- `HEAP.INSERT i` (R127). -/
def execHeapInsert (i : Nat) (s : State) : Host.Outcome State Fault Refusal :=
  guarded (encode (.heapInsert i)) (heapInsertRule i) s

/-- R128's pseudocode. -/
def heapSlotRule (k : Nat) (s : State) : Result :=
  if ¬ slotInRange k then .fault .param
  else if k ≥ s.hsize then .none
  else .ok (rdNode (slot s.heap k) (s.weightOf (slot s.heap k))) s

/-- `HEAP.SLOT k` (R128). -/
def execHeapSlot (k : Nat) (s : State) : Host.Outcome State Fault Refusal :=
  guarded (encode (.heapSlot k)) (heapSlotRule k) s

/-- R129's pseudocode. -/
def nodeJoinRule (l r : Nat) (s : State) : Result :=
  let li := BitVec.ofNat 10 l
  let ri := BitVec.ofNat 10 r
  if ¬ nodeInRange l ∨ ¬ nodeInRange r then .fault .param
  else if l = r ∨ s.isDetached l = false ∨ s.isDetached r = false then .fault .ownership
  else if s.ncount = Config.nodeCap then .fault .capacity
  else if weightSum s li ri ≥ 2 ^ 32 then .fault .weightOverflow
  else
    let wt := BitVec.ofNat 32 (weightSum s li ri)
    .ok (rdNode s.nextIdx wt)
      ((((s.allocNode (joinNode li ri wt .detached)).setOwn l .child).setOwn r .child).setRoot Config.nil)

/-- `NODE.JOIN l, r` (R129). -/
def execNodeJoin (l r : Nat) (s : State) : Host.Outcome State Fault Refusal :=
  guarded (encode (.nodeJoin l r)) (nodeJoinRule l r) s

/-- The data word of `NODE.INFO` (R130). -/
def nodeInfoWord (n : Node) : Word :=
  place n.weight 0 ||| place n.sym 32 ||| place n.kind.code 44 ||| place n.own.code 48

/-- R130's pseudocode. -/
def nodeInfoRule (i : Nat) (s : State) : Result :=
  if ¬ nodeInRange i then .fault .param
  else if i ≥ s.ncount then .none
  else .ok (nodeInfoWord (s.node i)) s

/-- `NODE.INFO i` (R130). -/
def execNodeInfo (i : Nat) (s : State) : Host.Outcome State Fault Refusal :=
  guarded (encode (.nodeInfo i)) (nodeInfoRule i) s

/-- The data word of `NODE.KIDS` (R131). -/
def nodeKidsWord (n : Node) : Word := place n.left 0 ||| place n.right 16

/-- R131's pseudocode. -/
def nodeKidsRule (i : Nat) (s : State) : Result :=
  if ¬ nodeInRange i then .fault .param
  else if i ≥ s.ncount then .none
  else .ok (nodeKidsWord (s.node i)) s

/-- `NODE.KIDS i` (R131). -/
def execNodeKids (i : Nat) (s : State) : Host.Outcome State Fault Refusal :=
  guarded (encode (.nodeKids i)) (nodeKidsRule i) s

end Sys2Proof.Machine
end

