-- ==== Sys2Proof/Machine/Packer.lean ====
section
/-! DEFINITION. The bit packer (44_bit_packer.md R211 to R213). -/

namespace Sys2Proof.Machine

/-- `PackBit(b)` (R211). -/
def packBit (s : State) (b : Bool) : State :=
  let acc := writeBit s.pkAcc s.pkCnt.toNat b
  if s.pkCnt = 7 then (s.emitPk acc).setPk 0 0 else s.setPk acc (s.pkCnt + 1)

/-- `PackBit` of each bit in order (R212, R213). -/
def packBits (s : State) (bits : List Bool) : State := bits.foldl packBit s

/-- Flush the partial byte, zero-padded (R213). -/
def packFlush (s : State) : State :=
  if s.pkCnt ≠ 0 then (s.emitPk s.pkAcc).setPk 0 0 else s

/-- R212's pseudocode. -/
def packSymRule (x : Nat) (s : State) : Result :=
  if ¬ byteInRange x then .fault .param
  else if s.ctValid x = false then .fault .noCode
  else .ok (place (s.entry x).len 0) (packBits s (s.codeOf x))

/-- `PACK.SYM s` (R212). -/
def execPackSym (x : Nat) (s : State) : Host.Outcome State Fault Refusal :=
  guarded (encode (.packSym x)) (packSymRule x) s

/-- R213's pseudocode. -/
def packEndRule (s : State) : Result :=
  if s.ctValid Config.eos = false then .fault .noCode
  else .ok (place (s.entry Config.eos).len 0) (packFlush (packBits s (s.codeOf Config.eos)))

/-- `PACK.END` (R213). -/
def execPackEnd (s : State) : Host.Outcome State Fault Refusal :=
  guarded (encode .packEnd) packEndRule s

end Sys2Proof.Machine
end

