-- ==== Sys2Proof/Machine/Table.lean ====
section
/-! DEFINITION. Codeword assignment and the codeword table's ports (42_codeword_table.md R171 to R178). -/

namespace Sys2Proof.Machine

/-- `Visit(i, path, len)` (R171): the table and the count of symbols after visiting the subtree under `i`. `path` and
`len` are per-call values (70_reset_and_hazards.md R318). `fuel` bounds the depth: a child's index is below its parent's,
so `ncount` is enough; where the links cycle, which no run reaches, the visit ends there (log 7). -/
def visit (s : State) : Nat → NodeIdx → BitVec 256 → Nat → State × Nat → State × Nat
  | 0, _, _, _, acc => acc
  | fuel + 1, i, path, len, acc =>
    let n := s.node i.toNat
    match n.kind with
    | .leaf => (acc.1.setEntry n.sym.toNat ⟨true, BitVec.ofNat 9 len, path⟩, acc.2 + 1)
    | .internal =>
      visit s fuel n.right (writeBit path len true) (len + 1) (visit s fuel n.left path (len + 1) acc)

/-- R171's pseudocode, with the single-leaf tree of R172. -/
def assignRule (s : State) : Result :=
  if s.root = Config.nil then .fault .sequence
  else
    let cleared := s.clearTable
    let n := s.node s.root.toNat
    match n.kind with
    | .leaf => .ok 1 (cleared.setEntry n.sym.toNat ⟨true, 1, 0⟩)
    | .internal =>
      let r := visit s s.ncount s.root 0 0 (cleared, 0)
      .ok (place (BitVec.ofNat 9 r.2) 0) r.1

/-- `ASSIGN` (R171). -/
def execAssign (s : State) : Host.Outcome State Fault Refusal :=
  guarded (encode .assign) assignRule s

/-- R174's pseudocode. -/
def tblClearRule (s : State) : Result := .ok 0 s.clearTable

/-- `TBL.CLEAR` (R174). -/
def execTblClear (s : State) : Host.Outcome State Fault Refusal :=
  guarded (encode .tblClear) tblClearRule s

/-- R175's pseudocode. -/
def tblDefineRule (x : Nat) (s : State) : Result :=
  if ¬ symInRange x then .fault .param
  else if s.ctValid x then .fault .formatError
  else .ok 0 (s.setEntry x ⟨true, 0, 0⟩)

/-- `TBL.DEFINE s` (R175). -/
def execTblDefine (x : Nat) (s : State) : Host.Outcome State Fault Refusal :=
  guarded (encode (.tblDefine x)) (tblDefineRule x) s

/-- An entry with one bit appended to its codeword (R176). -/
def CtEntry.append (e : CtEntry) (b : Bool) : CtEntry :=
  { e with len := e.len + 1, code := writeBit e.code e.len.toNat b }

/-- R176's pseudocode. -/
def tblAppendRule (x : Nat) (b : Bool) (s : State) : Result :=
  if ¬ symInRange x then .fault .param
  else if s.ctValid x = false then .fault .sequence
  else if (s.entry x).len = BitVec.ofNat 9 Config.lMax then .fault .capacity
  else .ok 0 (s.setEntry x ((s.entry x).append b))

/-- `TBL.APPEND s, b` (R176). -/
def execTblAppend (x : Nat) (b : Bool) (s : State) : Host.Outcome State Fault Refusal :=
  guarded (encode (.tblAppend x b)) (tblAppendRule x b) s

/-- R177's pseudocode. -/
def tblLenRule (x : Nat) (s : State) : Result :=
  if ¬ symInRange x then .fault .param
  else if s.ctValid x = false then .none
  else .ok (place (s.entry x).len 0 ||| place 1#1 16) s

/-- `TBL.LEN s` (R177). -/
def execTblLen (x : Nat) (s : State) : Host.Outcome State Fault Refusal :=
  guarded (encode (.tblLen x)) (tblLenRule x) s

/-- R178's pseudocode. -/
def tblBitRule (x j : Nat) (s : State) : Result :=
  if ¬ symInRange x then .fault .param
  else if s.ctValid x = false ∨ j ≥ (s.entry x).len.toNat then .none
  else .ok (place (BitVec.ofBool ((s.entry x).code.getLsbD j)) 0) s

/-- `TBL.BIT s, j` (R178). -/
def execTblBit (x j : Nat) (s : State) : Host.Outcome State Fault Refusal :=
  guarded (encode (.tblBit x j)) (tblBitRule x j) s

end Sys2Proof.Machine
end

