-- ==== Sys2Proof/Machine/TreeBuild.lean ====
section
/-! DEFINITION. The tree builder's commands (41_tree_build.md R151 to R155). -/

namespace Sys2Proof.Machine

/-- R151's pseudocode. -/
def leafRule (x : Nat) (c : Weight) (s : State) : Result :=
  if ¬ symInRange x then .fault .param
  else if c = 0 then .fault .param
  else if s.leafSeen x then .fault .param
  else if s.ncount = Config.nodeCap ∨ s.hsize = Config.heapCap then .fault .capacity
  else
    .ok (rdNode s.nextIdx c)
      ((((s.allocNode (leafNode x c)).setLeafSeen x).heapInsert s.nextIdx).setRoot Config.nil)

/-- `LEAF s, c` (R151). -/
def execLeaf (x : Nat) (c : Weight) (s : State) : Host.Outcome State Fault Refusal :=
  guarded (encode (.leaf x c)) (leafRule x c) s

/-- `MergeStep()` (R152): the index of the node made and the state after. The caller has checked `hsize >= 2`. -/
def mergeStep (s : State) : Except FaultCode (NodeIdx × State) :=
  let a := s.heapMin
  let s1 := s.heapExtract
  let b := s1.heapMin
  let s2 := s1.heapExtract
  if s2.ncount = Config.nodeCap then .error .capacity
  else if weightSum s2 a b ≥ 2 ^ 32 then .error .weightOverflow
  else
    let i := s2.nextIdx
    let wt := BitVec.ofNat 32 (weightSum s2 a b)
    let s3 := ((s2.allocNode (joinNode a b wt .heap)).setOwn a.toNat .child).setOwn b.toNat .child
    .ok (i, s3.heapInsert i)

/-- R153's pseudocode. -/
def mergeRule (s : State) : Result :=
  if s.hsize < 2 then .none
  else
    match mergeStep s with
    | .error c => .fault c
    | .ok (i, t) => .ok (rdNode i (t.weightOf i)) (t.setRoot Config.nil)

/-- `MERGE` (R153). -/
def execMerge (s : State) : Host.Outcome State Fault Refusal :=
  guarded (encode .merge) mergeRule s

/-- The `while hsize > 1` loop of `BUILD` (R154). Each step lowers `hsize` by one, so `hsize` iterations are enough. -/
def mergeLoop : Nat → State → Except FaultCode State
  | 0, s => .ok s
  | fuel + 1, s =>
    if s.hsize > 1 then
      match mergeStep s with
      | .error c => .error c
      | .ok (_, t) => mergeLoop fuel t
    else .ok s

/-- R154's pseudocode. -/
def buildRule (s : State) : Result :=
  if s.hsize = 0 then .none
  else
    match mergeLoop s.hsize s with
    | .error c => .fault c
    | .ok t =>
      let r := t.heapMin
      .ok (rdNode r (t.weightOf r)) ((t.heapExtract.setOwn r.toNat .detached).setRoot r)

/-- `BUILD` (R154). -/
def execBuild (s : State) : Host.Outcome State Fault Refusal :=
  guarded (encode .build) buildRule s

/-- R155's pseudocode. -/
def tbClearRule (s : State) : Result :=
  .ok 0 ((((s.setNodes []).setHeap []).setRoot Config.nil).clearLeafSeen)

/-- `TB.CLEAR` (R155). -/
def execTbClear (s : State) : Host.Outcome State Fault Refusal :=
  guarded (encode .tbClear) tbClearRule s

end Sys2Proof.Machine
end

