-- ==== Sys2Proof/Machine/Unpacker.lean ====
section
/-! DEFINITION. The bit unpacker (45_bit_unpacker.md R226 to R230). -/

namespace Sys2Proof.Machine

/-- The bit string `up_acc[0], ..., up_acc[up_len - 1]` (R227, 10_state.md R35). -/
def State.upBits (s : State) : List Bool := (List.range s.upLen.toNat).map s.upAcc.getLsbD

/-- The symbol `x` decoded (R227): the accumulator cleared; the sentinel sets `up_done`, any other is emitted. -/
def decoded (s : State) (x : Nat) : State :=
  let t := s.setUp 0 0
  if x = Config.eos then t.setUpFlags t.upDead true else t.emitUp (BitVec.ofNat 8 x)

/-- `UnpackBit(b)` (R227). -/
def unpackBit (s : State) (b : Bool) : Except FaultCode State :=
  if s.upDone || s.upDead then .ok s
  else
    let t := s.setUp (writeBit s.upAcc s.upLen.toNat b) (s.upLen + 1)
    match t.matchSyms t.upBits with
    | [] => .ok (if t.upLen = BitVec.ofNat 9 Config.lMax then t.setUpFlags true t.upDone else t)
    | [x] => .ok (decoded t x)
    | _ :: _ :: _ => .error .formatError

/-- `UnpackBit` of each bit in order, up to the first fault (R229). -/
def unpackBits (s : State) (bits : List Bool) : Except FaultCode State := bits.foldlM unpackBit s

/-- R228's pseudocode. -/
def unpkStartRule (s : State) : Result := .ok 0 ((s.setUp 0 0).setUpFlags false false)

/-- `UNPK.START` (R228). -/
def execUnpkStart (s : State) : Host.Outcome State Fault Refusal :=
  guarded (encode .unpkStart) unpkStartRule s

/-- R229's pseudocode. -/
def unpkByteRule (v : Byte) (s : State) : Result :=
  match unpackBits s (byteBits v) with
  | .error c => .fault c
  | .ok t => .ok (place (BitVec.ofBool t.upDone) 0) t

/-- `UNPK.BYTE v` (R229). -/
def execUnpkByte (v : Byte) (s : State) : Host.Outcome State Fault Refusal :=
  guarded (encode (.unpkByte v)) (unpkByteRule v) s

/-- R230's pseudocode. -/
def unpkEndRule (s : State) : Result :=
  if s.upDone = false then .fault .truncatedStream else .ok 0 s

/-- `UNPK.END` (R230). -/
def execUnpkEnd (s : State) : Host.Outcome State Fault Refusal :=
  guarded (encode .unpkEnd) unpkEndRule s

end Sys2Proof.Machine
end

