-- ==== Sys2Proof/Machine/Dispatch.lean ====
section
/-! DEFINITION. One arm per command (30_encoding.md R95). -/

namespace Sys2Proof.Machine

def exec (i : Instr) (s : State) : Host.Outcome State Fault Refusal :=
  match i with
  | .nop => Sys2Proof.Machine.execNop s
  | .reset => Sys2Proof.Machine.execReset s
  | .status => Sys2Proof.Machine.execStatus s
  | .errcmd => Sys2Proof.Machine.execErrcmd s
  | .leaf x c => Sys2Proof.Machine.execLeaf x c s
  | .heapPeek => Sys2Proof.Machine.execHeapPeek s
  | .heapExtract => Sys2Proof.Machine.execHeapExtract s
  | .heapInsert n => Sys2Proof.Machine.execHeapInsert n s
  | .nodeJoin l r => Sys2Proof.Machine.execNodeJoin l r s
  | .nodeInfo n => Sys2Proof.Machine.execNodeInfo n s
  | .nodeKids n => Sys2Proof.Machine.execNodeKids n s
  | .heapSlot k => Sys2Proof.Machine.execHeapSlot k s
  | .merge => Sys2Proof.Machine.execMerge s
  | .build => Sys2Proof.Machine.execBuild s
  | .assign => Sys2Proof.Machine.execAssign s
  | .tbClear => Sys2Proof.Machine.execTbClear s
  | .tblClear => Sys2Proof.Machine.execTblClear s
  | .tblDefine x => Sys2Proof.Machine.execTblDefine x s
  | .tblAppend x b => Sys2Proof.Machine.execTblAppend x b s
  | .tblLen x => Sys2Proof.Machine.execTblLen x s
  | .tblBit x j => Sys2Proof.Machine.execTblBit x j s
  | .packSym x => Sys2Proof.Machine.execPackSym x s
  | .packEnd => Sys2Proof.Machine.execPackEnd s
  | .unpkStart => Sys2Proof.Machine.execUnpkStart s
  | .unpkByte v => Sys2Proof.Machine.execUnpkByte v s
  | .unpkEnd => Sys2Proof.Machine.execUnpkEnd s

end Sys2Proof.Machine
end

