-- ==== Sys2Proof/Machine/Fetch.lean ====
section
/-! DEFINITION. Taking the next input. The block has no program counter and stores no program (10_state.md R21): the host
presents one command word at a time (logs 1, 2, 9). -/

namespace Sys2Proof.Machine

/-- Nothing presented: the block holds its state (60_exceptions.md R295, log 2). -/
def idle (s : State) : State := s

/-- The state with its next input taken. -/
def takeInput (s : State) : State := s.setInbox s.inbox.tail

/-- Present a command word as the next input. -/
def presentWord (s : State) (w : Word) : State := s.setInbox (.command w :: s.inbox)

end Sys2Proof.Machine
end

