-- ==== Sys2Proof/Machine/Step.lean ====
section
/-! DEFINITION. One step: `Execute(cmd)` (60_exceptions.md R275) of the next input. -/

namespace Sys2Proof.Machine

def step (s : State) : Host.Outcome State Fault Refusal :=
  match s.inbox with
  | [] => .next (idle s)
  | .hardReset :: _ => .next (hardReset (takeInput s))
  | .command w :: _ =>
    match decode w with
    | .ok i => exec i (takeInput s)
    | .error _ => illegalCommand w (takeInput s)

/-- The command whose bits are `w` presented as the next input, so that the very next step executes it (log 1). -/
def State.withFetchWord (s : State) (nbits w : Nat) : State := presentWord s (BitVec.ofNat 64 (w % 2 ^ nbits))

end Sys2Proof.Machine
end

