-- ==== Sys2Proof/Machine/HostProc.lean ====
section
/-! DEFINITION. The host procedures the block depends on (00_scope.md R4): the frequency count (46_control_and_host.md
R251), `Serialize` and `Parse` of the table file (43_table_codec.md R194, R195), `COMPRESS` and `DECOMPRESS` (R252, R253),
and the pseudo-commands of 30_encoding.md R99. They reach the block only through command words given to `step`. -/

namespace Sys2Proof.Machine

/-- The state after the host issues one command word and the block executes it (`step`). -/
def issueWord (s : State) (w : Word) : State :=
  match step (presentWord s w) with
  | .next t => t
  | .fault _ => s
  | .refused _ => s

/-- The state after the host issues one command. -/
def issue (s : State) (i : Instr) : State := issueWord s (encode i)

/-- The state after the host issues commands in order. -/
def issueAll (s : State) (is : List Instr) : State := is.foldl issue s

/-- The latest response. -/
def State.lastResp (s : State) : Option Response := s.resps.getLast?

/-- How a host procedure fails (R195, R252, R253): the code it reports, in the numbers of R271, and the block as the
commands issued up to then left it. When the block faulted, `state.err` is the code; when a check of the host's own failed,
the block is not faulted and `state.err` is 0 (log 14). -/
structure HostFailure where
  code  : BitVec 4
  state : State
  deriving DecidableEq, Repr

/-- What a host procedure ends in: a result, or a failure. -/
abbrev HostResult (α : Type) := Except HostFailure α

/-- Issue a command that must answer `OK`; any other response fails with its `rd[3:0]` (R252, log 14). -/
def call (s : State) (i : Instr) : HostResult State :=
  let t := issue s i
  match t.lastResp with
  | some ⟨.ok, _⟩ => .ok t
  | some r => .error ⟨r.rd.setWidth 4, t⟩
  | none => .error ⟨0, t⟩

/-- Issue a read command that answers `OK` with data or `NONE`; any other response fails with its `rd[3:0]`. -/
def query (s : State) (i : Instr) : HostResult (Option Word × State) :=
  let t := issue s i
  match t.lastResp with
  | some ⟨.ok, rd⟩ => .ok (some rd, t)
  | some ⟨.none, _⟩ => .ok (none, t)
  | some r => .error ⟨r.rd.setWidth 4, t⟩
  | none => .error ⟨0, t⟩

/-- `call` of each command in order. -/
def callAll (s : State) (is : List Instr) : HostResult State := is.foldlM call s

/-! ### Pseudo-commands (R99) -/

/-- `TBL.LOAD s, "b0b1...bn"`. -/
def tblLoad (x : Nat) (bits : List Bool) : List Instr := .tblDefine x :: bits.map (Instr.tblAppend x)

/-- `PACK.BYTES x1 x2 ...`. -/
def packBytes (xs : List Byte) : List Instr := xs.map (fun x => .packSym x.toNat)

/-- `UNPK.BYTES x1 x2 ...`. -/
def unpkBytes (xs : List Byte) : List Instr := xs.map Instr.unpkByte

/-! ### The table file (43_table_codec.md) -/

/-- The line break 0x0A, and the carriage return 0x0D (R191, R192). -/
def lineBreak : Byte := 0x0A
def carriageReturn : Byte := 0x0D

/-- The markers `EOF`, `EOL`, `CR` as ASCII bytes (20_memory.md R65). -/
def markEof : List Byte := [0x45, 0x4F, 0x46]
def markEol : List Byte := [0x45, 0x4F, 0x4C]
def markCr : List Byte := [0x43, 0x52]

/-- `Designator(s)` (R194). -/
def designator (x : Nat) : List Byte :=
  if x = Config.eos then markEof
  else if x = lineBreak.toNat then markEol
  else if x = carriageReturn.toNat then markCr
  else [BitVec.ofNat 8 x]

/-- A codeword bit as its character, `0` or `1` (R192). -/
def bitChar (b : Bool) : Byte := if b then 0x31 else 0x30

/-- Every byte is `0` or `1` (`AllBits`, R195). -/
def allBits (u : List Byte) : Bool := u.all (fun x => x == 0x30 || x == 0x31)

/-- The bits a codeword's characters stand for (R195: `x - 0x30`). -/
def charBits (u : List Byte) : List Bool := u.map (fun x => x == 0x31)

/-- The characters of codeword bits `j`, `j + 1`, ..., `n` of them, read with `TBL.BIT` (R194). -/
def serializeBits (x : Nat) : Nat → Nat → State → HostResult (List Byte × State)
  | 0, _, s => .ok ([], s)
  | n + 1, j, s => do
    let (rd, t) ← query s (.tblBit x j)
    let (rest, u) ← serializeBits x n (j + 1) t
    .ok (bitChar ((rd.getD 0).getLsbD 0) :: rest, u)

/-- The line of one symbol, or nothing when `TBL.LEN` answers `NONE` (R194). -/
def serializeSym (x : Nat) (s : State) : HostResult (List Byte × State) := do
  let (len, t) ← query s (.tblLen x)
  match len with
  | none => .ok ([], t)
  | some rd =>
    let (chars, u) ← serializeBits x (rd.setWidth 9).toNat 0 t
    .ok (designator x ++ chars ++ [lineBreak], u)

/-- The lines of the symbols listed, in order. -/
def serializeSyms : List Nat → State → HostResult (List Byte × State)
  | [], s => .ok ([], s)
  | x :: xs, s => do
    let (line, t) ← serializeSym x s
    let (rest, u) ← serializeSyms xs t
    .ok (line ++ rest, u)

/-- `Serialize()` (R194): ascending symbol index, the sentinel last. -/
def serialize (s : State) : HostResult (List Byte × State) := serializeSyms (List.range Config.nsym) s

/-- One line, without its line break, read as designator and codeword (R192, R195); `none` where no branch succeeds. -/
def parseLine (line : List Byte) : Option (Nat × List Bool) :=
  if markEof.isPrefixOf line ∧ allBits (line.drop 3) then some (Config.eos, charBits (line.drop 3))
  else if markEol.isPrefixOf line ∧ allBits (line.drop 3) then some (lineBreak.toNat, charBits (line.drop 3))
  else if markCr.isPrefixOf line ∧ allBits (line.drop 2) then some (carriageReturn.toNat, charBits (line.drop 2))
  else
    match line with
    | [] => none
    | x :: u => if x ≠ carriageReturn ∧ allBits u then some (x.toNat, charBits u) else none

/-- Load one parsed line with `TBL.DEFINE` and `TBL.APPEND`; an unreadable line is `FormatError`, code 2, with no command
issued for it (R195). -/
def loadLine (s : State) (line : List Byte) : HostResult State :=
  match parseLine line with
  | none => .error ⟨FaultCode.formatError.code, s⟩
  | some (x, bits) => callAll s (tblLoad x bits)

/-- The loop of `Parse` (R195). `line` holds the current line's bytes so far; a last line without its line break is
`FormatError`; the lines before it stay loaded. -/
def parseLines (line : List Byte) : List Byte → State → HostResult State
  | [], s => if line = [] then .ok s else .error ⟨FaultCode.formatError.code, s⟩
  | b :: rest, s =>
    if b = lineBreak then do
      let t ← loadLine s line
      parseLines [] rest t
    else parseLines (line ++ [b]) rest s

/-- `Parse(T)` (R195). -/
def parse (T : List Byte) (s : State) : HostResult State := do
  let t ← call s .tblClear
  parseLines [] T t

/-! ### Whole runs (46_control_and_host.md) -/

/-- `f(x)`, the occurrences of a byte value in the input; the sentinel's count is 1 (R251). -/
def freq (S : List Byte) (x : Nat) : Nat := if x = Config.eos then 1 else S.countP (fun b => b.toNat == x)

/-- The leaf of one byte value, when it occurs (R252); a count that does not fit the `w` field fails the run with
code 10 before the command is issued (R257). -/
def loadLeaf (S : List Byte) (s : State) (x : Nat) : HostResult State :=
  if freq S x = 0 then .ok s
  else if freq S x ≥ 2 ^ 32 then .error ⟨FaultCode.weightOverflow.code, s⟩
  else call s (.leaf x (BitVec.ofNat 32 (freq S x)))

/-- `COMPRESS(S)` (R252): packed bytes, table text, and the state left. -/
def compress (S : List Byte) (s : State) : HostResult (List Byte × List Byte × State) := do
  let s ← call s .reset
  let s ← (List.range Config.nsym).foldlM (loadLeaf S) s
  let s ← call s .build
  let s ← call s .assign
  let (tableText, s) ← serialize s
  let t ← callAll s (packBytes S ++ [.packEnd])
  .ok (t.pkOut.drop s.pkOut.length, tableText, t)

/-- `DECOMPRESS(P, T)` (R253): the decoded bytes and the state left. -/
def decompress (P T : List Byte) (s : State) : HostResult (List Byte × State) := do
  let s ← parse T s
  let s ← call s .unpkStart
  let t ← callAll s (unpkBytes P)
  let u ← call t .unpkEnd
  .ok (u.upOut.drop s.upOut.length, u)

end Sys2Proof.Machine
end

