-- ==== Sys2Proof/Safety.lean ====
section
/-! DEFINITION. The terms the claims use: the invariants the spec states of every reachable state (10_state.md R28, R32,
R34 to R37, R42, R43), which commands may write what (R22), and what a tree, a prefix-free table and a packed stream are. -/

namespace Sys2Proof.Machine

/-- Slot `k`'s parent slot (10_state.md R27). -/
def parentSlot (k : Nat) : Nat := (k - 1) / 2

/-- No entry of the heap is lighter than its parent (R28, R120). -/
def HeapOrdered (wt : NodeIdx → Weight) (h : List NodeIdx) : Prop :=
  ∀ k < h.length, 1 ≤ k → wt (slot h (parentSlot k)) ≤ wt (slot h k)

/-- Node `i` is allocated and a leaf. -/
abbrev State.isLeaf (s : State) (i : Nat) : Prop := i < s.ncount ∧ (s.node i).kind = .leaf

/-- Node `i` is allocated and internal. -/
abbrev State.isInternal (s : State) (i : Nat) : Prop := i < s.ncount ∧ (s.node i).kind = .internal

/-- Node `c` is the left or the right child of node `p`. -/
abbrev State.isKid (s : State) (p c : Nat) : Prop := (s.node p).left.toNat = c ∨ (s.node p).right.toNat = c

/-- The heap invariant (10_state.md R28). -/
structure HeapOk (s : State) : Prop where
  ordered  : HeapOrdered s.weightOf s.heap
  nodup    : s.heap.Nodup
  owned    : ∀ i ∈ s.heap, i.toNat < s.ncount ∧ (s.node i.toNat).own = .heap
  complete : ∀ i < s.ncount, (s.node i).own = .heap → BitVec.ofNat 10 i ∈ s.heap

/-- What is true of an allocated leaf (R24, R29, R43). -/
def LeafOk (s : State) (i : Nat) : Prop :=
  (s.node i).sym.toNat ≤ Config.eos ∧ 1 ≤ (s.node i).weight.toNat ∧ (s.node i).left = Config.nil ∧
    (s.node i).right = Config.nil ∧ s.leafSeen (s.node i).sym.toNat = true

/-- What is true of an allocated internal node (R24, R26, R43): two distinct children allocated before it, both CHILD, and
its weight their exact sum. -/
def InternalOk (s : State) (i : Nat) : Prop :=
  (s.node i).sym = Config.internalSym ∧ (s.node i).left.toNat < i ∧ (s.node i).right.toNat < i ∧
    (s.node i).left ≠ (s.node i).right ∧ (s.node i).weight.toNat = weightSum s (s.node i).left (s.node i).right ∧
    (s.node (s.node i).left.toNat).own = .child ∧ (s.node (s.node i).right.toNat).own = .child

/-- The tree invariants (R26, R29, R42, R43). -/
structure TreeOk (s : State) : Prop where
  leaf      : ∀ i < s.ncount, (s.node i).kind = .leaf → LeafOk s i
  internal  : ∀ i < s.ncount, (s.node i).kind = .internal → InternalOk s i
  owned     : ∀ i < s.ncount, (s.node i).own ≠ .free
  leafOnce  : ∀ i < s.ncount, ∀ j < s.ncount, (s.node i).kind = .leaf → (s.node j).kind = .leaf →
                (s.node i).sym = (s.node j).sym → i = j
  seen      : ∀ x < 257, s.leafSeen x = true → ∃ i < s.ncount, (s.node i).kind = .leaf ∧ (s.node i).sym.toNat = x
  oneParent : ∀ p < s.ncount, ∀ q < s.ncount, (s.node p).kind = .internal → (s.node q).kind = .internal →
                ∀ c < s.ncount, s.isKid p c → s.isKid q c → p = q
  hasParent : ∀ c < s.ncount, (s.node c).own = .child → ∃ p < s.ncount, (s.node p).kind = .internal ∧ s.isKid p c
  counts    : s.nodes.countP (·.own == .child) = 2 * s.nodes.countP (·.kind == .internal)

/-- `root` is `NIL` or names a DETACHED node (R30). -/
def RootOk (s : State) : Prop :=
  s.root = Config.nil ∨ (s.root.toNat < s.ncount ∧ (s.node s.root.toNat).own = .detached)

/-- The packer's invariant (R34): no bit of `pk_acc` at or above `pk_cnt`. -/
def PackOk (s : State) : Prop := s.pkAcc.toNat < 2 ^ s.pkCnt.toNat

/-- The unpacker's invariant (R35, R36). -/
structure UnpackOk (s : State) : Prop where
  short : s.upLen.toNat ≤ 256
  clean : s.upAcc.toNat < 2 ^ s.upLen.toNat
  dead  : s.upDead = true ↔ s.upLen.toNat = 256
  done  : s.upDone = true → s.upLen = 0

/-- The codes the block can raise (60_exceptions.md R271, 93_implementation_defined.md U13): 2, 3, 5 to 11. -/
def raisable (c : BitVec 4) : Bool := [2, 3, 5, 6, 7, 8, 9, 10, 11].contains c.toNat

/-- The fault registers (R37, R271; 46_control_and_host.md R248: `ERR_CMD` is 0 exactly when no fault is recorded). -/
structure FaultOk (s : State) : Prop where
  code : s.err = 0 ∨ raisable s.err = true
  cmd  : s.errCmd = 0 ↔ s.err = 0

/-- Every invariant the spec states of the block's state. -/
structure Inv (s : State) : Prop where
  mem    : Memory.wf s = true
  heap   : HeapOk s
  tree   : TreeOk s
  root   : RootOk s
  pack   : PackOk s
  unpack : UnpackOk s
  fault  : FaultOk s

/-- Two states that agree on everything but the model's record of the host (logs 1, 3): every register, every memory and
both ports. -/
def SameBlock (s t : State) : Prop :=
  { s with inbox := [], resps := [] } = { t with inbox := [], resps := [] }

end Sys2Proof.Machine

namespace Sys2Proof

/-! ### Which commands may write what (10_state.md R22; 20_memory.md R60) -/

/-- The commands that execute when the block is faulted (60_exceptions.md R278). -/
def Instr.runsFaulted (i : Instr) : Bool := i == .reset || i == .status || i == .errcmd

/-- The commands that only read (20_memory.md R70). -/
def Instr.readOnly (i : Instr) : Bool :=
  match i with
  | .nop | .status | .errcmd | .heapPeek | .heapSlot _ | .nodeInfo _ | .nodeKids _ | .tblLen _ | .tblBit _ _ => true
  | _ => false

/-- The writers of the node store (R60), other than `RESET`. -/
def Instr.writesNodes (i : Instr) : Bool :=
  match i with
  | .leaf _ _ | .heapExtract | .heapInsert _ | .nodeJoin _ _ | .merge | .build | .tbClear => true
  | _ => false

/-- The writers of the heap array and `hsize` (R22, R60), other than `RESET`. -/
def Instr.writesHeap (i : Instr) : Bool :=
  match i with
  | .leaf _ _ | .heapExtract | .heapInsert _ | .merge | .build | .tbClear => true
  | _ => false

/-- The writers of `leafseen` (R60), other than `RESET`. -/
def Instr.writesLeafseen (i : Instr) : Bool :=
  match i with
  | .leaf _ _ | .tbClear => true
  | _ => false

/-- The writers of `root` (R22, R30), other than `RESET`: the writers of the node store. -/
def Instr.writesRoot (i : Instr) : Bool := Instr.writesNodes i

/-- The writers of the codeword table (R60), other than `RESET`. -/
def Instr.writesTable (i : Instr) : Bool :=
  match i with
  | .assign | .tblClear | .tblDefine _ | .tblAppend _ _ => true
  | _ => false

/-- The writers of `pk_acc`, `pk_cnt` and of `PK_OUT` (R22, R38), other than `RESET`. -/
def Instr.writesPacker (i : Instr) : Bool :=
  match i with
  | .packSym _ | .packEnd => true
  | _ => false

/-- The writers of `up_acc`, `up_len`, `up_dead`, `up_done` (R22), other than `RESET`. -/
def Instr.writesUnpacker (i : Instr) : Bool :=
  match i with
  | .unpkStart | .unpkByte _ => true
  | _ => false

/-- The faults a command's rule can raise (60_exceptions.md R277). -/
def Instr.faults (i : Instr) : List Machine.FaultCode :=
  match i with
  | .nop | .reset | .status | .errcmd | .heapPeek | .heapExtract | .tbClear | .tblClear | .unpkStart => []
  | .leaf _ _ => [.param, .capacity]
  | .heapInsert _ => [.param, .ownership, .capacity]
  | .nodeJoin _ _ => [.param, .ownership, .capacity, .weightOverflow]
  | .nodeInfo _ | .nodeKids _ | .heapSlot _ | .tblLen _ | .tblBit _ _ => [.param]
  | .merge | .build => [.capacity, .weightOverflow]
  | .assign => [.sequence]
  | .tblDefine _ => [.param, .formatError]
  | .tblAppend _ _ => [.param, .sequence, .capacity]
  | .packSym _ => [.param, .noCode]
  | .packEnd => [.noCode]
  | .unpkByte _ => [.formatError]
  | .unpkEnd => [.truncatedStream]

/-- The command finds nothing to act on, so that its rule answers `NONE` (60_exceptions.md R282). -/
def Instr.nothingToActOn (i : Instr) (s : Machine.State) : Prop :=
  match i with
  | .heapPeek | .heapExtract | .build => s.hsize = 0
  | .merge => s.hsize < 2
  | .nodeInfo n | .nodeKids n => n ≤ 512 ∧ s.ncount ≤ n
  | .heapSlot k => k ≤ 256 ∧ s.hsize ≤ k
  | .tblLen x => x ≤ 256 ∧ s.ctValid x = false
  | .tblBit x j => x ≤ 256 ∧ (s.ctValid x = false ∨ (s.entry x).len.toNat ≤ j)
  | _ => False

end Sys2Proof

namespace Sys2Proof.Machine

/-! ### Responses -/

/-- A data word that names a node: `rd[41:32]` its index, `rd[31:0]` its weight, the other bits 0 (30_encoding.md R94). -/
def NodeWord (rd : Word) (i : NodeIdx) (wt : Weight) : Prop :=
  rd.extractLsb' 32 10 = i ∧ rd.extractLsb' 0 32 = wt ∧ rd.extractLsb' 42 22 = 0

/-! ### Trees, codes, streams -/

/-- The path `p` (0 = left, 1 = right, first step first) leads from node `i` down to node `j` (42_codeword_table.md R170). -/
inductive TreePath (s : State) : NodeIdx → List Bool → NodeIdx → Prop where
  | here (i : NodeIdx) : TreePath s i [] i
  | left {i j : NodeIdx} {p : List Bool} : (s.node i.toNat).kind = .internal →
      TreePath s (s.node i.toNat).left p j → TreePath s i (false :: p) j
  | right {i j : NodeIdx} {p : List Bool} : (s.node i.toNat).kind = .internal →
      TreePath s (s.node i.toNat).right p j → TreePath s i (true :: p) j

/-- The path `p` leads from node `i` to a leaf that holds symbol `x`. -/
def LeafAt (s : State) (i : NodeIdx) (p : List Bool) (x : Nat) : Prop :=
  ∃ j, TreePath s i p j ∧ (s.node j.toNat).kind = .leaf ∧ (s.node j.toNat).sym.toNat = x

/-- No codeword of the table is a prefix of another symbol's (R173; this also makes them pairwise distinct). -/
def PrefixFree (s : State) : Prop :=
  ∀ x y, s.ctValid x = true → s.ctValid y = true → s.codeOf x <+: s.codeOf y → x = y

/-- A table whose codewords are prefix-free, pairwise distinct and non-empty, the sentinel's among them (the hypothesis of
45_bit_unpacker.md R231). -/
structure Decodable (s : State) : Prop where
  prefixFree : PrefixFree s
  nonEmpty   : ∀ x, s.ctValid x = true → s.codeOf x ≠ []
  sentinel   : s.ctValid Config.eos = true

/-- The sum of the weights of the nodes listed. -/
def totalWeight (s : State) (h : List NodeIdx) : Nat := (h.map (fun i => (s.weightOf i).toNat)).sum

/-- No two symbols of the table have the same codeword (45_bit_unpacker.md R226). -/
def DistinctCodes (s : State) : Prop :=
  ∀ x y, s.ctValid x = true → s.ctValid y = true → s.codeOf x = s.codeOf y → x = y

/-- The bits `B` of a packed stream of the bytes `xs` (44_bit_packer.md R214): their codewords, then the sentinel's. -/
def streamBits (s : State) (xs : List Byte) : List Bool :=
  xs.flatMap (fun x => s.codeOf x.toNat) ++ s.codeOf Config.eos

/-- Bit `n` of a byte sequence, least significant bit first (20_memory.md R63); 0 past its end. -/
def streamBit (bytes : List Byte) (n : Nat) : Bool := (bytes.getD (n / 8) 0).getLsbD (n % 8)

/-- `P` is the packed form of the bits `B` (R63, R66): `(|B| + 7) div 8` bytes, bit `n` of `B` at bit `n`, 0 above. -/
def IsPacked (B : List Bool) (P : List Byte) : Prop :=
  P.length = (B.length + 7) / 8 ∧ ∀ n < 8 * P.length, streamBit P n = B.getD n false

/-! ### The table file -/

/-- The table file of a codeword table (43_table_codec.md R192, R194): one line per symbol with an entry, ascending. -/
def tableText (s : State) : List Byte :=
  (List.range Config.nsym).flatMap fun x =>
    if s.ctValid x then designator x ++ (s.codeOf x).map bitChar ++ [lineBreak] else []

/-- Every reading of a line that the grammar of 43_table_codec.md R192 allows, in the order R195 tests them. -/
def lineReadings (line : List Byte) : List (Nat × List Bool) :=
  (if markEof.isPrefixOf line ∧ allBits (line.drop 3) then [(Config.eos, charBits (line.drop 3))] else []) ++
  (if markEol.isPrefixOf line ∧ allBits (line.drop 3) then [(lineBreak.toNat, charBits (line.drop 3))] else []) ++
  (if markCr.isPrefixOf line ∧ allBits (line.drop 2) then [(carriageReturn.toNat, charBits (line.drop 2))] else []) ++
  (if line ≠ [] ∧ line.head? ≠ some carriageReturn ∧ line.head? ≠ some lineBreak ∧ allBits (line.drop 1) then
    [((line.headD 0).toNat, charBits (line.drop 1))] else [])

end Sys2Proof.Machine
end

