-- ==== Sys2Proof/Certificates/Slice0/Obligations.lean ====
section
/-! DEFINITION. The statements for the provers. A command's statement says what its word decodes to and what the command
does, case by case, as an equation for the next state: what the equation does not name is unchanged. -/

section Statements

open Sys2Proof Sys2Proof.Machine

/-! ### Encoding -/

/-- Words written out from 30_encoding.md R95 and R98, one or more per family, and the illegal examples of R96. -/
def Obligations.SampleWordsDecode : Prop :=
  decode 0x0000000000000000#64 = .ok .nop ∧
  decode 0x0200000000000000#64 = .ok .status ∧
  decode 0x1000006100000003#64 = .ok (.leaf 97 3) ∧
  decode 0x1000010000000001#64 = .ok (.leaf 256 1) ∧
  decode 0x1400000200000003#64 = .ok (.nodeJoin 2 3) ∧
  decode 0x1700000100000000#64 = .ok (.heapSlot 1) ∧
  decode 0x2100000000000000#64 = .ok .build ∧
  decode 0x3200006200000001#64 = .ok (.tblAppend 98 true) ∧
  decode 0x3400006300000002#64 = .ok (.tblBit 99 2) ∧
  decode 0x4000006200000000#64 = .ok (.packSym 98) ∧
  decode 0x51000000000000A8#64 = .ok (.unpkByte 0xA8) ∧
  decode 0x5200000000000000#64 = .ok .unpkEnd ∧
  decode 0x0400000000000000#64 = .error .unknownOp ∧
  decode 0x1100000100000000#64 = .error .unusedBits ∧
  decode 0x3200000000000002#64 = .error .unusedBits ∧
  decode 0x1000040000000001#64 = .error .reservedBits

/-- Decoding the word of a well-formed instruction gives the instruction back, with every operand (R91, R95, R98). -/
def Obligations.DecodeOfEncodeIsIdentity : Prop :=
  ∀ i : Instr, i.WellFormed → decode (encode i) = .ok i

/-- Every word that decodes is the one word of a well-formed instruction (R90, R91, R96). -/
def Obligations.DecodedWordIsItsEncoding : Prop :=
  ∀ (w : Word) (i : Instr), decode w = .ok i → i.WellFormed ∧ encode i = w

/-- R92: a word is a command exactly when it has that command's `match` bits under its `mask`; the masks cover `op` and
`rsv`, and no two words decode to one instruction, so they cover every operand bit that is not used; the 26 patterns are
disjoint; a word that has no row's bits is illegal. -/
def Obligations.DecodingIsMatchUnderMask : Prop :=
  tableCommands.length = 26 ∧
  (∀ c ∈ tableCommands, c.row.mask &&& 0xFFFFFC0000000000#64 = 0xFFFFFC0000000000#64) ∧
  (∀ (v w : Word) (i : Instr), decode v = .ok i → decode w = .ok i → v = w) ∧
  ∀ w : Word,
    (∀ i : Instr, decode w = .ok i → i.row.matchesWord w ∧ ∃ c ∈ tableCommands, c.row = i.row) ∧
    (∀ c ∈ tableCommands, c.row.matchesWord w → ∃ i : Instr, decode w = .ok i ∧ i.row = c.row) ∧
    (∀ c ∈ tableCommands, ∀ d ∈ tableCommands, c.row.matchesWord w → d.row.matchesWord w → c = d) ∧
    ((∃ e, decode w = .error e) ↔ ∀ c ∈ tableCommands, ¬ c.row.matchesWord w)

/-- R91: every operand is an unsigned field of the command word, unchanged. -/
def Obligations.OperandsAreWordFields : Prop :=
  ∀ w : Word,
    (∀ s c, decode w = .ok (.leaf s c) → s = w.toNat / 2 ^ 32 % 2 ^ 10 ∧ c.toNat = w.toNat % 2 ^ 32) ∧
    (∀ n, decode w = .ok (.heapInsert n) → n = w.toNat / 2 ^ 32 % 2 ^ 10) ∧
    (∀ l r, decode w = .ok (.nodeJoin l r) → l = w.toNat / 2 ^ 32 % 2 ^ 10 ∧ r = w.toNat % 2 ^ 10) ∧
    (∀ n, decode w = .ok (.nodeInfo n) → n = w.toNat / 2 ^ 32 % 2 ^ 10) ∧
    (∀ n, decode w = .ok (.nodeKids n) → n = w.toNat / 2 ^ 32 % 2 ^ 10) ∧
    (∀ k, decode w = .ok (.heapSlot k) → k = w.toNat / 2 ^ 32 % 2 ^ 10) ∧
    (∀ s, decode w = .ok (.tblDefine s) → s = w.toNat / 2 ^ 32 % 2 ^ 10) ∧
    (∀ s b, decode w = .ok (.tblAppend s b) → s = w.toNat / 2 ^ 32 % 2 ^ 10 ∧ b = decide (w.toNat % 2 = 1)) ∧
    (∀ s, decode w = .ok (.tblLen s) → s = w.toNat / 2 ^ 32 % 2 ^ 10) ∧
    (∀ s j, decode w = .ok (.tblBit s j) → s = w.toNat / 2 ^ 32 % 2 ^ 10 ∧ j = w.toNat % 2 ^ 8) ∧
    (∀ s, decode w = .ok (.packSym s) → s = w.toNat / 2 ^ 32 % 2 ^ 10) ∧
    (∀ v, decode w = .ok (.unpkByte v) → v.toNat = w.toNat % 2 ^ 8)

/-! ### The execution wrapper -/

/-- R275: a step decodes the command word presented and runs exactly that command (the word is taken from the host's list,
log 1). -/
def Obligations.StepRunsDecodedCommand : Prop :=
  ∀ (s : State) (w : Word) (rest : List HostEvent) (i : Instr),
    s.inbox = .command w :: rest → decode w = .ok i → step s = exec i { s with inbox := rest }

/-- With nothing presented the block holds its state (R295; the step itself is the model's convention, log 2); a hardware
reset gives the reset state with both ports empty (R302; what stays of the host's list is log 9). -/
def Obligations.IdleHoldsAndHardResetClears : Prop :=
  (∀ s : State, s.inbox = [] → step s = .next s) ∧
  ∀ (s : State) (rest : List HostEvent), s.inbox = .hardReset :: rest →
    step s = .next { State.reset with inbox := rest }

/-- R272: a word that matches no row, in a block that is not faulted. -/
def Obligations.IllegalWordFaults : Prop :=
  ∀ (s : State) (w : Word) (rest : List HostEvent), s.inbox = .command w :: rest →
    (∀ c ∈ tableCommands, ¬ c.row.matchesWord w) → s.err = 0 →
      step s = .next { s with inbox := rest, err := 5, errCmd := w, resps := s.resps ++ [⟨.fault, 5⟩] }

/-- R278: while `ERR` is not 0, every command but three, and every illegal word, is refused and changes nothing; the three
execute as they do when it is 0, and answer `OK`. -/
def Obligations.FaultedBlockRefuses : Prop :=
  ∀ s : State, s.err ≠ 0 →
    (∀ i : Instr, i ≠ .reset → i ≠ .status → i ≠ .errcmd →
      exec i s = .next { s with resps := s.resps ++ [⟨.refused, s.err.setWidth 64⟩] }) ∧
    (∀ (w : Word) (rest : List HostEvent), s.inbox = .command w :: rest → (∃ e, decode w = .error e) →
      step s = .next { s with inbox := rest, resps := s.resps ++ [⟨.refused, s.err.setWidth 64⟩] }) ∧
    (∃ t, exec .reset s = .next t ∧ t.resps = s.resps ++ [⟨.ok, 0⟩] ∧
      SameBlock t { State.reset with pkOut := s.pkOut, upOut := s.upOut }) ∧
    exec .status s = .next { s with resps := s.resps ++ [⟨.ok, statusWord s⟩] } ∧
    exec .errcmd s = .next { s with resps := s.resps ++ [⟨.ok, s.errCmd⟩] }

/-- R276: a command that answers `FAULT` wrote `ERR` and `ERR_CMD` and nothing else, and emitted nothing; `ERR` is one of
its rule's faults (R277). -/
def Obligations.FaultWritesOnlyFaultRegisters : Prop :=
  ∀ (i : Instr) (s t : State) (rd : Word), exec i s = .next t → t.resps = s.resps ++ [⟨.fault, rd⟩] →
    s.err = 0 ∧ ∃ c ∈ i.faults, rd = (FaultCode.code c).setWidth 64 ∧
      t = { s with err := c.code, errCmd := encode i, resps := s.resps ++ [⟨.fault, rd⟩] }

/-- R282, R93: exactly when a command answers `NONE`, and that it then changes nothing. -/
def Obligations.NoneExactlyWhenNothingToActOn : Prop :=
  ∀ (i : Instr) (s : State), s.err = 0 →
    (i.nothingToActOn s → exec i s = .next { s with resps := s.resps ++ [⟨.none, 0⟩] }) ∧
    (¬ i.nothingToActOn s → ∃ t st rd, exec i s = .next t ∧ st ≠ .none ∧ t.resps = s.resps ++ [⟨st, rd⟩])

/-- R93, R9: every command answers a next state with exactly one response more, and takes nothing from the host. -/
def Obligations.EveryCommandAnswersOnce : Prop :=
  ∀ (i : Instr) (s : State), ∃ t st rd, exec i s = .next t ∧ t.resps = s.resps ++ [⟨st, rd⟩] ∧ t.inbox = s.inbox ∧
    (st = .none → rd = 0) ∧ (st = .fault → rd = t.err.setWidth 64) ∧ (st = .refused → rd = s.err.setWidth 64)

/-- R38: the ports are append-only, and only `PACK.SYM`, `PACK.END` and `UNPK.BYTE` emit. -/
def Obligations.PortsOnlyGrow : Prop :=
  ∀ (i : Instr) (s t : State), exec i s = .next t →
    ∃ packed decodedBytes, t.pkOut = s.pkOut ++ packed ∧ t.upOut = s.upOut ++ decodedBytes ∧
      (packed ≠ [] → i.writesPacker = true) ∧ (decodedBytes ≠ [] → ∃ v, i = .unpkByte v)

/-- R22, R39, R60: the frame of every command that answers `OK`, by register and memory: what a command does not write, in
R22's and R60's tables, is unchanged. -/
def Obligations.OnlyListedWritersWrite : Prop :=
  ∀ (i : Instr) (s t : State) (rd : Word), i ≠ .reset → exec i s = .next t → t.resps = s.resps ++ [⟨.ok, rd⟩] →
    (i.writesNodes = false → t.nodes = s.nodes) ∧
    (i.writesHeap = false → t.heap = s.heap) ∧
    (i.writesLeafseen = false → t.leafseen = s.leafseen) ∧
    (i.writesRoot = false → t.root = s.root) ∧
    (i.writesTable = false → t.ct = s.ct) ∧
    (i.writesPacker = false → t.pkAcc = s.pkAcc ∧ t.pkCnt = s.pkCnt ∧ t.pkOut = s.pkOut) ∧
    (i.writesUnpacker = false → t.upAcc = s.upAcc ∧ t.upLen = s.upLen ∧ t.upDead = s.upDead ∧ t.upDone = s.upDone ∧
      t.upOut = s.upOut) ∧
    t.err = s.err ∧ t.errCmd = s.errCmd

/-- R70: the reading commands, when they answer `OK` or `NONE`, change nothing, and answer the same when repeated. -/
def Obligations.ReadsChangeNothing : Prop :=
  ∀ (i : Instr) (s t : State) (r : Response), i.readOnly = true → exec i s = .next t → t.resps = s.resps ++ [r] →
    r.st = .ok ∨ r.st = .none →
      t = { s with resps := s.resps ++ [r] } ∧ exec i t = .next { s with resps := s.resps ++ [r, r] }

/-! ### Control -/

/-- R245: `NOP`. -/
def Obligations.NopDoesNothing : Prop :=
  decode 0#64 = .ok .nop ∧
  (∀ s : State, s.err = 0 → exec .nop s = .next { s with resps := s.resps ++ [⟨.ok, 0⟩] }) ∧
  ∀ s : State, s.err ≠ 0 → exec .nop s = .next { s with resps := s.resps ++ [⟨.refused, s.err.setWidth 64⟩] }

/-- R41, R246: `RESET`, whether or not the block is faulted: every piece of state at its reset value, what was emitted kept. -/
def Obligations.ResetGivesResetValues : Prop :=
  decode (mkWord 0x01 0 0) = .ok .reset ∧ ∀ s : State, ∃ t, exec .reset s = .next t ∧
    t.ncount = 0 ∧ t.hsize = 0 ∧ (∀ x < 257, t.leafSeen x = false) ∧ t.root = 0x3FF#10 ∧
    (∀ x < 257, t.entry x = ⟨false, 0, 0⟩) ∧ t.pkAcc = 0 ∧ t.pkCnt = 0 ∧
    t.upAcc = 0 ∧ t.upLen = 0 ∧ t.upDead = false ∧ t.upDone = false ∧ t.err = 0 ∧ t.errCmd = 0 ∧
    t.pkOut = s.pkOut ∧ t.upOut = s.upOut ∧ t.inbox = s.inbox ∧ t.resps = s.resps ++ [⟨.ok, 0⟩]

/-- R247: `STATUS`, whether or not the block is faulted. -/
def Obligations.StatusShowsScalarRegisters : Prop :=
  decode (mkWord 0x02 0 0) = .ok .status ∧ ∀ s : State, ∃ rd : Word,
    exec .status s = .next { s with resps := s.resps ++ [⟨.ok, rd⟩] } ∧
    rd.extractLsb' 0 4 = s.err ∧ rd.extractLsb' 4 9 = BitVec.ofNat 9 s.hsize ∧
    rd.extractLsb' 13 10 = BitVec.ofNat 10 s.ncount ∧ rd.extractLsb' 23 10 = s.root ∧
    rd.extractLsb' 33 3 = s.pkCnt ∧ rd.extractLsb' 36 9 = s.upLen ∧ rd.getLsbD 45 = s.upDone ∧
    rd.getLsbD 46 = s.upDead ∧ rd.extractLsb' 47 17 = 0

/-- R248: `ERRCMD`, whether or not the block is faulted; in every state that meets the invariant it answers 0 exactly when
no fault is recorded. -/
def Obligations.ErrcmdShowsFaultingWord : Prop :=
  decode (mkWord 0x03 0 0) = .ok .errcmd ∧
  (∀ s : State, exec .errcmd s = .next { s with resps := s.resps ++ [⟨.ok, s.errCmd⟩] }) ∧
  ∀ s : State, Inv s → (s.errCmd = 0 ↔ s.err = 0)

/-! ### Heap and node store -/

/-- R125: `HEAP.PEEK`. -/
def Obligations.HeapPeekNamesSlotZero : Prop :=
  decode (mkWord 0x11 0 0) = .ok .heapPeek ∧ ∀ s : State, s.err = 0 →
    (s.heap = [] → exec .heapPeek s = .next (s.respond ⟨.none, 0⟩)) ∧
    ∀ m rest, s.heap = m :: rest → ∃ rd, NodeWord rd m (s.weightOf m) ∧ exec .heapPeek s = .next (s.respond ⟨.ok, rd⟩)

/-- R126: `HEAP.EXTRACT`; the heap array afterwards is that of `HeapExtract` (R124). -/
def Obligations.HeapExtractTakesSlotZero : Prop :=
  decode (mkWord 0x12 0 0) = .ok .heapExtract ∧ ∀ s : State, s.err = 0 →
    (s.heap = [] → exec .heapExtract s = .next (s.respond ⟨.none, 0⟩)) ∧
    ∀ m rest, s.heap = m :: rest → ∃ rd, NodeWord rd m (s.weightOf m) ∧
      exec .heapExtract s =
        .next (((s.heapExtract.setOwn m.toNat .detached).setRoot 0x3FF#10).respond ⟨.ok, rd⟩)

/-- R127: `HEAP.INSERT i`, for every value of the operand field; the heap array afterwards is that of `HeapInsert` (R123). -/
def Obligations.HeapInsertByCases : Prop :=
  ∀ (s : State) (i : BitVec 10), decode (mkWord 0x13 i 0) = .ok (.heapInsert i.toNat) ∧ (s.err = 0 →
    (512 < i.toNat → exec (.heapInsert i.toNat) s = .next (raiseFault (mkWord 0x13 i 0) .param s)) ∧
    (i.toNat ≤ 512 → s.ncount ≤ i.toNat ∨ (s.node i.toNat).own ≠ .detached →
      exec (.heapInsert i.toNat) s = .next (raiseFault (mkWord 0x13 i 0) .ownership s)) ∧
    (i.toNat ≤ 512 → i.toNat < s.ncount → (s.node i.toNat).own = .detached → s.hsize = 257 →
      exec (.heapInsert i.toNat) s = .next (raiseFault (mkWord 0x13 i 0) .capacity s)) ∧
    (i.toNat ≤ 512 → i.toNat < s.ncount → (s.node i.toNat).own = .detached → s.hsize ≠ 257 →
      exec (.heapInsert i.toNat) s =
        .next ((((s.heapInsert i).setOwn i.toNat .heap).setRoot 0x3FF#10).respond ⟨.ok, 0⟩)))

/-- R128: `HEAP.SLOT k`, for every value of the operand field; slot 0 is what `HEAP.PEEK` answers. -/
def Obligations.HeapSlotByCases : Prop :=
  ∀ (s : State) (k : BitVec 10), decode (mkWord 0x17 k 0) = .ok (.heapSlot k.toNat) ∧ (s.err = 0 →
    (256 < k.toNat → exec (.heapSlot k.toNat) s = .next (raiseFault (mkWord 0x17 k 0) .param s)) ∧
    (k.toNat ≤ 256 → s.hsize ≤ k.toNat → exec (.heapSlot k.toNat) s = .next (s.respond ⟨.none, 0⟩)) ∧
    (∀ m, k.toNat ≤ 256 → s.heap[k.toNat]? = some m →
      ∃ rd, NodeWord rd m (s.weightOf m) ∧ exec (.heapSlot k.toNat) s = .next (s.respond ⟨.ok, rd⟩)) ∧
    (s.heap ≠ [] → exec (.heapSlot 0) s = exec .heapPeek s))

/-- R129: `NODE.JOIN l, r`, for every value of the operand fields. -/
def Obligations.NodeJoinByCases : Prop :=
  ∀ (s : State) (l r : BitVec 10), decode (mkWord 0x14 l (r.setWidth 32)) = .ok (.nodeJoin l.toNat r.toNat) ∧ (s.err = 0 →
    (512 < l.toNat ∨ 512 < r.toNat →
      exec (.nodeJoin l.toNat r.toNat) s = .next (raiseFault (mkWord 0x14 l (r.setWidth 32)) .param s)) ∧
    (l.toNat ≤ 512 → r.toNat ≤ 512 →
      l = r ∨ s.ncount ≤ l.toNat ∨ s.ncount ≤ r.toNat ∨ (s.node l.toNat).own ≠ .detached ∨ (s.node r.toNat).own ≠ .detached →
      exec (.nodeJoin l.toNat r.toNat) s = .next (raiseFault (mkWord 0x14 l (r.setWidth 32)) .ownership s)) ∧
    (l.toNat ≤ 512 → r.toNat ≤ 512 → l ≠ r → l.toNat < s.ncount → r.toNat < s.ncount →
      (s.node l.toNat).own = .detached → (s.node r.toNat).own = .detached →
      (s.ncount = 513 →
        exec (.nodeJoin l.toNat r.toNat) s = .next (raiseFault (mkWord 0x14 l (r.setWidth 32)) .capacity s)) ∧
      (s.ncount ≠ 513 → 2 ^ 32 ≤ (s.node l.toNat).weight.toNat + (s.node r.toNat).weight.toNat →
        exec (.nodeJoin l.toNat r.toNat) s = .next (raiseFault (mkWord 0x14 l (r.setWidth 32)) .weightOverflow s)) ∧
      ∀ wt : Weight, s.ncount ≠ 513 → (s.node l.toNat).weight.toNat + (s.node r.toNat).weight.toNat = wt.toNat →
        ∃ rd, NodeWord rd (BitVec.ofNat 10 s.ncount) wt ∧
          exec (.nodeJoin l.toNat r.toNat) s =
            .next (((((s.setNodes (s.nodes ++ [⟨.internal, 0x1FF, wt, l, r, .detached⟩])).setOwn l.toNat .child).setOwn
              r.toNat .child).setRoot 0x3FF#10).respond ⟨.ok, rd⟩)))

/-- R130, R131: `NODE.INFO i` and `NODE.KIDS i`, for every value of the operand field. -/
def Obligations.NodeReadsByCases : Prop :=
  ∀ (s : State) (i : BitVec 10), decode (mkWord 0x15 i 0) = .ok (.nodeInfo i.toNat) ∧
    decode (mkWord 0x16 i 0) = .ok (.nodeKids i.toNat) ∧ (s.err = 0 →
    (512 < i.toNat → exec (.nodeInfo i.toNat) s = .next (raiseFault (mkWord 0x15 i 0) .param s) ∧
      exec (.nodeKids i.toNat) s = .next (raiseFault (mkWord 0x16 i 0) .param s)) ∧
    (i.toNat ≤ 512 → s.ncount ≤ i.toNat → exec (.nodeInfo i.toNat) s = .next (s.respond ⟨.none, 0⟩) ∧
      exec (.nodeKids i.toNat) s = .next (s.respond ⟨.none, 0⟩)) ∧
    ∀ n : Node, i.toNat ≤ 512 → s.nodes[i.toNat]? = some n →
      (∃ rd : Word, exec (.nodeInfo i.toNat) s = .next (s.respond ⟨.ok, rd⟩) ∧ rd.extractLsb' 0 32 = n.weight ∧
        rd.extractLsb' 32 9 = n.sym ∧ rd.extractLsb' 44 1 = n.kind.code ∧ rd.extractLsb' 48 2 = n.own.code ∧
        rd.extractLsb' 41 3 = 0 ∧ rd.extractLsb' 45 3 = 0 ∧ rd.extractLsb' 50 14 = 0) ∧
      (∃ rd : Word, exec (.nodeKids i.toNat) s = .next (s.respond ⟨.ok, rd⟩) ∧ rd.extractLsb' 0 10 = n.left ∧
        rd.extractLsb' 16 10 = n.right ∧ rd.extractLsb' 10 6 = 0 ∧ rd.extractLsb' 26 38 = 0))

/-- R120: the source's contract. `HEAP.INSERT` adds one entry and keeps the heap order; `HEAP.EXTRACT` removes and returns an
entry of the smallest weight and keeps the order; `HEAP.PEEK` returns it without removing it. -/
def Obligations.HeapKeepsItsContract : Prop :=
  ∀ s : State, HeapOk s → s.ncount ≤ 513 → s.err = 0 →
    (∀ (i : Instr) (t : State) (rd : Word), i = .heapExtract ∨ i = .heapPeek → exec i s = .next t →
      t.resps = s.resps ++ [⟨.ok, rd⟩] →
      ∃ m ∈ s.heap, NodeWord rd m (s.weightOf m) ∧ (∀ j ∈ s.heap, s.weightOf m ≤ s.weightOf j) ∧
        HeapOrdered t.weightOf t.heap ∧
        (i = .heapExtract → t.heap.Perm (s.heap.erase m)) ∧ (i = .heapPeek → t.heap = s.heap)) ∧
    ∀ (n : BitVec 10) (t : State), exec (.heapInsert n.toNat) s = .next t → t.resps = s.resps ++ [⟨.ok, 0⟩] →
      t.heap.Perm (n :: s.heap) ∧ HeapOrdered t.weightOf t.heap

/-- R132: what the sift loops decide among equal weights: a node not lighter than its parent stays in the last slot, and
from equal weights an extraction moves the last slot's node to slot 0 and no other. -/
def Obligations.TiesKeepStructuralOrder : Prop :=
  (∀ (wt : NodeIdx → Weight) (h : List NodeIdx) (i : NodeIdx),
    (∀ p, h[parentSlot h.length]? = some p → wt p ≤ wt i) → heapPush wt h i = h ++ [i]) ∧
  ∀ (wt : NodeIdx → Weight) (a b : NodeIdx) (mid : List NodeIdx),
    (∀ j ∈ b :: mid, ∀ k ∈ b :: mid, wt j = wt k) → heapPop wt (a :: mid ++ [b]) = b :: mid

/-! ### Tree builder -/

/-- R151: `LEAF s, c`, for every value of the operand fields. -/
def Obligations.LeafByCases : Prop :=
  ∀ (s : State) (x : BitVec 10) (c : BitVec 32), decode (mkWord 0x10 x c) = .ok (.leaf x.toNat c) ∧ (s.err = 0 →
    (256 < x.toNat ∨ c = 0 ∨ s.leafSeen x.toNat = true →
      exec (.leaf x.toNat c) s = .next (raiseFault (mkWord 0x10 x c) .param s)) ∧
    (x.toNat ≤ 256 → c ≠ 0 → s.leafSeen x.toNat = false →
      (s.ncount = 513 ∨ s.hsize = 257 →
        exec (.leaf x.toNat c) s = .next (raiseFault (mkWord 0x10 x c) .capacity s)) ∧
      (s.ncount ≠ 513 → s.hsize ≠ 257 → ∃ rd, NodeWord rd (BitVec.ofNat 10 s.ncount) c ∧
        exec (.leaf x.toNat c) s =
          .next (((((s.setNodes (s.nodes ++ [⟨.leaf, x.setWidth 9, c, 0x3FF#10, 0x3FF#10, .heap⟩])).setLeafSeen
            x.toNat).heapInsert (BitVec.ofNat 10 s.ncount)).setRoot 0x3FF#10).respond ⟨.ok, rd⟩))))

/-- R152, R153: `MERGE`: the two minima extracted in turn are the left and the right child of the node it makes. -/
def Obligations.MergeByCases : Prop :=
  decode (mkWord 0x20 0 0) = .ok .merge ∧ ∀ s : State, s.err = 0 →
    (s.hsize < 2 → exec .merge s = .next (s.respond ⟨.none, 0⟩)) ∧
    ∀ a b : NodeIdx, 2 ≤ s.hsize → a = s.heapMin → b = s.heapExtract.heapMin →
      (HeapOrdered s.weightOf s.heap → s.weightOf a ≤ s.weightOf b) ∧
      (s.ncount = 513 → exec .merge s = .next (raiseFault (mkWord 0x20 0 0) .capacity s)) ∧
      (s.ncount ≠ 513 → 2 ^ 32 ≤ (s.weightOf a).toNat + (s.weightOf b).toNat →
        exec .merge s = .next (raiseFault (mkWord 0x20 0 0) .weightOverflow s)) ∧
      ∀ (wt : Weight) (two : State), s.ncount < 513 → (s.weightOf a).toNat + (s.weightOf b).toNat = wt.toNat →
        two = s.heapExtract.heapExtract → ∃ rd, NodeWord rd (BitVec.ofNat 10 s.ncount) wt ∧
          exec .merge s =
            .next ((((((two.setNodes (s.nodes ++ [⟨.internal, 0x1FF, wt, a, b, .heap⟩])).setOwn a.toNat .child).setOwn
              b.toNat .child).heapInsert (BitVec.ofNat 10 s.ncount)).setRoot 0x3FF#10).respond ⟨.ok, rd⟩)

/-- R154, R158: `BUILD` of an empty heap answers `NONE`; of one entry makes that node the root; it overflows exactly when
there are two entries or more and their weights sum to `2^32` or more, and answers `OK` otherwise. -/
def Obligations.BuildOutcomes : Prop :=
  decode (mkWord 0x21 0 0) = .ok .build ∧ ∀ s : State, Inv s → s.err = 0 →
    (s.heap = [] → exec .build s = .next (s.respond ⟨.none, 0⟩)) ∧
    (∀ r, s.heap = [r] → ∃ rd, NodeWord rd r (s.weightOf r) ∧
      exec .build s = .next ((((s.setHeap []).setOwn r.toNat .detached).setRoot r).respond ⟨.ok, rd⟩)) ∧
    (2 ≤ s.hsize → 2 ^ 32 ≤ totalWeight s s.heap →
      exec .build s = .next (raiseFault (mkWord 0x21 0 0) .weightOverflow s)) ∧
    (2 ≤ s.hsize → totalWeight s s.heap < 2 ^ 32 →
      ∃ (t : State) (rd : Word), exec .build s = .next (t.respond ⟨.ok, rd⟩) ∧ NodeWord rd t.root (t.weightOf t.root) ∧ t.hsize = 0)

/-- R157: the root of a successful `BUILD` weighs what the heap weighed; the leaves under it are the leaves of the trees that
were in the heap; one internal node was made less than there were heap entries; nothing outside the tree builder changed. -/
def Obligations.BuildJoinsTheHeap : Prop :=
  ∀ (s t : State) (rd : Word), Inv s → exec .build s = .next t → t.resps = s.resps ++ [⟨.ok, rd⟩] →
    t.root.toNat < t.ncount ∧ (t.node t.root.toNat).own = .detached ∧
    (t.weightOf t.root).toNat = totalWeight s s.heap ∧ t.ncount + 1 = s.ncount + s.hsize ∧
    (∀ x, (∃ p, LeafAt t t.root p x) ↔ ∃ i ∈ s.heap, ∃ p, LeafAt s i p x) ∧
    (∀ x p q, LeafAt t t.root p x → LeafAt t t.root q x → p = q) ∧
    t = { s with nodes := t.nodes, heap := [], root := t.root, resps := t.resps }

/-- R155: `TB.CLEAR`. -/
def Obligations.TbClearEmptiesTreeBuilder : Prop :=
  decode (mkWord 0x23 0 0) = .ok .tbClear ∧ ∀ s : State, s.err = 0 →
    ∃ t, exec .tbClear s = .next t ∧ t.ncount = 0 ∧ t.hsize = 0 ∧ t.root = 0x3FF#10 ∧ (∀ x < 257, t.leafSeen x = false) ∧
      t = { s with nodes := t.nodes, heap := t.heap, root := t.root, leafseen := t.leafseen, resps := s.resps ++ [⟨.ok, 0⟩] }

/-- R156: `MERGE` equals `HEAP.EXTRACT`, `HEAP.EXTRACT`, `NODE.JOIN a, b`, `HEAP.INSERT i` on every piece of state. -/
def Obligations.MergeEqualsPrimitives : Prop :=
  ∀ (s t : State) (rd : Word), Inv s → exec .merge s = .next t → t.resps = s.resps ++ [⟨.ok, rd⟩] →
    SameBlock t (issueAll s [.heapExtract, .heapExtract, .nodeJoin s.heapMin.toNat s.heapExtract.heapMin.toNat,
      .heapInsert s.ncount])

/-- R259: `BUILD` equals `n - 1` `MERGE` commands and a `BUILD` of the one entry left. -/
def Obligations.BuildEqualsMerges : Prop :=
  ∀ (s t : State) (rd : Word), Inv s → exec .build s = .next t → t.resps = s.resps ++ [⟨.ok, rd⟩] →
    SameBlock t (issueAll s (List.replicate (s.hsize - 1) .merge ++ [.build]))

/-- R24, R26: a node, once allocated, changes in no field but `own`, until `TB.CLEAR` or `RESET`; CHILD never changes again;
only `HEAP.INSERT` turns DETACHED into HEAP, only `NODE.JOIN` turns DETACHED into CHILD, and HEAP is left only in
`HEAP.EXTRACT`, `MERGE` and `BUILD`. -/
def Obligations.NodesChangeOnlyOwner : Prop :=
  ∀ (i : Instr) (s t : State), Inv s → exec i s = .next t → i ≠ .tbClear → i ≠ .reset → ∀ n < s.ncount,
    n < t.ncount ∧ t.node n = { (s.node n) with own := (t.node n).own } ∧
    ((s.node n).own = .child → (t.node n).own = .child) ∧
    ((s.node n).own = .detached → (t.node n).own = .detached ∨
      ((t.node n).own = .heap ∧ i = .heapInsert n) ∨
      ((t.node n).own = .child ∧ ∃ l r, i = .nodeJoin l r ∧ (n = l ∨ n = r))) ∧
    ((s.node n).own = .heap → (t.node n).own = .heap ∨
      ((t.node n).own = .detached ∧ (i = .heapExtract ∨ i = .build)) ∨
      ((t.node n).own = .child ∧ (i = .merge ∨ i = .build)))

/-- R30: `root` is set only by `BUILD`; every other command that changes the heap or the node store sets it to `NIL`. -/
def Obligations.RootSetOnlyByBuild : Prop :=
  ∀ (i : Instr) (s t : State) (rd : Word), exec i s = .next t → t.resps = s.resps ++ [⟨.ok, rd⟩] → i ≠ .build →
    (i.writesNodes = true ∨ i = .reset → t.root = 0x3FF#10) ∧ (t.root ≠ s.root → t.root = 0x3FF#10)

/-! ### Codeword table -/

/-- R171, R170, R172: `ASSIGN`: with no tree it faults; otherwise the table holds exactly the leaves under `root`, each with
its path as its codeword (0 left, 1 right, first step first), or `"0"` for a lone leaf; nothing else changes. -/
def Obligations.AssignWritesLeafPaths : Prop :=
  decode (mkWord 0x22 0 0) = .ok .assign ∧ ∀ s : State, Inv s → s.err = 0 →
    (s.root = 0x3FF#10 → exec .assign s = .next (raiseFault (mkWord 0x22 0 0) .sequence s)) ∧
    (s.root ≠ 0x3FF#10 → ∃ (t : State) (rd : Word), exec .assign s = .next (t.respond ⟨.ok, rd⟩) ∧ t = { s with ct := t.ct } ∧
      (rd.extractLsb' 0 9).toNat = (List.range 257).countP t.ctValid ∧ rd.extractLsb' 9 55 = 0 ∧
      (∀ x, t.ctValid x = true ↔ ∃ p, LeafAt s s.root p x) ∧
      (∀ x p, LeafAt s s.root p x → p ≠ [] → t.codeOf x = p) ∧
      (∀ x, LeafAt s s.root [] x → t.codeOf x = [false]))

/-- R173: what a table written by `ASSIGN` is. (a), (e) the symbols with an entry are the leaves under `root`, each once;
(b) codewords have length 1 to 256; (c) they are prefix-free; (d) with two leaves or more, every infinite bit sequence
begins with exactly one codeword; (f) a lone leaf's codeword is `"0"`. -/
def Obligations.AssignedCodeIsPrefixFree : Prop :=
  ∀ (s t : State) (rd : Word), Inv s → exec .assign s = .next t → t.resps = s.resps ++ [⟨.ok, rd⟩] →
    (∀ x, t.ctValid x = true ↔ ∃ p, LeafAt s s.root p x) ∧
    (∀ x p q, LeafAt s s.root p x → LeafAt s s.root q x → p = q) ∧
    (∀ x, t.ctValid x = true → 1 ≤ (t.codeOf x).length ∧ (t.codeOf x).length ≤ 256) ∧
    PrefixFree t ∧
    ((s.node s.root.toNat).kind = .internal → ∀ f : Nat → Bool,
      ∃! x, t.ctValid x = true ∧ t.codeOf x = (List.range (t.codeOf x).length).map f) ∧
    ((s.node s.root.toNat).kind = .leaf → ∀ x, t.ctValid x = true → t.codeOf x = [false])

/-- R174: `TBL.CLEAR`. -/
def Obligations.TblClearEmptiesTable : Prop :=
  decode (mkWord 0x30 0 0) = .ok .tblClear ∧ ∀ s : State, s.err = 0 →
    ∃ t, exec .tblClear s = .next t ∧ (∀ x < 257, t.entry x = ⟨false, 0, 0⟩) ∧
      t = { s with ct := t.ct, resps := s.resps ++ [⟨.ok, 0⟩] }

/-- R175: `TBL.DEFINE s`, for every value of the operand field. -/
def Obligations.TblDefineByCases : Prop :=
  ∀ (s : State) (x : BitVec 10), decode (mkWord 0x31 x 0) = .ok (.tblDefine x.toNat) ∧ (s.err = 0 →
    (256 < x.toNat → exec (.tblDefine x.toNat) s = .next (raiseFault (mkWord 0x31 x 0) .param s)) ∧
    (s.ctValid x.toNat = true → exec (.tblDefine x.toNat) s = .next (raiseFault (mkWord 0x31 x 0) .formatError s)) ∧
    (x.toNat ≤ 256 → s.ctValid x.toNat = false →
      ∃ t : State, exec (.tblDefine x.toNat) s = .next (t.respond ⟨.ok, 0⟩) ∧ t = { s with ct := t.ct } ∧
        t.entry x.toNat = ⟨true, 0, 0⟩ ∧ ∀ y, y ≠ x.toNat → t.entry y = s.entry y))

/-- R176: `TBL.APPEND s, b`, for every value of the operand fields. -/
def Obligations.TblAppendByCases : Prop :=
  ∀ (s : State) (x : BitVec 10) (b : Bool),
    decode (mkWord 0x32 x ((BitVec.ofBool b).setWidth 32)) = .ok (.tblAppend x.toNat b) ∧ (Memory.wf s = true → s.err = 0 →
    (256 < x.toNat → exec (.tblAppend x.toNat b) s =
      .next (raiseFault (mkWord 0x32 x ((BitVec.ofBool b).setWidth 32)) .param s)) ∧
    (x.toNat ≤ 256 → s.ctValid x.toNat = false → exec (.tblAppend x.toNat b) s =
      .next (raiseFault (mkWord 0x32 x ((BitVec.ofBool b).setWidth 32)) .sequence s)) ∧
    (s.ctValid x.toNat = true → (s.codeOf x.toNat).length = 256 → exec (.tblAppend x.toNat b) s =
      .next (raiseFault (mkWord 0x32 x ((BitVec.ofBool b).setWidth 32)) .capacity s)) ∧
    (s.ctValid x.toNat = true → (s.codeOf x.toNat).length < 256 →
      ∃ t : State, exec (.tblAppend x.toNat b) s = .next (t.respond ⟨.ok, 0⟩) ∧ t = { s with ct := t.ct } ∧ Memory.wf t = true ∧
        t.ctValid x.toNat = true ∧ t.codeOf x.toNat = s.codeOf x.toNat ++ [b] ∧ ∀ y, y ≠ x.toNat → t.entry y = s.entry y))

/-- R177, R178: `TBL.LEN s` and `TBL.BIT s, j`, for every value of the operand fields. -/
def Obligations.TableReadsByCases : Prop :=
  ∀ (s : State) (x : BitVec 10) (j : BitVec 8), decode (mkWord 0x33 x 0) = .ok (.tblLen x.toNat) ∧
    decode (mkWord 0x34 x (j.setWidth 32)) = .ok (.tblBit x.toNat j.toNat) ∧ (s.err = 0 →
    (256 < x.toNat → exec (.tblLen x.toNat) s = .next (raiseFault (mkWord 0x33 x 0) .param s) ∧
      exec (.tblBit x.toNat j.toNat) s = .next (raiseFault (mkWord 0x34 x (j.setWidth 32)) .param s)) ∧
    (x.toNat ≤ 256 → s.ctValid x.toNat = false → exec (.tblLen x.toNat) s = .next (s.respond ⟨.none, 0⟩)) ∧
    (x.toNat ≤ 256 → s.ctValid x.toNat = false ∨ (s.codeOf x.toNat).length ≤ j.toNat →
      exec (.tblBit x.toNat j.toNat) s = .next (s.respond ⟨.none, 0⟩)) ∧
    (s.ctValid x.toNat = true → ∃ rd : Word, exec (.tblLen x.toNat) s = .next (s.respond ⟨.ok, rd⟩) ∧
      rd.extractLsb' 0 9 = (s.entry x.toNat).len ∧ rd.getLsbD 16 = true ∧ rd.extractLsb' 9 7 = 0 ∧
      rd.extractLsb' 17 47 = 0) ∧
    ∀ b, s.ctValid x.toNat = true → (s.codeOf x.toNat)[j.toNat]? = some b →
      exec (.tblBit x.toNat j.toNat) s = .next (s.respond ⟨.ok, if b then 1 else 0⟩))

/-- R99: `TBL.LOAD s, "b0b1...bn"` gives an undefined symbol that codeword and changes no other. -/
def Obligations.TableLoadGivesCodeword : Prop :=
  ∀ (s : State) (x : Nat) (bits : List Bool), Memory.wf s = true → s.err = 0 → x ≤ 256 → s.ctValid x = false →
    bits.length ≤ 256 →
      (issueAll s (tblLoad x bits)).err = 0 ∧ (issueAll s (tblLoad x bits)).ctValid x = true ∧
      (issueAll s (tblLoad x bits)).codeOf x = bits ∧
      ∀ y, y ≠ x → (issueAll s (tblLoad x bits)).entry y = s.entry y

/-! ### Packer -/

/-- R212: `PACK.SYM s`, for every value of the operand field: the codeword's bits follow those already in the partial byte,
whole bytes leave, and the rest stays. -/
def Obligations.PackSymAppendsCodeword : Prop :=
  ∀ (s : State) (x : BitVec 10), decode (mkWord 0x40 x 0) = .ok (.packSym x.toNat) ∧ (PackOk s → s.err = 0 →
    (255 < x.toNat → exec (.packSym x.toNat) s = .next (raiseFault (mkWord 0x40 x 0) .param s)) ∧
    (x.toNat ≤ 255 → s.ctValid x.toNat = false →
      exec (.packSym x.toNat) s = .next (raiseFault (mkWord 0x40 x 0) .noCode s)) ∧
    (x.toNat ≤ 255 → s.ctValid x.toNat = true →
      ∃ (t : State) (out : List Byte), exec (.packSym x.toNat) s = .next (t.respond ⟨.ok, (s.entry x.toNat).len.setWidth 64⟩) ∧
        t = { s with pkAcc := t.pkAcc, pkCnt := t.pkCnt, pkOut := s.pkOut ++ out } ∧ PackOk t ∧
        out.length = (s.pkCnt.toNat + (s.codeOf x.toNat).length) / 8 ∧
        t.pkCnt.toNat = (s.pkCnt.toNat + (s.codeOf x.toNat).length) % 8 ∧
        ∀ k < s.pkCnt.toNat + (s.codeOf x.toNat).length, streamBit (out ++ [t.pkAcc]) k =
          if k < s.pkCnt.toNat then s.pkAcc.getLsbD k else (s.codeOf x.toNat).getD (k - s.pkCnt.toNat) false))

/-- R213: `PACK.END`: the sentinel's codeword follows the partial byte's bits, and the last byte is padded with 0. -/
def Obligations.PackEndFlushesStream : Prop :=
  decode (mkWord 0x41 0 0) = .ok .packEnd ∧ ∀ s : State, PackOk s → s.err = 0 →
    (s.ctValid 256 = false → exec .packEnd s = .next (raiseFault (mkWord 0x41 0 0) .noCode s)) ∧
    (s.ctValid 256 = true →
      ∃ (t : State) (out : List Byte), exec .packEnd s = .next (t.respond ⟨.ok, (s.entry 256).len.setWidth 64⟩) ∧
        t = { s with pkAcc := 0, pkCnt := 0, pkOut := s.pkOut ++ out } ∧
        IsPacked ((List.range s.pkCnt.toNat).map s.pkAcc.getLsbD ++ s.codeOf 256) out)

/-- R214: the bytes of a packed stream are its bits in batch: `(T + 7) div 8` bytes, bit `n` of the stream at bit `n`, 0
above. -/
def Obligations.StreamingEqualsBatch : Prop :=
  ∀ (s : State) (xs : List Byte), PackOk s → s.err = 0 → s.pkCnt = 0 → s.ctValid 256 = true →
    (∀ x ∈ xs, s.ctValid x.toNat = true) →
      ∃ P, (issueAll s (packBytes xs ++ [.packEnd])).pkOut = s.pkOut ++ P ∧ IsPacked (streamBits s xs) P ∧
        (issueAll s (packBytes xs ++ [.packEnd])).err = 0 ∧ (issueAll s (packBytes xs ++ [.packEnd])).pkCnt = 0

/-! ### Unpacker -/

/-- R228, R230: `UNPK.START` and `UNPK.END`. -/
def Obligations.UnpkStartAndEnd : Prop :=
  decode (mkWord 0x50 0 0) = .ok .unpkStart ∧ decode (mkWord 0x52 0 0) = .ok .unpkEnd ∧ ∀ s : State, s.err = 0 →
    exec .unpkStart s = .next
      { s with upAcc := 0, upLen := 0, upDead := false, upDone := false, resps := s.resps ++ [⟨.ok, 0⟩] } ∧
    (s.upDone = false → exec .unpkEnd s = .next (raiseFault (mkWord 0x52 0 0) .truncatedStream s)) ∧
    (s.upDone = true → exec .unpkEnd s = .next { s with resps := s.resps ++ [⟨.ok, 0⟩] })

/-- R226, R227: `Match` and `UnpackBit(b)`, case by case; in a canonical table no codeword is longer than the 256 bits after
which the unpacker stops accumulating. -/
def Obligations.UnpackBitByCases : Prop :=
  ∀ (s : State) (b : Bool), UnpackOk s →
    (Memory.wf s = true → ∀ x, (s.codeOf x).length ≤ 256) ∧
    (∀ (p : List Bool) (x : Nat), x ∈ s.matchSyms p ↔ s.ctValid x = true ∧ s.codeOf x = p) ∧
    (s.upDone = true ∨ s.upDead = true → unpackBit s b = .ok s) ∧
    (s.upDone = false → s.upDead = false →
      ((∀ x, s.ctValid x = true → s.codeOf x ≠ s.upBits ++ [b]) →
        ∃ t, unpackBit s b = .ok t ∧ t.upBits = s.upBits ++ [b] ∧ UnpackOk t ∧
          t = { s with upAcc := t.upAcc, upLen := s.upLen + 1, upDead := decide (s.upLen.toNat = 255) }) ∧
      (∀ x y, s.ctValid x = true → s.ctValid y = true → x ≠ y → s.codeOf x = s.upBits ++ [b] →
        s.codeOf y = s.upBits ++ [b] → unpackBit s b = .error .formatError) ∧
      ∀ x, s.ctValid x = true → s.codeOf x = s.upBits ++ [b] →
        (∀ y, s.ctValid y = true → s.codeOf y = s.upBits ++ [b] → y = x) →
        unpackBit s b = .ok (if x = 256 then { s with upAcc := 0, upLen := 0, upDone := true }
          else { s with upAcc := 0, upLen := 0, upOut := s.upOut ++ [BitVec.ofNat 8 x] }))

/-- R229: `UNPK.BYTE v`: the eight bits of `v`, bit 0 first, through `UnpackBit`, all or nothing; it completes whenever no two
symbols have the same codeword. -/
def Obligations.UnpkByteTakesEightBits : Prop :=
  ∀ (s : State) (v : Byte), decode (mkWord 0x51 0 (v.setWidth 32)) = .ok (.unpkByte v) ∧ (s.err = 0 →
    (∀ t, ([0, 1, 2, 3, 4, 5, 6, 7].map v.getLsbD).foldlM unpackBit s = .ok t →
      exec (.unpkByte v) s = .next (t.respond ⟨.ok, if t.upDone then 1 else 0⟩)) ∧
    (∀ c, ([0, 1, 2, 3, 4, 5, 6, 7].map v.getLsbD).foldlM unpackBit s = .error c →
      c = .formatError ∧ exec (.unpkByte v) s = .next (raiseFault (mkWord 0x51 0 (v.setWidth 32)) .formatError s)) ∧
    (DistinctCodes s → ∃ (t : State) (rd : Word), exec (.unpkByte v) s = .next (t.respond ⟨.ok, rd⟩)) ∧
    (s.upDone = true → exec (.unpkByte v) s = .next (s.respond ⟨.ok, 1⟩)) ∧
    (s.upDone = false → s.upDead = true → exec (.unpkByte v) s = .next (s.respond ⟨.ok, 0⟩)))

/-- R231: under a prefix-free table with non-empty codewords and the sentinel, unpacking the bytes that packing emitted gives
the packed bytes back, and nothing faults. -/
def Obligations.DecodingInvertsPacking : Prop :=
  ∀ (s u : State) (xs : List Byte) (P : List Byte), Memory.wf s = true → Decodable s → PackOk s → s.err = 0 → s.pkCnt = 0 →
    (∀ x ∈ xs, s.ctValid x.toNat = true) → (issueAll s (packBytes xs ++ [.packEnd])).pkOut = s.pkOut ++ P →
    u.ct = s.ct → u.err = 0 →
      (issueAll u (.unpkStart :: unpkBytes P ++ [.unpkEnd])).err = 0 ∧
      (issueAll u (.unpkStart :: unpkBytes P ++ [.unpkEnd])).upOut = u.upOut ++ xs ∧
      (issueAll u (.unpkStart :: unpkBytes P ++ [.unpkEnd])).upDone = true

/-- R232: in the setting of R231 the sentinel is decoded during the last byte and not before, and without the last byte the
stream is truncated. -/
def Obligations.LastByteIsNeeded : Prop :=
  ∀ (s u : State) (xs : List Byte) (P : List Byte), Memory.wf s = true → Decodable s → PackOk s → s.err = 0 → s.pkCnt = 0 →
    (∀ x ∈ xs, s.ctValid x.toNat = true) → (issueAll s (packBytes xs ++ [.packEnd])).pkOut = s.pkOut ++ P →
    u.ct = s.ct → u.err = 0 →
      (issueAll u (.unpkStart :: unpkBytes P)).upDone = true ∧
      ∀ k < P.length, (issueAll u (.unpkStart :: unpkBytes (P.take k))).upDone = false ∧
        (issueAll u (.unpkStart :: unpkBytes (P.take k) ++ [.unpkEnd])).err = 3

/-! ### Host procedures -/

/-- R193, R195: a line has at most one reading, and `Parse` loads that one; a line with none, and a last line without its
line break, is a format error that leaves the block as the lines before it left it. -/
def Obligations.EveryLineHasOneReading : Prop :=
  ∀ line : List Byte, lineBreak ∉ line →
    (lineReadings line).length ≤ 1 ∧ parseLine line = (lineReadings line).head? ∧
    ∀ (s : State) (rest : List Byte),
      (∀ x bits, lineReadings line = [(x, bits)] →
        parseLines [] (line ++ lineBreak :: rest) s = callAll s (tblLoad x bits) >>= parseLines [] rest) ∧
      (lineReadings line = [] → parseLines [] (line ++ lineBreak :: rest) s = .error ⟨2, s⟩) ∧
      (line ≠ [] → parseLines [] line s = .error ⟨2, s⟩)

/-- R194: `Serialize()` writes one line per symbol with an entry, ascending, and changes nothing in the block. -/
def Obligations.SerializeWritesTableText : Prop :=
  ∀ s : State, Memory.wf s = true → s.err = 0 → ∃ t, serialize s = .ok (tableText s, t) ∧ SameBlock s t

/-- R197: parsing what `Serialize` wrote succeeds, in any block that is not faulted, and gives the identical table. -/
def Obligations.ParseInvertsSerialize : Prop :=
  ∀ s : State, Memory.wf s = true → s.err = 0 → ∃ T t, serialize s = .ok (T, t) ∧
    ∀ u : State, u.err = 0 → ∃ v, parse T u = .ok v ∧ v.ct = s.ct ∧ v.err = 0

/-- R254: the empty input compresses to the byte 00 and the table file `EOF0`, which decompress to nothing. -/
def Obligations.EmptyInputRoundTrips : Prop :=
  ∀ s u : State, u.err = 0 →
    (∃ t, compress [] s = .ok ([0x00], [0x45, 0x4F, 0x46, 0x30, 0x0A], t) ∧ t.err = 0) ∧
    ∃ v, decompress [0x00] [0x45, 0x4F, 0x46, 0x30, 0x0A] u = .ok ([], v) ∧ v.err = 0

/-- R255, R258: every input within the bound of R257 compresses without a fault, and decompressing gives it back without one. -/
def Obligations.CompressThenDecompressIsIdentity : Prop :=
  ∀ (S : List Byte) (s : State), S.length ≤ 2 ^ 32 - 2 → ∃ P T t, compress S s = .ok (P, T, t) ∧ t.err = 0 ∧
    ∀ u : State, u.err = 0 → ∃ v, decompress P T u = .ok (S, v) ∧ v.err = 0

/-! ### Invariants -/

/-- The reset state meets every invariant (R28, R32, R34 to R37, R42, R43; R41). -/
def Obligations.ResetStateMeetsInvariant : Prop := Inv State.reset

/-- Every step keeps every invariant: the heap order and ownership (R28), the tree (R24, R26, R29, R43), `root` (R30), the
canonical table (R32), the packer's and unpacker's registers (R34 to R36) and the fault registers (R37). -/
def Obligations.StepKeepsInvariant : Prop := ∀ s t : State, Inv s → step s = .next t → Inv t

/-- R42: at most 257 leaves, fewer internal nodes than leaves, and so at most 513 nodes and 257 heap entries. -/
def Obligations.CountsStayWithinCapacity : Prop :=
  ∀ (s : State) (leaves internals : Nat), Inv s → leaves = s.nodes.countP (·.kind == .leaf) →
    internals = s.nodes.countP (·.kind == .internal) →
      leaves ≤ 257 ∧ (1 ≤ leaves → internals + 1 ≤ leaves) ∧ s.ncount = leaves + internals ∧ s.ncount ≤ 513 ∧
      s.hsize + internals ≤ leaves

/-- R42, R277: in a state that meets the invariant, no command but `TBL.APPEND` raises `CAPACITY`. -/
def Obligations.CapacityOnlyFromAppend : Prop :=
  ∀ (i : Instr) (s t : State), Inv s → exec i s = .next t → t.resps = s.resps ++ [⟨.fault, 9⟩] →
    ∃ x b, i = .tblAppend x b

end Statements
end

