-- ==== Sys2Proof/Laws/State.lean ====
section
/-! SUPPORT. One lemma per field per update of State, all by rfl, so that no proof unfolds a record update. -/

namespace Sys2Proof.Machine

variable (s : State)

@[simp] theorem State.setNodes_nodes (v : List Node) : (s.setNodes v).nodes = v := rfl
@[simp] theorem State.setNodes_heap (v : List Node) : (s.setNodes v).heap = s.heap := rfl
@[simp] theorem State.setNodes_leafseen (v : List Node) : (s.setNodes v).leafseen = s.leafseen := rfl
@[simp] theorem State.setNodes_root (v : List Node) : (s.setNodes v).root = s.root := rfl
@[simp] theorem State.setNodes_ct (v : List Node) : (s.setNodes v).ct = s.ct := rfl
@[simp] theorem State.setNodes_pkAcc (v : List Node) : (s.setNodes v).pkAcc = s.pkAcc := rfl
@[simp] theorem State.setNodes_pkCnt (v : List Node) : (s.setNodes v).pkCnt = s.pkCnt := rfl
@[simp] theorem State.setNodes_upAcc (v : List Node) : (s.setNodes v).upAcc = s.upAcc := rfl
@[simp] theorem State.setNodes_upLen (v : List Node) : (s.setNodes v).upLen = s.upLen := rfl
@[simp] theorem State.setNodes_upDead (v : List Node) : (s.setNodes v).upDead = s.upDead := rfl
@[simp] theorem State.setNodes_upDone (v : List Node) : (s.setNodes v).upDone = s.upDone := rfl
@[simp] theorem State.setNodes_err (v : List Node) : (s.setNodes v).err = s.err := rfl
@[simp] theorem State.setNodes_errCmd (v : List Node) : (s.setNodes v).errCmd = s.errCmd := rfl
@[simp] theorem State.setNodes_pkOut (v : List Node) : (s.setNodes v).pkOut = s.pkOut := rfl
@[simp] theorem State.setNodes_upOut (v : List Node) : (s.setNodes v).upOut = s.upOut := rfl
@[simp] theorem State.setNodes_inbox (v : List Node) : (s.setNodes v).inbox = s.inbox := rfl
@[simp] theorem State.setNodes_resps (v : List Node) : (s.setNodes v).resps = s.resps := rfl

@[simp] theorem State.setHeap_nodes (v : List NodeIdx) : (s.setHeap v).nodes = s.nodes := rfl
@[simp] theorem State.setHeap_heap (v : List NodeIdx) : (s.setHeap v).heap = v := rfl
@[simp] theorem State.setHeap_leafseen (v : List NodeIdx) : (s.setHeap v).leafseen = s.leafseen := rfl
@[simp] theorem State.setHeap_root (v : List NodeIdx) : (s.setHeap v).root = s.root := rfl
@[simp] theorem State.setHeap_ct (v : List NodeIdx) : (s.setHeap v).ct = s.ct := rfl
@[simp] theorem State.setHeap_pkAcc (v : List NodeIdx) : (s.setHeap v).pkAcc = s.pkAcc := rfl
@[simp] theorem State.setHeap_pkCnt (v : List NodeIdx) : (s.setHeap v).pkCnt = s.pkCnt := rfl
@[simp] theorem State.setHeap_upAcc (v : List NodeIdx) : (s.setHeap v).upAcc = s.upAcc := rfl
@[simp] theorem State.setHeap_upLen (v : List NodeIdx) : (s.setHeap v).upLen = s.upLen := rfl
@[simp] theorem State.setHeap_upDead (v : List NodeIdx) : (s.setHeap v).upDead = s.upDead := rfl
@[simp] theorem State.setHeap_upDone (v : List NodeIdx) : (s.setHeap v).upDone = s.upDone := rfl
@[simp] theorem State.setHeap_err (v : List NodeIdx) : (s.setHeap v).err = s.err := rfl
@[simp] theorem State.setHeap_errCmd (v : List NodeIdx) : (s.setHeap v).errCmd = s.errCmd := rfl
@[simp] theorem State.setHeap_pkOut (v : List NodeIdx) : (s.setHeap v).pkOut = s.pkOut := rfl
@[simp] theorem State.setHeap_upOut (v : List NodeIdx) : (s.setHeap v).upOut = s.upOut := rfl
@[simp] theorem State.setHeap_inbox (v : List NodeIdx) : (s.setHeap v).inbox = s.inbox := rfl
@[simp] theorem State.setHeap_resps (v : List NodeIdx) : (s.setHeap v).resps = s.resps := rfl

@[simp] theorem State.setLeafseen_nodes (v : Vector Bool 257) : (s.setLeafseen v).nodes = s.nodes := rfl
@[simp] theorem State.setLeafseen_heap (v : Vector Bool 257) : (s.setLeafseen v).heap = s.heap := rfl
@[simp] theorem State.setLeafseen_leafseen (v : Vector Bool 257) : (s.setLeafseen v).leafseen = v := rfl
@[simp] theorem State.setLeafseen_root (v : Vector Bool 257) : (s.setLeafseen v).root = s.root := rfl
@[simp] theorem State.setLeafseen_ct (v : Vector Bool 257) : (s.setLeafseen v).ct = s.ct := rfl
@[simp] theorem State.setLeafseen_pkAcc (v : Vector Bool 257) : (s.setLeafseen v).pkAcc = s.pkAcc := rfl
@[simp] theorem State.setLeafseen_pkCnt (v : Vector Bool 257) : (s.setLeafseen v).pkCnt = s.pkCnt := rfl
@[simp] theorem State.setLeafseen_upAcc (v : Vector Bool 257) : (s.setLeafseen v).upAcc = s.upAcc := rfl
@[simp] theorem State.setLeafseen_upLen (v : Vector Bool 257) : (s.setLeafseen v).upLen = s.upLen := rfl
@[simp] theorem State.setLeafseen_upDead (v : Vector Bool 257) : (s.setLeafseen v).upDead = s.upDead := rfl
@[simp] theorem State.setLeafseen_upDone (v : Vector Bool 257) : (s.setLeafseen v).upDone = s.upDone := rfl
@[simp] theorem State.setLeafseen_err (v : Vector Bool 257) : (s.setLeafseen v).err = s.err := rfl
@[simp] theorem State.setLeafseen_errCmd (v : Vector Bool 257) : (s.setLeafseen v).errCmd = s.errCmd := rfl
@[simp] theorem State.setLeafseen_pkOut (v : Vector Bool 257) : (s.setLeafseen v).pkOut = s.pkOut := rfl
@[simp] theorem State.setLeafseen_upOut (v : Vector Bool 257) : (s.setLeafseen v).upOut = s.upOut := rfl
@[simp] theorem State.setLeafseen_inbox (v : Vector Bool 257) : (s.setLeafseen v).inbox = s.inbox := rfl
@[simp] theorem State.setLeafseen_resps (v : Vector Bool 257) : (s.setLeafseen v).resps = s.resps := rfl

@[simp] theorem State.setRoot_nodes (v : NodeIdx) : (s.setRoot v).nodes = s.nodes := rfl
@[simp] theorem State.setRoot_heap (v : NodeIdx) : (s.setRoot v).heap = s.heap := rfl
@[simp] theorem State.setRoot_leafseen (v : NodeIdx) : (s.setRoot v).leafseen = s.leafseen := rfl
@[simp] theorem State.setRoot_root (v : NodeIdx) : (s.setRoot v).root = v := rfl
@[simp] theorem State.setRoot_ct (v : NodeIdx) : (s.setRoot v).ct = s.ct := rfl
@[simp] theorem State.setRoot_pkAcc (v : NodeIdx) : (s.setRoot v).pkAcc = s.pkAcc := rfl
@[simp] theorem State.setRoot_pkCnt (v : NodeIdx) : (s.setRoot v).pkCnt = s.pkCnt := rfl
@[simp] theorem State.setRoot_upAcc (v : NodeIdx) : (s.setRoot v).upAcc = s.upAcc := rfl
@[simp] theorem State.setRoot_upLen (v : NodeIdx) : (s.setRoot v).upLen = s.upLen := rfl
@[simp] theorem State.setRoot_upDead (v : NodeIdx) : (s.setRoot v).upDead = s.upDead := rfl
@[simp] theorem State.setRoot_upDone (v : NodeIdx) : (s.setRoot v).upDone = s.upDone := rfl
@[simp] theorem State.setRoot_err (v : NodeIdx) : (s.setRoot v).err = s.err := rfl
@[simp] theorem State.setRoot_errCmd (v : NodeIdx) : (s.setRoot v).errCmd = s.errCmd := rfl
@[simp] theorem State.setRoot_pkOut (v : NodeIdx) : (s.setRoot v).pkOut = s.pkOut := rfl
@[simp] theorem State.setRoot_upOut (v : NodeIdx) : (s.setRoot v).upOut = s.upOut := rfl
@[simp] theorem State.setRoot_inbox (v : NodeIdx) : (s.setRoot v).inbox = s.inbox := rfl
@[simp] theorem State.setRoot_resps (v : NodeIdx) : (s.setRoot v).resps = s.resps := rfl

@[simp] theorem State.setCt_nodes (v : Vector CtEntry 257) : (s.setCt v).nodes = s.nodes := rfl
@[simp] theorem State.setCt_heap (v : Vector CtEntry 257) : (s.setCt v).heap = s.heap := rfl
@[simp] theorem State.setCt_leafseen (v : Vector CtEntry 257) : (s.setCt v).leafseen = s.leafseen := rfl
@[simp] theorem State.setCt_root (v : Vector CtEntry 257) : (s.setCt v).root = s.root := rfl
@[simp] theorem State.setCt_ct (v : Vector CtEntry 257) : (s.setCt v).ct = v := rfl
@[simp] theorem State.setCt_pkAcc (v : Vector CtEntry 257) : (s.setCt v).pkAcc = s.pkAcc := rfl
@[simp] theorem State.setCt_pkCnt (v : Vector CtEntry 257) : (s.setCt v).pkCnt = s.pkCnt := rfl
@[simp] theorem State.setCt_upAcc (v : Vector CtEntry 257) : (s.setCt v).upAcc = s.upAcc := rfl
@[simp] theorem State.setCt_upLen (v : Vector CtEntry 257) : (s.setCt v).upLen = s.upLen := rfl
@[simp] theorem State.setCt_upDead (v : Vector CtEntry 257) : (s.setCt v).upDead = s.upDead := rfl
@[simp] theorem State.setCt_upDone (v : Vector CtEntry 257) : (s.setCt v).upDone = s.upDone := rfl
@[simp] theorem State.setCt_err (v : Vector CtEntry 257) : (s.setCt v).err = s.err := rfl
@[simp] theorem State.setCt_errCmd (v : Vector CtEntry 257) : (s.setCt v).errCmd = s.errCmd := rfl
@[simp] theorem State.setCt_pkOut (v : Vector CtEntry 257) : (s.setCt v).pkOut = s.pkOut := rfl
@[simp] theorem State.setCt_upOut (v : Vector CtEntry 257) : (s.setCt v).upOut = s.upOut := rfl
@[simp] theorem State.setCt_inbox (v : Vector CtEntry 257) : (s.setCt v).inbox = s.inbox := rfl
@[simp] theorem State.setCt_resps (v : Vector CtEntry 257) : (s.setCt v).resps = s.resps := rfl

@[simp] theorem State.setPk_nodes (a : BitVec 8) (c : BitVec 3) : (s.setPk a c).nodes = s.nodes := rfl
@[simp] theorem State.setPk_heap (a : BitVec 8) (c : BitVec 3) : (s.setPk a c).heap = s.heap := rfl
@[simp] theorem State.setPk_leafseen (a : BitVec 8) (c : BitVec 3) : (s.setPk a c).leafseen = s.leafseen := rfl
@[simp] theorem State.setPk_root (a : BitVec 8) (c : BitVec 3) : (s.setPk a c).root = s.root := rfl
@[simp] theorem State.setPk_ct (a : BitVec 8) (c : BitVec 3) : (s.setPk a c).ct = s.ct := rfl
@[simp] theorem State.setPk_pkAcc (a : BitVec 8) (c : BitVec 3) : (s.setPk a c).pkAcc = a := rfl
@[simp] theorem State.setPk_pkCnt (a : BitVec 8) (c : BitVec 3) : (s.setPk a c).pkCnt = c := rfl
@[simp] theorem State.setPk_upAcc (a : BitVec 8) (c : BitVec 3) : (s.setPk a c).upAcc = s.upAcc := rfl
@[simp] theorem State.setPk_upLen (a : BitVec 8) (c : BitVec 3) : (s.setPk a c).upLen = s.upLen := rfl
@[simp] theorem State.setPk_upDead (a : BitVec 8) (c : BitVec 3) : (s.setPk a c).upDead = s.upDead := rfl
@[simp] theorem State.setPk_upDone (a : BitVec 8) (c : BitVec 3) : (s.setPk a c).upDone = s.upDone := rfl
@[simp] theorem State.setPk_err (a : BitVec 8) (c : BitVec 3) : (s.setPk a c).err = s.err := rfl
@[simp] theorem State.setPk_errCmd (a : BitVec 8) (c : BitVec 3) : (s.setPk a c).errCmd = s.errCmd := rfl
@[simp] theorem State.setPk_pkOut (a : BitVec 8) (c : BitVec 3) : (s.setPk a c).pkOut = s.pkOut := rfl
@[simp] theorem State.setPk_upOut (a : BitVec 8) (c : BitVec 3) : (s.setPk a c).upOut = s.upOut := rfl
@[simp] theorem State.setPk_inbox (a : BitVec 8) (c : BitVec 3) : (s.setPk a c).inbox = s.inbox := rfl
@[simp] theorem State.setPk_resps (a : BitVec 8) (c : BitVec 3) : (s.setPk a c).resps = s.resps := rfl

@[simp] theorem State.setUp_nodes (a : BitVec 256) (l : BitVec 9) : (s.setUp a l).nodes = s.nodes := rfl
@[simp] theorem State.setUp_heap (a : BitVec 256) (l : BitVec 9) : (s.setUp a l).heap = s.heap := rfl
@[simp] theorem State.setUp_leafseen (a : BitVec 256) (l : BitVec 9) : (s.setUp a l).leafseen = s.leafseen := rfl
@[simp] theorem State.setUp_root (a : BitVec 256) (l : BitVec 9) : (s.setUp a l).root = s.root := rfl
@[simp] theorem State.setUp_ct (a : BitVec 256) (l : BitVec 9) : (s.setUp a l).ct = s.ct := rfl
@[simp] theorem State.setUp_pkAcc (a : BitVec 256) (l : BitVec 9) : (s.setUp a l).pkAcc = s.pkAcc := rfl
@[simp] theorem State.setUp_pkCnt (a : BitVec 256) (l : BitVec 9) : (s.setUp a l).pkCnt = s.pkCnt := rfl
@[simp] theorem State.setUp_upAcc (a : BitVec 256) (l : BitVec 9) : (s.setUp a l).upAcc = a := rfl
@[simp] theorem State.setUp_upLen (a : BitVec 256) (l : BitVec 9) : (s.setUp a l).upLen = l := rfl
@[simp] theorem State.setUp_upDead (a : BitVec 256) (l : BitVec 9) : (s.setUp a l).upDead = s.upDead := rfl
@[simp] theorem State.setUp_upDone (a : BitVec 256) (l : BitVec 9) : (s.setUp a l).upDone = s.upDone := rfl
@[simp] theorem State.setUp_err (a : BitVec 256) (l : BitVec 9) : (s.setUp a l).err = s.err := rfl
@[simp] theorem State.setUp_errCmd (a : BitVec 256) (l : BitVec 9) : (s.setUp a l).errCmd = s.errCmd := rfl
@[simp] theorem State.setUp_pkOut (a : BitVec 256) (l : BitVec 9) : (s.setUp a l).pkOut = s.pkOut := rfl
@[simp] theorem State.setUp_upOut (a : BitVec 256) (l : BitVec 9) : (s.setUp a l).upOut = s.upOut := rfl
@[simp] theorem State.setUp_inbox (a : BitVec 256) (l : BitVec 9) : (s.setUp a l).inbox = s.inbox := rfl
@[simp] theorem State.setUp_resps (a : BitVec 256) (l : BitVec 9) : (s.setUp a l).resps = s.resps := rfl

@[simp] theorem State.setUpFlags_nodes (d e : Bool) : (s.setUpFlags d e).nodes = s.nodes := rfl
@[simp] theorem State.setUpFlags_heap (d e : Bool) : (s.setUpFlags d e).heap = s.heap := rfl
@[simp] theorem State.setUpFlags_leafseen (d e : Bool) : (s.setUpFlags d e).leafseen = s.leafseen := rfl
@[simp] theorem State.setUpFlags_root (d e : Bool) : (s.setUpFlags d e).root = s.root := rfl
@[simp] theorem State.setUpFlags_ct (d e : Bool) : (s.setUpFlags d e).ct = s.ct := rfl
@[simp] theorem State.setUpFlags_pkAcc (d e : Bool) : (s.setUpFlags d e).pkAcc = s.pkAcc := rfl
@[simp] theorem State.setUpFlags_pkCnt (d e : Bool) : (s.setUpFlags d e).pkCnt = s.pkCnt := rfl
@[simp] theorem State.setUpFlags_upAcc (d e : Bool) : (s.setUpFlags d e).upAcc = s.upAcc := rfl
@[simp] theorem State.setUpFlags_upLen (d e : Bool) : (s.setUpFlags d e).upLen = s.upLen := rfl
@[simp] theorem State.setUpFlags_upDead (d e : Bool) : (s.setUpFlags d e).upDead = d := rfl
@[simp] theorem State.setUpFlags_upDone (d e : Bool) : (s.setUpFlags d e).upDone = e := rfl
@[simp] theorem State.setUpFlags_err (d e : Bool) : (s.setUpFlags d e).err = s.err := rfl
@[simp] theorem State.setUpFlags_errCmd (d e : Bool) : (s.setUpFlags d e).errCmd = s.errCmd := rfl
@[simp] theorem State.setUpFlags_pkOut (d e : Bool) : (s.setUpFlags d e).pkOut = s.pkOut := rfl
@[simp] theorem State.setUpFlags_upOut (d e : Bool) : (s.setUpFlags d e).upOut = s.upOut := rfl
@[simp] theorem State.setUpFlags_inbox (d e : Bool) : (s.setUpFlags d e).inbox = s.inbox := rfl
@[simp] theorem State.setUpFlags_resps (d e : Bool) : (s.setUpFlags d e).resps = s.resps := rfl

@[simp] theorem State.setErr_nodes (c : BitVec 4) (w : Word) : (s.setErr c w).nodes = s.nodes := rfl
@[simp] theorem State.setErr_heap (c : BitVec 4) (w : Word) : (s.setErr c w).heap = s.heap := rfl
@[simp] theorem State.setErr_leafseen (c : BitVec 4) (w : Word) : (s.setErr c w).leafseen = s.leafseen := rfl
@[simp] theorem State.setErr_root (c : BitVec 4) (w : Word) : (s.setErr c w).root = s.root := rfl
@[simp] theorem State.setErr_ct (c : BitVec 4) (w : Word) : (s.setErr c w).ct = s.ct := rfl
@[simp] theorem State.setErr_pkAcc (c : BitVec 4) (w : Word) : (s.setErr c w).pkAcc = s.pkAcc := rfl
@[simp] theorem State.setErr_pkCnt (c : BitVec 4) (w : Word) : (s.setErr c w).pkCnt = s.pkCnt := rfl
@[simp] theorem State.setErr_upAcc (c : BitVec 4) (w : Word) : (s.setErr c w).upAcc = s.upAcc := rfl
@[simp] theorem State.setErr_upLen (c : BitVec 4) (w : Word) : (s.setErr c w).upLen = s.upLen := rfl
@[simp] theorem State.setErr_upDead (c : BitVec 4) (w : Word) : (s.setErr c w).upDead = s.upDead := rfl
@[simp] theorem State.setErr_upDone (c : BitVec 4) (w : Word) : (s.setErr c w).upDone = s.upDone := rfl
@[simp] theorem State.setErr_err (c : BitVec 4) (w : Word) : (s.setErr c w).err = c := rfl
@[simp] theorem State.setErr_errCmd (c : BitVec 4) (w : Word) : (s.setErr c w).errCmd = w := rfl
@[simp] theorem State.setErr_pkOut (c : BitVec 4) (w : Word) : (s.setErr c w).pkOut = s.pkOut := rfl
@[simp] theorem State.setErr_upOut (c : BitVec 4) (w : Word) : (s.setErr c w).upOut = s.upOut := rfl
@[simp] theorem State.setErr_inbox (c : BitVec 4) (w : Word) : (s.setErr c w).inbox = s.inbox := rfl
@[simp] theorem State.setErr_resps (c : BitVec 4) (w : Word) : (s.setErr c w).resps = s.resps := rfl

@[simp] theorem State.setInbox_nodes (v : List HostEvent) : (s.setInbox v).nodes = s.nodes := rfl
@[simp] theorem State.setInbox_heap (v : List HostEvent) : (s.setInbox v).heap = s.heap := rfl
@[simp] theorem State.setInbox_leafseen (v : List HostEvent) : (s.setInbox v).leafseen = s.leafseen := rfl
@[simp] theorem State.setInbox_root (v : List HostEvent) : (s.setInbox v).root = s.root := rfl
@[simp] theorem State.setInbox_ct (v : List HostEvent) : (s.setInbox v).ct = s.ct := rfl
@[simp] theorem State.setInbox_pkAcc (v : List HostEvent) : (s.setInbox v).pkAcc = s.pkAcc := rfl
@[simp] theorem State.setInbox_pkCnt (v : List HostEvent) : (s.setInbox v).pkCnt = s.pkCnt := rfl
@[simp] theorem State.setInbox_upAcc (v : List HostEvent) : (s.setInbox v).upAcc = s.upAcc := rfl
@[simp] theorem State.setInbox_upLen (v : List HostEvent) : (s.setInbox v).upLen = s.upLen := rfl
@[simp] theorem State.setInbox_upDead (v : List HostEvent) : (s.setInbox v).upDead = s.upDead := rfl
@[simp] theorem State.setInbox_upDone (v : List HostEvent) : (s.setInbox v).upDone = s.upDone := rfl
@[simp] theorem State.setInbox_err (v : List HostEvent) : (s.setInbox v).err = s.err := rfl
@[simp] theorem State.setInbox_errCmd (v : List HostEvent) : (s.setInbox v).errCmd = s.errCmd := rfl
@[simp] theorem State.setInbox_pkOut (v : List HostEvent) : (s.setInbox v).pkOut = s.pkOut := rfl
@[simp] theorem State.setInbox_upOut (v : List HostEvent) : (s.setInbox v).upOut = s.upOut := rfl
@[simp] theorem State.setInbox_inbox (v : List HostEvent) : (s.setInbox v).inbox = v := rfl
@[simp] theorem State.setInbox_resps (v : List HostEvent) : (s.setInbox v).resps = s.resps := rfl

@[simp] theorem State.emitPk_nodes (b : Byte) : (s.emitPk b).nodes = s.nodes := rfl
@[simp] theorem State.emitPk_heap (b : Byte) : (s.emitPk b).heap = s.heap := rfl
@[simp] theorem State.emitPk_leafseen (b : Byte) : (s.emitPk b).leafseen = s.leafseen := rfl
@[simp] theorem State.emitPk_root (b : Byte) : (s.emitPk b).root = s.root := rfl
@[simp] theorem State.emitPk_ct (b : Byte) : (s.emitPk b).ct = s.ct := rfl
@[simp] theorem State.emitPk_pkAcc (b : Byte) : (s.emitPk b).pkAcc = s.pkAcc := rfl
@[simp] theorem State.emitPk_pkCnt (b : Byte) : (s.emitPk b).pkCnt = s.pkCnt := rfl
@[simp] theorem State.emitPk_upAcc (b : Byte) : (s.emitPk b).upAcc = s.upAcc := rfl
@[simp] theorem State.emitPk_upLen (b : Byte) : (s.emitPk b).upLen = s.upLen := rfl
@[simp] theorem State.emitPk_upDead (b : Byte) : (s.emitPk b).upDead = s.upDead := rfl
@[simp] theorem State.emitPk_upDone (b : Byte) : (s.emitPk b).upDone = s.upDone := rfl
@[simp] theorem State.emitPk_err (b : Byte) : (s.emitPk b).err = s.err := rfl
@[simp] theorem State.emitPk_errCmd (b : Byte) : (s.emitPk b).errCmd = s.errCmd := rfl
@[simp] theorem State.emitPk_pkOut (b : Byte) : (s.emitPk b).pkOut = s.pkOut ++ [b] := rfl
@[simp] theorem State.emitPk_upOut (b : Byte) : (s.emitPk b).upOut = s.upOut := rfl
@[simp] theorem State.emitPk_inbox (b : Byte) : (s.emitPk b).inbox = s.inbox := rfl
@[simp] theorem State.emitPk_resps (b : Byte) : (s.emitPk b).resps = s.resps := rfl

@[simp] theorem State.emitUp_nodes (b : Byte) : (s.emitUp b).nodes = s.nodes := rfl
@[simp] theorem State.emitUp_heap (b : Byte) : (s.emitUp b).heap = s.heap := rfl
@[simp] theorem State.emitUp_leafseen (b : Byte) : (s.emitUp b).leafseen = s.leafseen := rfl
@[simp] theorem State.emitUp_root (b : Byte) : (s.emitUp b).root = s.root := rfl
@[simp] theorem State.emitUp_ct (b : Byte) : (s.emitUp b).ct = s.ct := rfl
@[simp] theorem State.emitUp_pkAcc (b : Byte) : (s.emitUp b).pkAcc = s.pkAcc := rfl
@[simp] theorem State.emitUp_pkCnt (b : Byte) : (s.emitUp b).pkCnt = s.pkCnt := rfl
@[simp] theorem State.emitUp_upAcc (b : Byte) : (s.emitUp b).upAcc = s.upAcc := rfl
@[simp] theorem State.emitUp_upLen (b : Byte) : (s.emitUp b).upLen = s.upLen := rfl
@[simp] theorem State.emitUp_upDead (b : Byte) : (s.emitUp b).upDead = s.upDead := rfl
@[simp] theorem State.emitUp_upDone (b : Byte) : (s.emitUp b).upDone = s.upDone := rfl
@[simp] theorem State.emitUp_err (b : Byte) : (s.emitUp b).err = s.err := rfl
@[simp] theorem State.emitUp_errCmd (b : Byte) : (s.emitUp b).errCmd = s.errCmd := rfl
@[simp] theorem State.emitUp_pkOut (b : Byte) : (s.emitUp b).pkOut = s.pkOut := rfl
@[simp] theorem State.emitUp_upOut (b : Byte) : (s.emitUp b).upOut = s.upOut ++ [b] := rfl
@[simp] theorem State.emitUp_inbox (b : Byte) : (s.emitUp b).inbox = s.inbox := rfl
@[simp] theorem State.emitUp_resps (b : Byte) : (s.emitUp b).resps = s.resps := rfl

@[simp] theorem State.respond_nodes (r : Response) : (s.respond r).nodes = s.nodes := rfl
@[simp] theorem State.respond_heap (r : Response) : (s.respond r).heap = s.heap := rfl
@[simp] theorem State.respond_leafseen (r : Response) : (s.respond r).leafseen = s.leafseen := rfl
@[simp] theorem State.respond_root (r : Response) : (s.respond r).root = s.root := rfl
@[simp] theorem State.respond_ct (r : Response) : (s.respond r).ct = s.ct := rfl
@[simp] theorem State.respond_pkAcc (r : Response) : (s.respond r).pkAcc = s.pkAcc := rfl
@[simp] theorem State.respond_pkCnt (r : Response) : (s.respond r).pkCnt = s.pkCnt := rfl
@[simp] theorem State.respond_upAcc (r : Response) : (s.respond r).upAcc = s.upAcc := rfl
@[simp] theorem State.respond_upLen (r : Response) : (s.respond r).upLen = s.upLen := rfl
@[simp] theorem State.respond_upDead (r : Response) : (s.respond r).upDead = s.upDead := rfl
@[simp] theorem State.respond_upDone (r : Response) : (s.respond r).upDone = s.upDone := rfl
@[simp] theorem State.respond_err (r : Response) : (s.respond r).err = s.err := rfl
@[simp] theorem State.respond_errCmd (r : Response) : (s.respond r).errCmd = s.errCmd := rfl
@[simp] theorem State.respond_pkOut (r : Response) : (s.respond r).pkOut = s.pkOut := rfl
@[simp] theorem State.respond_upOut (r : Response) : (s.respond r).upOut = s.upOut := rfl
@[simp] theorem State.respond_inbox (r : Response) : (s.respond r).inbox = s.inbox := rfl
@[simp] theorem State.respond_resps (r : Response) : (s.respond r).resps = s.resps ++ [r] := rfl

end Sys2Proof.Machine
end

