-- ==== Sys2Proof/Laws/Bits.lean ====
section
/-! SUPPORT. Bits of vectors: `writeBit`, `place`, the bit string of a table entry, bytes. -/

namespace Sys2Proof.Machine

theorem getLsbD_writeBit {n : Nat} (v : BitVec n) (i : Nat) (b : Bool) (j : Nat) :
    (writeBit v i b).getLsbD j = if j = i ∧ i < n then b else v.getLsbD j := by
  unfold writeBit
  by_cases hij : j = i
  · subst hij
    by_cases hj : j < n
    · cases b <;> simp [hj]
    · cases b <;> simp [hj, BitVec.getLsbD_of_ge v j (by omega)]
  · cases b <;> simp [hij, Ne.symm hij, BitVec.getLsbD_twoPow]
    by_cases hj : j < n <;> simp [hj]
    simp at hj
    simp [hj]

/-- A vector whose bits at and above `k` are all 0 is below `2 ^ k`, and the other way round. -/
theorem toNat_lt_twoPow_iff {n : Nat} (v : BitVec n) (k : Nat) :
    v.toNat < 2 ^ k ↔ ∀ j, k ≤ j → v.getLsbD j = false := by
  constructor
  · intro h j hj
    simp only [BitVec.getLsbD]
    exact Nat.testBit_lt_two_pow (Nat.lt_of_lt_of_le h (Nat.pow_le_pow_right (by omega) hj))
  · intro h
    by_contra hc
    obtain ⟨j, hj, hb⟩ := Nat.exists_ge_and_testBit_of_ge_two_pow (Nat.le_of_not_lt hc)
    have := h j hj
    simp [BitVec.getLsbD, hb] at this

theorem writeBit_lt {n : Nat} (v : BitVec n) (i : Nat) (b : Bool) (h : v.toNat < 2 ^ i) :
    (writeBit v i b).toNat < 2 ^ (i + 1) := by
  rw [toNat_lt_twoPow_iff] at h ⊢
  intro j hj
  rw [getLsbD_writeBit, if_neg (by omega)]
  exact h j (by omega)

/-- The first `k` bits of a vector, bit 0 first. -/
theorem lowBits_writeBit {n : Nat} (v : BitVec n) (i : Nat) (b : Bool) (hi : i < n) :
    (List.range (i + 1)).map (writeBit v i b).getLsbD = (List.range i).map v.getLsbD ++ [b] := by
  rw [List.range_succ, List.map_append]
  congr 1
  · apply List.map_congr_left
    intro j hj
    rw [List.mem_range] at hj
    rw [getLsbD_writeBit, if_neg (by omega)]
  · simp only [List.map_cons, List.map_nil, getLsbD_writeBit, hi, and_self, if_true]

/-- Two vectors with no bit at or above `k` are equal when their first `k` bits are. -/
theorem eq_of_lowBits {n : Nat} {v w : BitVec n} {k : Nat} (hv : v.toNat < 2 ^ k) (hw : w.toNat < 2 ^ k)
    (h : (List.range k).map v.getLsbD = (List.range k).map w.getLsbD) : v = w := by
  rw [toNat_lt_twoPow_iff] at hv hw
  apply BitVec.eq_of_getLsbD_eq
  intro j _
  by_cases hj : j < k
  · exact (List.map_inj_left.mp h) j (List.mem_range.mpr hj)
  · rw [hv j (by omega), hw j (by omega)]

theorem getLsbD_place {n : Nat} (v : BitVec n) (lo j : Nat) (h : lo + n ≤ 64) :
    (place v lo).getLsbD j = (decide (lo ≤ j) && v.getLsbD (j - lo)) := by
  unfold place
  simp only [BitVec.getLsbD_shiftLeft, BitVec.getLsbD_setWidth]
  by_cases h1 : j < lo
  · simp [h1]
  · by_cases h2 : j - lo < n
    · have : j < 64 := by omega
      have : j - lo < 64 := by omega
      simp [*]
      omega
    · simp [BitVec.getLsbD_of_ge v (j - lo) (by omega)]

@[simp] theorem length_bits (e : CtEntry) : e.bits.length = e.len.toNat := by simp [CtEntry.bits]

theorem CtEntry.wf_iff (e : CtEntry) : e.wf = true ↔
    (e.valid = false → e.len = 0 ∧ e.code = 0) ∧ e.len.toNat ≤ 256 ∧ e.code.toNat < 2 ^ e.len.toNat := by
  cases hv : e.valid <;> simp [CtEntry.wf, hv, and_assoc]

theorem CtEntry.empty_wf : CtEntry.empty.wf = true := by decide

theorem CtEntry.append_wf (e : CtEntry) (b : Bool) (h : e.wf = true) (hv : e.valid = true)
    (hl : e.len ≠ BitVec.ofNat 9 Config.lMax) : (e.append b).wf = true := by
  rw [CtEntry.wf_iff] at h ⊢
  have hl' : e.len.toNat ≠ 256 := fun hc => hl (BitVec.eq_of_toNat_eq (by rw [hc]; rfl))
  have hlen : (e.len + 1).toNat = e.len.toNat + 1 := by rw [BitVec.toNat_add]; simp; omega
  refine ⟨fun hc => ?_, ?_, ?_⟩
  · simp [CtEntry.append, hv] at hc
  · simp only [CtEntry.append]; omega
  · simp only [CtEntry.append, hlen]; exact writeBit_lt _ _ _ h.2.2

theorem CtEntry.bits_append (e : CtEntry) (b : Bool) (h : e.len.toNat < 256) : (e.append b).bits = e.bits ++ [b] := by
  have hlen : (e.len + 1).toNat = e.len.toNat + 1 := by rw [BitVec.toNat_add]; simp; omega
  simp only [CtEntry.bits, CtEntry.append, hlen]
  exact lowBits_writeBit _ _ _ h

/-- A canonical entry is determined by `valid` and its bit string. -/
theorem CtEntry.eq_of_bits {e f : CtEntry} (he : e.wf = true) (hf : f.wf = true) (hv : e.valid = f.valid)
    (hb : e.bits = f.bits) : e = f := by
  rw [CtEntry.wf_iff] at he hf
  have hl : e.len.toNat = f.len.toNat := by simpa using congrArg List.length hb
  have hlen : e.len = f.len := BitVec.eq_of_toNat_eq hl
  have hcode : e.code = f.code := by
    apply eq_of_lowBits he.2.2 (hl ▸ hf.2.2)
    simpa [CtEntry.bits, hl] using hb
  cases e; cases f; simp_all

@[simp] theorem length_byteBits (v : Byte) : (byteBits v).length = 8 := by simp [byteBits]

end Sys2Proof.Machine
end

