-- ==== Sys2Proof/Laws/Codec.lean ====
section
/-! SUPPORT. The fields of a command word as numbers, and read back from the word they were put in. -/

namespace Sys2Proof

section Fields

variable (w : Word) (op : BitVec 8) (a : BitVec 10) (x : BitVec 32)

theorem toNat_mkWord : (mkWord op a x).toNat = 2 ^ 56 * op.toNat + (2 ^ 32 * a.toNat + x.toNat) := by
  have hop := op.isLt
  have ha := a.isLt
  have hx := x.isLt
  unfold mkWord
  simp only [BitVec.toNat_or, BitVec.toNat_shiftLeft, BitVec.toNat_setWidth, Nat.shiftLeft_eq]
  rw [Nat.mod_eq_of_lt (by omega : op.toNat < 2 ^ 64), Nat.mod_eq_of_lt (by omega : a.toNat < 2 ^ 64),
    Nat.mod_eq_of_lt (by omega : x.toNat < 2 ^ 64), Nat.mod_eq_of_lt (by omega : op.toNat * 2 ^ 56 < 2 ^ 64),
    Nat.mod_eq_of_lt (by omega : a.toNat * 2 ^ 32 < 2 ^ 64), Nat.mul_comm _ (2 ^ 56), Nat.mul_comm _ (2 ^ 32), Nat.or_assoc,
    ← Nat.two_pow_add_eq_or_of_lt hx, ← Nat.two_pow_add_eq_or_of_lt (by omega)]

theorem toNat_opField : (opField w).toNat = w.toNat / 2 ^ 56 % 2 ^ 8 := by
  simp [opField, BitVec.extractLsb'_toNat, Nat.shiftRight_eq_div_pow]

theorem toNat_rsvField : (rsvField w).toNat = w.toNat / 2 ^ 42 % 2 ^ 14 := by
  simp [rsvField, BitVec.extractLsb'_toNat, Nat.shiftRight_eq_div_pow]

theorem toNat_aField : (aField w).toNat = w.toNat / 2 ^ 32 % 2 ^ 10 := by
  simp [aField, BitVec.extractLsb'_toNat, Nat.shiftRight_eq_div_pow]

theorem toNat_wField : (wField w).toNat = w.toNat % 2 ^ 32 := by
  simp [wField, BitVec.extractLsb'_toNat]

@[simp] theorem opField_mkWord : opField (mkWord op a x) = op := by
  have := op.isLt; have := a.isLt; have := x.isLt
  apply BitVec.eq_of_toNat_eq; rw [toNat_opField, toNat_mkWord]; omega

@[simp] theorem rsvField_mkWord : rsvField (mkWord op a x) = 0 := by
  have := op.isLt; have := a.isLt; have := x.isLt
  apply BitVec.eq_of_toNat_eq; rw [toNat_rsvField, toNat_mkWord]; simp; omega

@[simp] theorem aField_mkWord : aField (mkWord op a x) = a := by
  have := op.isLt; have := a.isLt; have := x.isLt
  apply BitVec.eq_of_toNat_eq; rw [toNat_aField, toNat_mkWord]; omega

@[simp] theorem wField_mkWord : wField (mkWord op a x) = x := by
  have := op.isLt; have := a.isLt; have := x.isLt
  apply BitVec.eq_of_toNat_eq; rw [toNat_wField, toNat_mkWord]; omega

/-- A word with `rsv` = 0 is made of its other fields. -/
theorem mkWord_fields (h : rsvField w = 0) : mkWord (opField w) (aField w) (wField w) = w := by
  have := w.isLt
  have hr : w.toNat / 2 ^ 42 % 2 ^ 14 = 0 := by rw [← toNat_rsvField, h]; rfl
  apply BitVec.eq_of_toNat_eq
  rw [toNat_mkWord, toNat_opField, toNat_aField, toNat_wField]
  omega

/-- A command word is its four fields. -/
theorem word_ext {v w : Word} (h1 : opField v = opField w) (h2 : rsvField v = rsvField w) (h3 : aField v = aField w)
    (h4 : wField v = wField w) : v = w := by
  have e1 := congrArg BitVec.toNat h1
  have e2 := congrArg BitVec.toNat h2
  have e3 := congrArg BitVec.toNat h3
  have e4 := congrArg BitVec.toNat h4
  simp only [toNat_opField, toNat_rsvField, toNat_aField, toNat_wField] at e1 e2 e3 e4
  have := v.isLt; have := w.isLt
  apply BitVec.eq_of_toNat_eq
  omega

theorem opField_and (v : Word) : opField (v &&& w) = opField v &&& opField w := by simp [opField, BitVec.extractLsb'_and]
theorem rsvField_and (v : Word) : rsvField (v &&& w) = rsvField v &&& rsvField w := by
  simp [rsvField, BitVec.extractLsb'_and]
theorem aField_and (v : Word) : aField (v &&& w) = aField v &&& aField w := by simp [aField, BitVec.extractLsb'_and]
theorem wField_and (v : Word) : wField (v &&& w) = wField v &&& wField w := by simp [wField, BitVec.extractLsb'_and]

end Fields

/-- What `accept` answers (R90, R96). -/
theorem accept_ok_iff (w : Word) (aUsed : Bool) (n : Nat) (i j : Instr) :
    accept w aUsed n i = .ok j ↔
      j = i ∧ rsvField w = 0 ∧ (aUsed = false → aField w = 0) ∧ (wField w).toNat < 2 ^ n := by
  have hs : wField w >>> n = 0 ↔ (wField w).toNat < 2 ^ n := by
    rw [← BitVec.toNat_inj]
    simp [Nat.shiftRight_eq_div_pow, Nat.div_eq_zero_iff]
  unfold accept
  by_cases hr : rsvField w = 0
  · by_cases hu : (aUsed = false ∧ aField w ≠ 0) ∨ wField w >>> n ≠ 0
    · rw [if_neg (not_not.mpr hr), if_pos hu]
      constructor
      · intro h; cases h
      · rintro ⟨-, -, h1, h2⟩
        rcases hu with ⟨hu, hv⟩ | hu
        · exact absurd (h1 hu) hv
        · exact absurd (hs.mpr h2) hu
    · rw [if_neg (not_not.mpr hr), if_neg hu]
      push Not at hu
      constructor
      · intro h
        cases h
        exact ⟨rfl, hr, hu.1, hs.mp hu.2⟩
      · rintro ⟨rfl, -⟩; rfl
  · rw [if_pos hr]
    constructor
    · intro h; cases h
    · rintro ⟨-, h, -⟩; exact absurd h hr

end Sys2Proof
end

