-- ==== Sys2Proof/Laws/Exec.lean ====
section
/-! SUPPORT. `exec` said once: every command is its rule inside the execution wrapper (60_exceptions.md R275). -/

namespace Sys2Proof.Machine

/-- The rule of each command (R275: "run the rule of d"). -/
def ruleOf (i : Instr) : State → Result :=
  match i with
  | .nop => fun s => .ok 0 s
  | .reset => fun s => .ok 0 (resetBlock s)
  | .status => fun s => .ok (statusWord s) s
  | .errcmd => fun s => .ok s.errCmd s
  | .leaf x c => leafRule x c
  | .heapPeek => heapPeekRule
  | .heapExtract => heapExtractRule
  | .heapInsert n => heapInsertRule n
  | .nodeJoin l r => nodeJoinRule l r
  | .nodeInfo n => nodeInfoRule n
  | .nodeKids n => nodeKidsRule n
  | .heapSlot k => heapSlotRule k
  | .merge => mergeRule
  | .build => buildRule
  | .assign => assignRule
  | .tbClear => tbClearRule
  | .tblClear => tblClearRule
  | .tblDefine x => tblDefineRule x
  | .tblAppend x b => tblAppendRule x b
  | .tblLen x => tblLenRule x
  | .tblBit x j => tblBitRule x j
  | .packSym x => packSymRule x
  | .packEnd => packEndRule
  | .unpkStart => unpkStartRule
  | .unpkByte v => unpkByteRule v
  | .unpkEnd => unpkEndRule

theorem exec_guarded (i : Instr) (s : State) (h : i.runsFaulted = false) :
    exec i s = guarded (encode i) (ruleOf i) s := by
  cases i <;> first | rfl | simp [Instr.runsFaulted] at h

theorem exec_always (i : Instr) (s : State) (h : i.runsFaulted = true) :
    exec i s = always (encode i) (ruleOf i) s := by
  cases i <;> first | rfl | simp [Instr.runsFaulted] at h

/-- A command of a block that is not faulted ends as its rule ends (R9, R275). -/
theorem exec_of_not_faulted (i : Instr) (s : State) (h : s.faulted = false) :
    exec i s = .next (complete (encode i) s (ruleOf i s)) := by
  cases hr : i.runsFaulted
  · rw [exec_guarded i s hr, guarded, h]; rfl
  · rw [exec_always i s hr, always]

/-- A command of a faulted block is refused, but for the three that run (R278). -/
theorem exec_of_faulted (i : Instr) (s : State) (h : s.faulted = true) (hr : i.runsFaulted = false) :
    exec i s = .next (refuse s) := by
  rw [exec_guarded i s hr, guarded, h]; rfl

/-- Every command answers a next state; in full: refused, or ended as its rule ends (R262, R275). -/
theorem exec_cases (i : Instr) (s t : State) (h : exec i s = .next t) :
    (s.faulted = true ∧ i.runsFaulted = false ∧ t = refuse s) ∨
    ((s.faulted = false ∨ i.runsFaulted = true) ∧ t = complete (encode i) s (ruleOf i s)) := by
  cases hr : i.runsFaulted
  · cases hf : s.faulted
    · rw [exec_of_not_faulted i s hf] at h
      exact .inr ⟨.inl rfl, by simpa using h.symm⟩
    · rw [exec_of_faulted i s hf hr] at h
      exact .inl ⟨rfl, rfl, by simpa using h.symm⟩
  · rw [exec_always i s hr, always] at h
    exact .inr ⟨.inr rfl, by simpa using h.symm⟩

@[simp] theorem complete_ok (w rd : Word) (s t : State) : complete w s (.ok rd t) = t.respond ⟨.ok, rd⟩ := rfl
@[simp] theorem complete_none (w : Word) (s : State) : complete w s .none = s.respond ⟨.none, 0⟩ := rfl
@[simp] theorem complete_fault (w : Word) (c : FaultCode) (s : State) : complete w s (.fault c) = raiseFault w c s := rfl

/-- A step is `exec` of the decoded command, once the input is taken (R275). -/
theorem step_command (s : State) (w : Word) (rest : List HostEvent) (i : Instr) (hi : s.inbox = .command w :: rest)
    (hd : decode w = .ok i) : step s = exec i (s.setInbox rest) := by
  simp [step, hi, hd, takeInput]

theorem step_illegal (s : State) (w : Word) (rest : List HostEvent) (e : Illegal) (hi : s.inbox = .command w :: rest)
    (hd : decode w = .error e) : step s = illegalCommand w (s.setInbox rest) := by
  simp [step, hi, hd, takeInput]

theorem step_idle (s : State) (hi : s.inbox = []) : step s = .next s := by
  simp [step, hi, idle]

end Sys2Proof.Machine
end

