-- ==== Sys2Proof/Laws/Heap.lean ====
section
/-! SUPPORT. The heap array: what a swap, the two sift loops, an insertion and an extraction do to the list of slots. -/

namespace Sys2Proof.Machine

section Slots

variable (h : List NodeIdx)

theorem slot_eq_getElem {k : Nat} (hk : k < h.length) : slot h k = h[k] := by
  simp [slot, hk]

theorem slot_mem {k : Nat} (hk : k < h.length) : slot h k ∈ h := by
  rw [slot_eq_getElem h hk]; exact List.getElem_mem hk

theorem slot_set (i k : Nat) (v : NodeIdx) (hi : i < h.length) :
    slot (h.set i v) k = if k = i then v else slot h k := by
  unfold slot
  by_cases hk : k = i
  · subst hk; simp [hi]
  · simp [hk, Ne.symm hk]

@[simp] theorem length_swapSlots (i j : Nat) : (swapSlots h i j).length = h.length := by simp [swapSlots]

theorem slot_swapSlots {i j : Nat} (k : Nat) (hi : i < h.length) (hj : j < h.length) :
    slot (swapSlots h i j) k = if k = j then slot h i else if k = i then slot h j else slot h k := by
  unfold swapSlots
  rw [slot_set _ _ _ _ (by simpa using hj), slot_set _ _ _ _ hi]

theorem swapSlots_perm {i j : Nat} (hi : i < h.length) (hj : j < h.length) : (swapSlots h i j).Perm h := by
  unfold swapSlots
  rw [slot_eq_getElem h hi, slot_eq_getElem h hj]
  exact List.set_set_perm hi hj

theorem slot_append_left (l : List NodeIdx) {k : Nat} (hk : k < h.length) : slot (h ++ l) k = slot h k := by
  simp [slot, List.getElem?_append_left hk]

theorem slot_append_length (i : NodeIdx) : slot (h ++ [i]) h.length = i := by
  simp [slot]

theorem slot_dropLast {k : Nat} (hk : k < h.length - 1) : slot h.dropLast k = slot h k := by
  rw [slot_eq_getElem _ (by simpa using hk), slot_eq_getElem _ (by omega), List.getElem_dropLast]

end Slots

variable (wt : NodeIdx → Weight)

theorem siftUp_perm (fuel : Nat) (h : List NodeIdx) (k : Nat) (hk : k < h.length) : (siftUp wt fuel h k).Perm h := by
  induction fuel generalizing h k with
  | zero => exact List.Perm.refl _
  | succ fuel ih =>
    unfold siftUp
    split
    · exact List.Perm.refl _
    · dsimp only
      split
      · exact (ih _ _ (by simp; omega)).trans (swapSlots_perm h hk (by omega))
      · exact List.Perm.refl _

theorem siftDown_perm (fuel : Nat) (h : List NodeIdx) (k : Nat) (hk : k < h.length) : (siftDown wt fuel h k).Perm h := by
  induction fuel generalizing h k with
  | zero => exact List.Perm.refl _
  | succ fuel ih =>
    unfold siftDown
    dsimp only
    split
    · exact List.Perm.refl _
    · have hc : lighterChild wt h k < h.length := by
        unfold lighterChild
        dsimp only
        split <;> (try split) <;> omega
      exact (ih _ _ (by simpa using hc)).trans (swapSlots_perm h hk hc)

/-- Ordered everywhere but between slot `k` and its parent, and slot `k`'s children do not undercut that parent: what the
loop of `HeapInsert` keeps true. -/
def UpOrdered (h : List NodeIdx) (k : Nat) : Prop :=
  (∀ j < h.length, 1 ≤ j → j ≠ k → wt (slot h (parentSlot j)) ≤ wt (slot h j)) ∧
  (∀ j < h.length, 1 ≤ k → parentSlot j = k → 1 ≤ j → wt (slot h (parentSlot k)) ≤ wt (slot h j))

theorem siftUp_ordered (fuel : Nat) (h : List NodeIdx) (k : Nat) (hf : k ≤ fuel) (hk : k < h.length)
    (ho : UpOrdered wt h k) : HeapOrdered wt (siftUp wt fuel h k) := by
  induction fuel generalizing h k with
  | zero =>
    have : k = 0 := by omega
    subst this
    intro j hj h1
    exact ho.1 j hj h1 (by omega)
  | succ fuel ih =>
    unfold siftUp
    split
    · rename_i h0
      subst h0
      intro j hj h1
      exact ho.1 j hj h1 (by omega)
    · rename_i h0
      dsimp only
      have hp : (k - 1) / 2 < h.length := by omega
      split
      · rename_i hlt
        apply ih
        · omega
        · simpa using hp
        · refine ⟨?_, ?_⟩
          · intro j hj h1 hjp
            simp only [length_swapSlots] at hj
            have hpj : parentSlot j < h.length := by unfold parentSlot; omega
            rw [slot_swapSlots h _ hk hp, slot_swapSlots h _ hk hp]
            by_cases hjk : j = k
            · subst hjk
              rw [if_neg hjp, if_pos rfl, if_pos (show parentSlot j = (j - 1) / 2 from rfl)]
              exact BitVec.le_of_lt hlt
            · rw [if_neg hjp, if_neg hjk]
              by_cases h2 : parentSlot j = (k - 1) / 2
              · rw [if_pos h2]
                refine BitVec.le_trans (BitVec.le_of_lt hlt) ?_
                have := ho.1 j hj h1 hjk
                rwa [h2] at this
              · rw [if_neg h2]
                by_cases h3 : parentSlot j = k
                · rw [if_pos h3]
                  exact ho.2 j hj (by omega) h3 h1
                · rw [if_neg h3]
                  exact ho.1 j hj h1 hjk
          · intro j hj h1 hjp hj1
            simp only [length_swapSlots] at hj
            have hgp : parentSlot ((k - 1) / 2) ≠ (k - 1) / 2 := by unfold parentSlot; omega
            have hgk : parentSlot ((k - 1) / 2) ≠ k := by unfold parentSlot; omega
            have hpp : wt (slot h (parentSlot ((k - 1) / 2))) ≤ wt (slot h ((k - 1) / 2)) :=
              ho.1 _ hp h1 (by omega)
            rw [slot_swapSlots h _ hk hp, slot_swapSlots h _ hk hp, if_neg hgp, if_neg hgk]
            have hjne : j ≠ (k - 1) / 2 := by
              intro hc; rw [hc] at hjp; exact hgp hjp
            rw [if_neg hjne]
            by_cases hjk : j = k
            · rw [if_pos hjk]; exact hpp
            · rw [if_neg hjk]
              refine BitVec.le_trans hpp ?_
              have := ho.1 j hj hj1 hjk
              rwa [hjp] at this
      · rename_i hlt
        intro j hj h1
        by_cases hjk : j = k
        · subst hjk
          exact BitVec.not_lt.mp hlt
        · exact ho.1 j hj h1 hjk

/-- Ordered everywhere but between slot `k` and its children, and slot `k`'s parent undercuts those children: what the loop
of `HeapExtract` keeps true. -/
def DownOrdered (h : List NodeIdx) (k : Nat) : Prop :=
  (∀ j < h.length, 1 ≤ j → parentSlot j ≠ k → wt (slot h (parentSlot j)) ≤ wt (slot h j)) ∧
  (∀ j < h.length, 1 ≤ k → parentSlot j = k → 1 ≤ j → wt (slot h (parentSlot k)) ≤ wt (slot h j))

/-- What `lighterChild` answers: `k` itself when no child is strictly lighter, otherwise a child, strictly lighter than
slot `k` and not heavier than the other. -/
theorem lighterChild_spec (h : List NodeIdx) (k : Nat) :
    (lighterChild wt h k = k ∧ ∀ j < h.length, 1 ≤ j → parentSlot j = k → wt (slot h k) ≤ wt (slot h j)) ∨
    (lighterChild wt h k < h.length ∧ k < lighterChild wt h k ∧ parentSlot (lighterChild wt h k) = k ∧
      wt (slot h (lighterChild wt h k)) < wt (slot h k) ∧
      ∀ j < h.length, 1 ≤ j → parentSlot j = k → wt (slot h (lighterChild wt h k)) ≤ wt (slot h j)) := by
  have kids : ∀ j, 1 ≤ j → parentSlot j = k → j = 2 * k + 1 ∨ j = 2 * k + 2 := by
    intro j h1 hp; unfold parentSlot at hp; omega
  unfold lighterChild
  dsimp only
  by_cases hl : 2 * k + 1 < h.length ∧ wt (slot h (2 * k + 1)) < wt (slot h k)
  · rw [if_pos hl]
    right
    by_cases hr : 2 * k + 2 < h.length ∧ wt (slot h (2 * k + 2)) < wt (slot h (2 * k + 1))
    · rw [if_pos hr]
      refine ⟨hr.1, by omega, by unfold parentSlot; omega, BitVec.lt_trans hr.2 hl.2, ?_⟩
      intro j hj h1 hp
      rcases kids j h1 hp with rfl | rfl
      · exact BitVec.le_of_lt hr.2
      · exact BitVec.le_refl _
    · rw [if_neg hr]
      refine ⟨hl.1, by omega, by unfold parentSlot; omega, hl.2, ?_⟩
      intro j hj h1 hp
      rcases kids j h1 hp with rfl | rfl
      · exact BitVec.le_refl _
      · exact BitVec.not_lt.mp (fun hc => hr ⟨hj, hc⟩)
  · rw [if_neg hl]
    by_cases hr : 2 * k + 2 < h.length ∧ wt (slot h (2 * k + 2)) < wt (slot h k)
    · rw [if_pos hr]
      right
      refine ⟨hr.1, by omega, by unfold parentSlot; omega, hr.2, ?_⟩
      intro j hj h1 hp
      rcases kids j h1 hp with rfl | rfl
      · exact BitVec.le_trans (BitVec.le_of_lt hr.2) (BitVec.not_lt.mp (fun hc => hl ⟨hj, hc⟩))
      · exact BitVec.le_refl _
    · rw [if_neg hr]
      left
      refine ⟨rfl, ?_⟩
      intro j hj h1 hp
      rcases kids j h1 hp with rfl | rfl
      · exact BitVec.not_lt.mp (fun hc => hl ⟨hj, hc⟩)
      · exact BitVec.not_lt.mp (fun hc => hr ⟨hj, hc⟩)

theorem siftDown_ordered (fuel : Nat) (h : List NodeIdx) (k : Nat) (hf : h.length ≤ k + fuel)
    (ho : DownOrdered wt h k) : HeapOrdered wt (siftDown wt fuel h k) := by
  induction fuel generalizing h k with
  | zero =>
    intro j hj h1
    simp only [siftDown] at hj ⊢
    exact ho.1 j hj h1 (by unfold parentSlot; omega)
  | succ fuel ih =>
    unfold siftDown
    dsimp only
    rcases lighterChild_spec wt h k with ⟨hc, hle⟩ | ⟨hc, hkc, hpc, hlt, hle⟩
    · rw [if_pos hc]
      intro j hj h1
      by_cases hp : parentSlot j = k
      · rw [hp]; exact hle j hj h1 hp
      · exact ho.1 j hj h1 hp
    · rw [if_neg (by omega)]
      generalize lighterChild wt h k = c at *
      have hk : k < h.length := by omega
      apply ih
      · simp; omega
      · refine ⟨?_, ?_⟩
        · intro j hj h1 hpj
          simp only [length_swapSlots] at hj
          rw [slot_swapSlots h _ hk hc, slot_swapSlots h _ hk hc, if_neg hpj]
          by_cases hjc : j = c
          · subst hjc
            rw [if_pos hpc, if_pos rfl]
            exact BitVec.le_of_lt hlt
          · rw [if_neg hjc]
            by_cases hjk : j = k
            · subst hjk
              have : parentSlot j ≠ j := by unfold parentSlot; omega
              rw [if_neg this, if_pos rfl]
              exact ho.2 c hc h1 hpc (by omega)
            · rw [if_neg hjk]
              by_cases hp : parentSlot j = k
              · rw [if_pos hp]; exact hle j hj h1 hp
              · rw [if_neg hp]; exact ho.1 j hj h1 hp
        · intro j hj _ hpj h1
          simp only [length_swapSlots] at hj
          have hjc : j ≠ c := by unfold parentSlot at hpj; omega
          have hjk : j ≠ k := by unfold parentSlot at hpj; omega
          rw [slot_swapSlots h _ hk hc, slot_swapSlots h _ hk hc, hpc, if_neg (by omega), if_pos rfl, if_neg hjc, if_neg hjk]
          have := ho.1 j hj h1 (by omega)
          rwa [hpj] at this

/-- `HeapInsert` (R123): the contents gain exactly the new entry. -/
theorem heapPush_perm (h : List NodeIdx) (i : NodeIdx) : (heapPush wt h i).Perm (i :: h) := by
  unfold heapPush
  exact (siftUp_perm wt _ _ _ (by simp)).trans (List.perm_append_singleton i h)

@[simp] theorem length_heapPush (h : List NodeIdx) (i : NodeIdx) : (heapPush wt h i).length = h.length + 1 := by
  simpa using (heapPush_perm wt h i).length_eq

/-- `HeapInsert` (R123) restores the heap order. -/
theorem heapPush_ordered (h : List NodeIdx) (i : NodeIdx) (ho : HeapOrdered wt h) : HeapOrdered wt (heapPush wt h i) := by
  unfold heapPush
  apply siftUp_ordered
  · exact Nat.le_refl _
  · simp
  · refine ⟨?_, ?_⟩
    · intro j hj h1 hjk
      have hj' : j < h.length := by simp at hj; omega
      rw [slot_append_left h _ hj', slot_append_left h _ (by unfold parentSlot; omega)]
      exact ho j hj' h1
    · intro j hj _ hp _
      simp at hj
      unfold parentSlot at hp
      omega

theorem heapPop_nil : heapPop wt [] = [] := rfl

/-- `HeapExtract` (R124) takes exactly slot 0's entry from the contents. -/
theorem heapPop_perm (h : List NodeIdx) (hne : h ≠ []) : (slot h 0 :: heapPop wt h).Perm h := by
  unfold heapPop
  match h, hne with
  | [a], _ => simp [slot, siftDown, lighterChild]
  | a :: b :: l, _ =>
    have hlen : (a :: b :: l).length - 1 = l.length + 1 := by simp
    have hlast : slot (a :: b :: l) ((a :: b :: l).length - 1) = (b :: l).getLast (by simp) := by
      rw [slot_eq_getElem _ (by simp)]
      simp [List.getLast_eq_getElem]
    have hset : (a :: b :: l).dropLast.set 0 (slot (a :: b :: l) ((a :: b :: l).length - 1)) =
        (b :: l).getLast (by simp) :: (b :: l).dropLast := by
      rw [hlast]; simp
    rw [hset]
    have h1 := siftDown_perm wt (a :: b :: l).length ((b :: l).getLast (by simp) :: (b :: l).dropLast) 0 (by simp)
    have h2 : ((b :: l).getLast (by simp) :: (b :: l).dropLast).Perm (b :: l) := by
      have := List.dropLast_append_getLast (l := b :: l) (by simp)
      calc ((b :: l).getLast (by simp) :: (b :: l).dropLast).Perm ((b :: l).dropLast ++ [(b :: l).getLast (by simp)]) :=
            (List.perm_append_singleton _ _).symm
        _ = b :: l := this
    simpa [slot] using (h1.trans h2).cons a

@[simp] theorem length_heapPop (h : List NodeIdx) : (heapPop wt h).length = h.length - 1 := by
  by_cases hne : h = []
  · subst hne; rfl
  · have := (heapPop_perm wt h hne).length_eq
    simp at this; omega

/-- `HeapExtract` (R124) restores the heap order. -/
theorem heapPop_ordered (h : List NodeIdx) (ho : HeapOrdered wt h) : HeapOrdered wt (heapPop wt h) := by
  unfold heapPop
  apply siftDown_ordered
  · simp
  · refine ⟨?_, ?_⟩
    · intro j hj h1 hp
      simp only [List.length_set, List.length_dropLast] at hj
      have h0 : 0 < h.dropLast.length := by simp; omega
      rw [slot_set _ _ _ _ h0, slot_set _ _ _ _ h0, if_neg hp, if_neg (by omega), slot_dropLast h hj,
        slot_dropLast h (by unfold parentSlot; omega)]
      exact ho j (by omega) h1
    · intro j _ hk; omega

/-- Slot 0 of an ordered heap holds a minimum (R124: "`W(m)` is the minimum weight in the heap"). -/
theorem slot_zero_le (h : List NodeIdx) (ho : HeapOrdered wt h) (k : Nat) (hk : k < h.length) :
    wt (slot h 0) ≤ wt (slot h k) := by
  induction k using Nat.strongRecOn with
  | _ k ih =>
    by_cases h0 : k = 0
    · subst h0; exact BitVec.le_refl _
    · have hp : parentSlot k < k := by unfold parentSlot; omega
      exact BitVec.le_trans (ih _ hp (by omega)) (ho k hk (by omega))

theorem heapMin_le (h : List NodeIdx) (ho : HeapOrdered wt h) (i : NodeIdx) (hi : i ∈ h) : wt (slot h 0) ≤ wt i := by
  obtain ⟨k, hk, rfl⟩ := List.mem_iff_getElem.mp hi
  rw [← slot_eq_getElem h hk]
  exact slot_zero_le wt h ho k hk

/-- The sift loops look only at the weights of the entries in the heap. -/
theorem siftUp_congr {wt wt' : NodeIdx → Weight} (fuel : Nat) (h : List NodeIdx) (k : Nat) (hk : k < h.length)
    (hw : ∀ i ∈ h, wt i = wt' i) : siftUp wt fuel h k = siftUp wt' fuel h k := by
  induction fuel generalizing h k with
  | zero => rfl
  | succ fuel ih =>
    unfold siftUp
    dsimp only
    have hp : (k - 1) / 2 < h.length := by omega
    rw [hw _ (slot_mem h hk), hw _ (slot_mem h hp)]
    split
    · rfl
    · split
      · exact ih _ _ (by simpa using hp) (fun i hi => hw i ((swapSlots_perm h hk hp).mem_iff.mp hi))
      · rfl

theorem lighterChild_congr {wt wt' : NodeIdx → Weight} (h : List NodeIdx) (k : Nat) (hk : k < h.length)
    (hw : ∀ i ∈ h, wt i = wt' i) : lighterChild wt h k = lighterChild wt' h k := by
  have e : ∀ j < h.length, wt (slot h j) = wt' (slot h j) := fun j hj => hw _ (slot_mem h hj)
  unfold lighterChild
  dsimp only
  have hl : (2 * k + 1 < h.length ∧ wt (slot h (2 * k + 1)) < wt (slot h k)) ↔
      (2 * k + 1 < h.length ∧ wt' (slot h (2 * k + 1)) < wt' (slot h k)) := by
    constructor <;> rintro ⟨h1, h2⟩ <;> refine ⟨h1, ?_⟩ <;> simpa [e _ h1, e _ hk] using h2
  by_cases h1 : 2 * k + 1 < h.length ∧ wt (slot h (2 * k + 1)) < wt (slot h k)
  · rw [if_pos h1, if_pos (hl.mp h1)]
    by_cases h2 : 2 * k + 2 < h.length
    · rw [e _ h2, e _ h1.1]
    · simp [h2]
  · rw [if_neg h1, if_neg (fun h => h1 (hl.mpr h))]
    by_cases h2 : 2 * k + 2 < h.length
    · rw [e _ h2, e _ hk]
    · simp [h2]

theorem siftDown_congr {wt wt' : NodeIdx → Weight} (fuel : Nat) (h : List NodeIdx) (k : Nat) (hk : k < h.length)
    (hw : ∀ i ∈ h, wt i = wt' i) : siftDown wt fuel h k = siftDown wt' fuel h k := by
  induction fuel generalizing h k with
  | zero => rfl
  | succ fuel ih =>
    unfold siftDown
    dsimp only
    rw [lighterChild_congr h k hk hw]
    split
    · rfl
    · have hc : lighterChild wt' h k < h.length := by
        rcases lighterChild_spec wt' h k with ⟨hc, _⟩ | ⟨hc, _⟩ <;> omega
      exact ih _ _ (by simpa using hc) (fun i hi => hw i ((swapSlots_perm h hk hc).mem_iff.mp hi))

theorem heapPush_congr {wt wt' : NodeIdx → Weight} (h : List NodeIdx) (i : NodeIdx) (hw : ∀ j ∈ i :: h, wt j = wt' j) :
    heapPush wt h i = heapPush wt' h i := by
  unfold heapPush
  exact siftUp_congr _ _ _ (by simp) (fun j hj => hw j (by simp at hj ⊢; tauto))

theorem heapPop_congr {wt wt' : NodeIdx → Weight} (h : List NodeIdx) (hw : ∀ j ∈ h, wt j = wt' j) :
    heapPop wt h = heapPop wt' h := by
  unfold heapPop
  by_cases hd : h.dropLast = []
  · rw [hd]
    simp only [List.set_nil]
    cases h <;> simp [siftDown, lighterChild]
  · have hpos : 0 < h.dropLast.length := List.length_pos_iff.mpr hd
    apply siftDown_congr _ _ _ (by simpa using hpos)
    intro i hi
    rcases List.mem_or_eq_of_mem_set hi with h1 | h1
    · exact hw i (List.mem_of_mem_dropLast h1)
    · rw [h1]
      apply hw
      apply slot_mem
      simp at hpos; omega

theorem HeapOrdered.congr {wt wt' : NodeIdx → Weight} {h : List NodeIdx} (ho : HeapOrdered wt h)
    (hw : ∀ j ∈ h, wt j = wt' j) : HeapOrdered wt' h := by
  intro k hk h1
  have hp : parentSlot k < h.length := by unfold parentSlot; omega
  rw [← hw _ (slot_mem h hk), ← hw _ (slot_mem h hp)]
  exact ho k hk h1

end Sys2Proof.Machine
end

