-- ==== Sys2Proof/Laws/HostProc.lean ====
section
/-! SUPPORT. The host procedures: what issuing one command does, and everything `call`, `query` and `callAll` can answer,
success or failure. -/

namespace Sys2Proof.Machine

variable {s t : State}

/-- A word presented as the next input is the one the step executes (R275). -/
theorem step_presentWord (s : State) (w : Word) (i : Instr) (hd : decode w = .ok i) : step (presentWord s w) = exec i s := by
  rw [step_command _ w s.inbox i rfl hd]; rfl

/-- Issuing a command leaves the state its execution leaves. -/
theorem issue_eq (i : Instr) (hd : decode (encode i) = .ok i) (h : exec i s = .next t) : issue s i = t := by
  unfold issue issueWord
  rw [step_presentWord s _ i hd, h]

@[simp] theorem issueAll_nil : issueAll s [] = s := rfl

@[simp] theorem issueAll_cons (i : Instr) (is : List Instr) : issueAll s (i :: is) = issueAll (issue s i) is := rfl

theorem issueAll_append (is js : List Instr) : issueAll s (is ++ js) = issueAll (issueAll s is) js := by
  simp [issueAll, List.foldl_append]

/-- A command that must answer `OK` succeeds exactly when it does, with the state it left. -/
theorem call_ok_iff (i : Instr) : call s i = .ok t ↔ t = issue s i ∧ ∃ rd, t.lastResp = some ⟨.ok, rd⟩ := by
  unfold call
  constructor
  · intro h
    dsimp only at h
    split at h
    · rename_i rd hr; cases h; exact ⟨rfl, rd, hr⟩
    · cases h
    · cases h
  · rintro ⟨rfl, rd, hr⟩
    dsimp only
    rw [hr]

/-- A command that fails a host procedure leaves the block as its execution left it, a block fault included. -/
theorem call_error (i : Instr) (f : HostFailure) (h : call s i = .error f) :
    f.state = issue s i ∧ ∀ r, (issue s i).lastResp = some r → r.st ≠ .ok ∧ f.code = r.rd.setWidth 4 := by
  unfold call at h
  dsimp only at h
  split at h
  · cases h
  · rename_i r hne hr
    cases h
    refine ⟨rfl, fun r' hr' => ?_⟩
    rw [hr] at hr'
    cases hr'
    exact ⟨fun hs => hne r.rd (by rw [← hs]), rfl⟩
  · rename_i hr
    cases h
    exact ⟨rfl, fun r' hr' => by rw [hr] at hr'; cases hr'⟩

@[simp] theorem callAll_nil : callAll s [] = .ok s := rfl

theorem callAll_cons (i : Instr) (is : List Instr) : callAll s (i :: is) = call s i >>= fun t => callAll t is := rfl

/-- Commands that all succeed leave what issuing them in order leaves. -/
theorem callAll_ok (is : List Instr) (h : callAll s is = .ok t) : t = issueAll s is := by
  induction is generalizing s with
  | nil => cases h; rfl
  | cons i is ih =>
    rw [callAll_cons] at h
    cases hc : call s i with
    | error e => rw [hc] at h; cases h
    | ok u =>
      rw [hc] at h
      rw [issueAll_cons, ← ((call_ok_iff i).mp hc).1]
      exact ih h

/-- Commands of which one fails leave what issuing those up to it leaves. -/
theorem callAll_error (is : List Instr) (f : HostFailure) (h : callAll s is = .error f) :
    ∃ pre i, (pre ++ [i]) <+: is ∧ f.state = issueAll s (pre ++ [i]) := by
  induction is generalizing s with
  | nil => cases h
  | cons i is ih =>
    rw [callAll_cons] at h
    cases hc : call s i with
    | error e =>
      rw [hc] at h
      cases h
      exact ⟨[], i, ⟨is, rfl⟩, (call_error i _ hc).1⟩
    | ok u =>
      rw [hc] at h
      obtain ⟨pre, j, ⟨post, hp⟩, hs⟩ := ih h
      refine ⟨i :: pre, j, ⟨post, by rw [← hp]; rfl⟩, ?_⟩
      rw [hs, ((call_ok_iff i).mp hc).1]; rfl

/-- A read command's answer, with the state it left. -/
theorem query_ok (i : Instr) (rd : Option Word) (h : query s i = .ok (rd, t)) :
    t = issue s i ∧ ((∃ w, rd = some w ∧ t.lastResp = some ⟨.ok, w⟩) ∨ (rd = none ∧ ∃ w, t.lastResp = some ⟨.none, w⟩)) := by
  unfold query at h
  dsimp only at h
  split at h
  · rename_i w hr; cases h; exact ⟨rfl, .inl ⟨w, rfl, hr⟩⟩
  · rename_i w hr; cases h; exact ⟨rfl, .inr ⟨rfl, w, hr⟩⟩
  · cases h
  · cases h

end Sys2Proof.Machine
end

