-- ==== Sys2Proof/Laws/Packer.lean ====
section
/-! SUPPORT. The packer as a bit sequence (10_state.md R34): appending bits moves whole bytes to `PK_OUT` and keeps the
rest pending; nothing else of the state changes. -/

namespace Sys2Proof.Machine

variable (s : State)

/-- The bits of the partial byte, earliest first (R34). -/
def State.pending (s : State) : List Bool := (List.range s.pkCnt.toNat).map s.pkAcc.getLsbD

/-- A byte sequence as bits, least significant bit of each byte first (20_memory.md R63). -/
def bitsOf (bytes : List Byte) : List Bool := bytes.flatMap byteBits

@[simp] theorem length_pending : s.pending.length = s.pkCnt.toNat := by simp [State.pending]

@[simp] theorem length_bitsOf (l : List Byte) : (bitsOf l).length = 8 * l.length := by
  induction l with
  | nil => rfl
  | cons a l ih => simp only [bitsOf, List.flatMap_cons, List.length_append, length_byteBits, List.length_cons] at ih ⊢; omega

theorem bitsOf_append (l m : List Byte) : bitsOf (l ++ m) = bitsOf l ++ bitsOf m := by simp [bitsOf]

@[simp] theorem bitsOf_singleton (v : Byte) : bitsOf [v] = byteBits v := by simp [bitsOf]

/-- `streamBit` reads `bitsOf`. -/
theorem streamBit_eq (P : List Byte) (n : Nat) : streamBit P n = (bitsOf P).getD n false := by
  induction P generalizing n with
  | nil => simp [streamBit, bitsOf]
  | cons a l ih =>
    have hc : bitsOf (a :: l) = byteBits a ++ bitsOf l := by simp [bitsOf]
    rw [hc]
    by_cases hn : n < 8
    · have h8 : n / 8 = 0 := by omega
      rw [List.getD_append _ _ _ _ (by simpa using hn)]
      simp [streamBit, h8, byteBits, hn, Nat.mod_eq_of_lt hn]
    · rw [List.getD_append_right _ _ _ _ (by simp; omega)]
      rw [length_byteBits, ← ih (n - 8)]
      have hd : n / 8 = (n - 8) / 8 + 1 := by omega
      have hm : n % 8 = (n - 8) % 8 := by omega
      simp [streamBit, hd, hm]

/-- Bytes whose bits are `B` and then fewer than eight 0 bits are the packed form of `B`. -/
theorem isPacked_of_bitsOf {B : List Bool} {P : List Byte} {k : Nat} (h : bitsOf P = B ++ List.replicate k false)
    (hk : k < 8) : IsPacked B P := by
  have hl := congrArg List.length h
  simp at hl
  refine ⟨by omega, ?_⟩
  intro n _
  rw [streamBit_eq, h]
  by_cases hn : n < B.length
  · rw [List.getD_append _ _ _ _ hn]
  · rw [List.getD_append_right _ _ _ _ (by omega)]
    simp [List.getD_eq_getElem?_getD, List.getElem?_eq_none (by omega : B.length ≤ n), List.getElem?_replicate]
    split <;> rfl

/-- The packed form is unique. -/
theorem isPacked_unique {B : List Bool} {P Q : List Byte} (hp : IsPacked B P) (hq : IsPacked B Q) : P = Q := by
  have hlen : P.length = Q.length := hp.1.trans hq.1.symm
  have hbits : bitsOf P = bitsOf Q := by
    apply List.ext_getElem (by simp [hlen])
    intro n h1 h2
    have e1 := hp.2 n (by simpa using h1)
    have e2 := hq.2 n (by simpa using h2)
    rw [streamBit_eq, List.getD_eq_getElem _ _ h1] at e1
    rw [streamBit_eq, List.getD_eq_getElem _ _ h2] at e2
    rw [e1, e2]
  clear hp hq
  induction P generalizing Q with
  | nil => cases Q <;> simp_all
  | cons a l ih =>
    cases Q with
    | nil => simp at hlen
    | cons b m =>
      have hc : ∀ (v : Byte) (r : List Byte), bitsOf (v :: r) = byteBits v ++ bitsOf r := fun v r => by simp [bitsOf]
      rw [hc, hc] at hbits
      obtain ⟨h1, h2⟩ := List.append_inj hbits (by simp)
      have hab : a = b := eq_of_lowBits (k := 8) a.isLt b.isLt h1
      rw [hab, ih (by simpa using hlen) h2]

/-- Everything but the packer's registers and its port. -/
def State.notPacker (s : State) : State := { s with pkAcc := 0, pkCnt := 0, pkOut := [] }

theorem toNat_succ_cnt (h : s.pkCnt ≠ 7) : (s.pkCnt + 1).toNat = s.pkCnt.toNat + 1 := by
  have h7 : s.pkCnt.toNat ≠ 7 := fun hc => h (BitVec.eq_of_toNat_eq (by simpa using hc))
  rw [BitVec.toNat_add]
  have := s.pkCnt.isLt
  simp; omega

/-- `PackBit(b)` (44_bit_packer.md R211) as a step on the bit sequence. -/
theorem packBit_spec (b : Bool) (h : PackOk s) :
    PackOk (packBit s b) ∧ (packBit s b).notPacker = s.notPacker ∧
      ∃ out, (packBit s b).pkOut = s.pkOut ++ out ∧ bitsOf out ++ (packBit s b).pending = s.pending ++ [b] := by
  have hlt : s.pkCnt.toNat < 8 := s.pkCnt.isLt
  have hw : (writeBit s.pkAcc s.pkCnt.toNat b).toNat < 2 ^ (s.pkCnt.toNat + 1) := writeBit_lt _ _ _ h
  unfold packBit
  dsimp only
  split
  · rename_i h7
    refine ⟨by simp [PackOk], rfl, [writeBit s.pkAcc s.pkCnt.toNat b], rfl, ?_⟩
    have hc : s.pkCnt.toNat = 7 := by rw [h7]; rfl
    have hb := lowBits_writeBit s.pkAcc s.pkCnt.toNat b hlt
    rw [hc] at hb
    rw [bitsOf_singleton]
    simp only [byteBits, State.pending, hc, State.setPk_pkCnt]
    rw [hb]
    simp
  · rename_i h7
    have hs := toNat_succ_cnt s h7
    refine ⟨?_, rfl, [], by simp, ?_⟩
    · simp only [PackOk, State.setPk_pkAcc, State.setPk_pkCnt, hs]; exact hw
    · simp only [State.pending, State.setPk_pkCnt, State.setPk_pkAcc, hs]
      rw [lowBits_writeBit _ _ _ hlt]
      simp [bitsOf]

/-- `PackBit` of each bit in order (R212, R213): whole bytes go out, the rest is pending, in order. -/
theorem packBits_spec (bits : List Bool) (h : PackOk s) :
    PackOk (packBits s bits) ∧ (packBits s bits).notPacker = s.notPacker ∧
      ∃ out, (packBits s bits).pkOut = s.pkOut ++ out ∧ bitsOf out ++ (packBits s bits).pending = s.pending ++ bits := by
  induction bits generalizing s with
  | nil => exact ⟨h, rfl, [], by simp [packBits], by simp [packBits, bitsOf]⟩
  | cons b bits ih =>
    obtain ⟨h1, h2, out1, h3, h4⟩ := packBit_spec s b h
    obtain ⟨g1, g2, out2, g3, g4⟩ := ih (packBit s b) h1
    have hstep : packBits s (b :: bits) = packBits (packBit s b) bits := rfl
    rw [hstep]
    refine ⟨g1, g2.trans h2, out1 ++ out2, by rw [g3, h3, List.append_assoc], ?_⟩
    rw [bitsOf_append, List.append_assoc, g4, ← List.append_assoc, h4]
    simp

/-- The flush of `PACK.END` (R213): the pending bits and fewer than eight 0 bits make up the last byte, if any are pending. -/
theorem packFlush_spec (h : PackOk s) :
    (packFlush s).pkAcc = 0 ∧ (packFlush s).pkCnt = 0 ∧ (packFlush s).notPacker = s.notPacker ∧
      ∃ out k, (packFlush s).pkOut = s.pkOut ++ out ∧ k < 8 ∧ bitsOf out = s.pending ++ List.replicate k false := by
  unfold packFlush
  split
  · rename_i h0
    have hlt : s.pkCnt.toNat < 8 := s.pkCnt.isLt
    have hpos : s.pkCnt.toNat ≠ 0 := fun hc => h0 (BitVec.eq_of_toNat_eq (by simpa using hc))
    refine ⟨rfl, rfl, rfl, [s.pkAcc], 8 - s.pkCnt.toNat, rfl, by omega, ?_⟩
    have hz := (toNat_lt_twoPow_iff s.pkAcc s.pkCnt.toNat).mp h
    rw [bitsOf_singleton]
    apply List.ext_getElem
    · simp; omega
    · intro j h1 h2
      simp at h1
      by_cases hj : j < s.pkCnt.toNat
      · rw [List.getElem_append_left (by simpa using hj)]
        simp [byteBits, State.pending]
      · rw [List.getElem_append_right (by simp; omega)]
        have := hz j (by omega)
        simp [byteBits]
        simpa [h1] using this
  · rename_i h0
    have h0' : s.pkCnt = 0 := not_not.mp h0
    have ha : s.pkAcc = 0 := by
      unfold PackOk at h
      rw [h0'] at h
      exact BitVec.eq_of_toNat_eq (by simpa using h)
    refine ⟨ha, h0', rfl, [], 0, by simp, by omega, ?_⟩
    simp [State.pending, h0', bitsOf]

end Sys2Proof.Machine
end

