-- ==== Sys2Proof/Laws/Table.lean ====
section
/-! SUPPORT. The codeword table: a write is read back and leaves every other symbol alone, the canonical form is kept, and
what `Match` finds. -/

namespace Sys2Proof.Machine

variable (s : State)

theorem entry_setEntry (x : Nat) (e : CtEntry) (y : Nat) :
    (s.setEntry x e).entry y = if y = x ∧ x < 257 then e else s.entry y := by
  unfold State.entry State.setEntry
  simp only [State.setCt_ct]
  by_cases hx : x < 257
  · by_cases hy : y < 257
    · by_cases hxy : y = x
      · subst hxy; simp [hy]
      · simp [hy, hxy, Ne.symm hxy]
    · simp [hy, hx]
      intro h; omega
  · by_cases hy : y < 257
    · simp [hx, hy, show x ≠ y by omega]
    · simp [hx, hy]

/-- Read after write. -/
theorem entry_setEntry_self (x : Nat) (e : CtEntry) (hx : x < 257) : (s.setEntry x e).entry x = e := by
  rw [entry_setEntry, if_pos ⟨rfl, hx⟩]

/-- A write leaves every other symbol alone. -/
theorem entry_setEntry_ne (x : Nat) (e : CtEntry) {y : Nat} (hy : y ≠ x) : (s.setEntry x e).entry y = s.entry y := by
  rw [entry_setEntry, if_neg (by tauto)]

@[simp] theorem entry_clearTable (x : Nat) : s.clearTable.entry x = CtEntry.empty := by
  unfold State.entry State.clearTable
  by_cases hx : x < 257 <;> simp [hx]

theorem entry_of_ge {x : Nat} (hx : 257 ≤ x) : s.entry x = CtEntry.empty := by
  unfold State.entry
  simp [show ¬ x < 257 by omega]

theorem entry_congr {s t : State} (h : t.ct = s.ct) (x : Nat) : t.entry x = s.entry x := by simp [State.entry, h]

theorem ctValid_lt {x : Nat} (h : s.ctValid x = true) : x < 257 := by
  by_contra hc
  rw [State.ctValid, entry_of_ge s (by omega)] at h
  cases h

/-- The canonical form of the table, entry by entry (10_state.md R32). -/
theorem table_wf_iff : s.ct.toList.all CtEntry.wf = true ↔ ∀ x, (s.entry x).wf = true := by
  rw [List.all_eq_true]
  constructor
  · intro h x
    by_cases hx : x < 257
    · have : s.entry x = s.ct[x] := by simp [State.entry, hx]
      rw [this]
      exact h _ (by simp)
    · rw [entry_of_ge s (by omega)]; exact CtEntry.empty_wf
  · intro h e he
    obtain ⟨x, hx, rfl⟩ := List.mem_iff_getElem.mp he
    have hx' : x < 257 := by simpa using hx
    have : s.entry x = s.ct[x] := by simp [State.entry, hx']
    have hw := h x
    rw [this] at hw
    simpa using hw

theorem memory_wf_iff : Memory.wf s = true ↔
    s.ncount ≤ 513 ∧ s.hsize ≤ 257 ∧ ∀ x, (s.entry x).wf = true := by
  rw [← table_wf_iff]
  simp [Memory.wf, State.ncount, State.hsize, and_assoc]

/-- Two tables that agree on every symbol are equal. -/
theorem ct_ext {s t : State} (h : ∀ x < 257, t.entry x = s.entry x) : t.ct = s.ct := by
  apply Vector.ext
  intro i hi
  have := h i hi
  simpa [State.entry, hi] using this

theorem table_wf_setEntry (x : Nat) (e : CtEntry) (he : e.wf = true) (h : ∀ y, (s.entry y).wf = true) :
    ∀ y, ((s.setEntry x e).entry y).wf = true := by
  intro y
  rw [entry_setEntry]
  split
  · exact he
  · exact h y

theorem table_wf_clearTable : ∀ y, (s.clearTable.entry y).wf = true := by
  intro y; rw [entry_clearTable]; exact CtEntry.empty_wf

/-- `Match(p)` (45_bit_unpacker.md R226): the symbols whose codeword equals `p`. -/
theorem mem_matchSyms (p : List Bool) (x : Nat) : x ∈ s.matchSyms p ↔ s.ctValid x = true ∧ s.codeOf x = p := by
  unfold State.matchSyms
  simp only [List.mem_map, List.mem_filter, Prod.exists, exists_eq_right, Bool.and_eq_true, beq_iff_eq]
  constructor
  · rintro ⟨e, he, hv, hb⟩
    have hx := List.mem_zipIdx_iff_getElem?.mp he
    have : s.entry x = e := by
      have hlt : x < 257 := by
        by_contra hc
        rw [List.getElem?_eq_none (by simpa using hc)] at hx
        cases hx
      have : s.ct.toList[x]? = some (s.ct[x]) := by simp [hlt]
      rw [this] at hx
      simpa [State.entry, hlt] using hx
    simp [State.ctValid, State.codeOf, this, hv, hb]
  · rintro ⟨hv, hb⟩
    have hx := ctValid_lt s hv
    refine ⟨s.entry x, ?_, hv, hb⟩
    rw [List.mem_zipIdx_iff_getElem?]
    simp [State.entry, hx]

theorem matchSyms_nodup (p : List Bool) : (s.matchSyms p).Nodup := by
  unfold State.matchSyms
  have h : (s.ct.toList.zipIdx.map (·.2)).Nodup := by
    rw [List.zipIdx_map_snd]
    exact List.nodup_range'
  exact h.sublist (List.filter_sublist.map _)

theorem matchSyms_congr {s t : State} (h : t.ct = s.ct) (p : List Bool) : t.matchSyms p = s.matchSyms p := by
  simp [State.matchSyms, h]

/-- Nothing matches. -/
theorem matchSyms_eq_nil_iff (p : List Bool) : s.matchSyms p = [] ↔ ∀ x, s.ctValid x = true → s.codeOf x ≠ p := by
  rw [List.eq_nil_iff_forall_not_mem]
  simp [mem_matchSyms]

/-- Exactly one symbol matches. -/
theorem matchSyms_eq_singleton (p : List Bool) (x : Nat) (hv : s.ctValid x = true) (hp : s.codeOf x = p)
    (hu : ∀ y, s.ctValid y = true → s.codeOf y = p → y = x) : s.matchSyms p = [x] := by
  have hm : ∀ y, y ∈ s.matchSyms p ↔ y = x := by
    intro y
    rw [mem_matchSyms]
    exact ⟨fun h => hu y h.1 h.2, fun h => h ▸ ⟨hv, hp⟩⟩
  have hn := matchSyms_nodup s p
  match hl : s.matchSyms p with
  | [] => rw [hl] at hm; exact absurd ((hm x).mpr rfl) (by simp)
  | [y] => rw [hl] at hm; rw [(hm y).mp (by simp)]
  | y :: z :: l =>
    rw [hl] at hm hn
    have h1 := (hm y).mp (by simp)
    have h2 := (hm z).mp (by simp)
    subst h1; subst h2
    simp at hn

end Sys2Proof.Machine
end

