-- ==== Sys2Proof/Laws/Nodes.lean ====
section
/-! SUPPORT. The node store: what allocation and a change of owner do to every entry, and what an insertion into and an
extraction from the heap leave alone. -/

namespace Sys2Proof.Machine

variable (s : State)

@[simp] theorem withOwn_kind (n : Node) (o : Owner) : (n.withOwn o).kind = n.kind := rfl
@[simp] theorem withOwn_sym (n : Node) (o : Owner) : (n.withOwn o).sym = n.sym := rfl
@[simp] theorem withOwn_weight (n : Node) (o : Owner) : (n.withOwn o).weight = n.weight := rfl
@[simp] theorem withOwn_left (n : Node) (o : Owner) : (n.withOwn o).left = n.left := rfl
@[simp] theorem withOwn_right (n : Node) (o : Owner) : (n.withOwn o).right = n.right := rfl
@[simp] theorem withOwn_withOwn (n : Node) (o p : Owner) : (n.withOwn o).withOwn p = n.withOwn p := rfl
@[simp] theorem withOwn_own (n : Node) (o : Owner) : (n.withOwn o).own = o := rfl

/-- `node` and `ncount` depend on the node store alone. -/
theorem node_congr {s t : State} (h : t.nodes = s.nodes) (i : Nat) : t.node i = s.node i := by
  simp [State.node, h]

theorem ncount_congr {s t : State} (h : t.nodes = s.nodes) : t.ncount = s.ncount := by
  simp [State.ncount, h]

theorem weightOf_congr {s t : State} (h : t.nodes = s.nodes) : t.weightOf = s.weightOf := by
  funext i; simp [State.weightOf, node_congr h]

theorem node_eq_getElem {i : Nat} (h : i < s.ncount) : s.node i = s.nodes[i]'h := by
  unfold State.ncount at h
  simp [State.node, h]

@[simp] theorem ncount_allocNode (n : Node) : (s.allocNode n).ncount = s.ncount + 1 := by
  simp [State.ncount, State.allocNode]

theorem node_allocNode (n : Node) {i : Nat} (h : i < s.ncount) : (s.allocNode n).node i = s.node i := by
  simp only [State.ncount] at h
  simp [State.node, State.allocNode, List.getElem?_append_left h]

@[simp] theorem node_allocNode_new (n : Node) : (s.allocNode n).node s.ncount = n := by
  simp [State.node, State.allocNode, State.ncount]

@[simp] theorem ncount_setOwn (i : Nat) (o : Owner) : (s.setOwn i o).ncount = s.ncount := by
  simp [State.ncount, State.setOwn]

theorem node_setOwn (j : Nat) (o : Owner) (i : Nat) (h : j < s.ncount) :
    (s.setOwn j o).node i = if i = j then (s.node i).withOwn o else s.node i := by
  simp only [State.ncount] at h
  simp only [State.node, State.setOwn, State.setNodes_nodes, List.getElem?_modify]
  by_cases hij : j = i
  · subst hij; simp [h]
  · simp [hij, Ne.symm hij]

@[simp] theorem weightOf_setOwn (j : Nat) (o : Owner) (i : NodeIdx) : (s.setOwn j o).weightOf i = s.weightOf i := by
  simp only [State.weightOf, State.node, State.setOwn, State.setNodes_nodes, List.getElem?_modify]
  by_cases hij : j = i.toNat
  · subst hij
    cases h : s.nodes[i.toNat]? <;> simp
  · simp [hij]

theorem weightOf_allocNode (n : Node) (i : NodeIdx) (h : i.toNat < s.ncount) :
    (s.allocNode n).weightOf i = s.weightOf i := by
  simp [State.weightOf, node_allocNode s n h]

theorem toNat_nextIdx (h : s.ncount < 1024) : s.nextIdx.toNat = s.ncount := by
  simp [State.nextIdx]; omega

/-- Counting after one entry is rewritten. -/
theorem countP_modify {α : Type} (p : α → Bool) (f : α → α) (l : List α) (i : Nat) (h : i < l.length) :
    (l.modify i f).countP p + (if p l[i] then 1 else 0) = l.countP p + (if p (f l[i]) then 1 else 0) := by
  induction l generalizing i with
  | nil => simp at h
  | cons a l ih =>
    cases i with
    | zero => simp [List.countP_cons]; omega
    | succ i =>
      have := ih i (by simpa using h)
      simp [List.countP_cons]
      omega

theorem countP_modify_of_eq {α : Type} (p : α → Bool) (f : α → α) (l : List α) (i : Nat) (hp : ∀ a, p (f a) = p a) :
    (l.modify i f).countP p = l.countP p := by
  by_cases h : i < l.length
  · have := countP_modify p f l i h
    rw [hp] at this
    omega
  · rw [List.modify_eq_self (by omega)]

/-! ### Which fields each operation touches -/

section Fields

variable (n : Node) (i : Nat) (x : NodeIdx) (o : Owner)

@[simp] theorem allocNode_nodes : (s.allocNode n).nodes = s.nodes ++ [n] := rfl
@[simp] theorem allocNode_heap : (s.allocNode n).heap = s.heap := rfl
@[simp] theorem allocNode_leafseen : (s.allocNode n).leafseen = s.leafseen := rfl
@[simp] theorem allocNode_root : (s.allocNode n).root = s.root := rfl
@[simp] theorem setOwn_heap : (s.setOwn i o).heap = s.heap := rfl
@[simp] theorem setOwn_leafseen : (s.setOwn i o).leafseen = s.leafseen := rfl
@[simp] theorem setOwn_root : (s.setOwn i o).root = s.root := rfl
@[simp] theorem heapInsert_nodes : (s.heapInsert x).nodes = s.nodes := rfl
@[simp] theorem heapInsert_heap : (s.heapInsert x).heap = heapPush s.weightOf s.heap x := rfl
@[simp] theorem heapInsert_leafseen : (s.heapInsert x).leafseen = s.leafseen := rfl
@[simp] theorem heapInsert_root : (s.heapInsert x).root = s.root := rfl
@[simp] theorem heapExtract_nodes : s.heapExtract.nodes = s.nodes := rfl
@[simp] theorem heapExtract_heap : s.heapExtract.heap = heapPop s.weightOf s.heap := rfl
@[simp] theorem heapExtract_leafseen : s.heapExtract.leafseen = s.leafseen := rfl
@[simp] theorem heapExtract_root : s.heapExtract.root = s.root := rfl

end Fields

/-- Everything but the node store, the heap array, `leafseen` and `root`: what no operation of the heap and the tree
builder touches. -/
def State.rest (s : State) : State := { s with nodes := [], heap := [], leafseen := State.reset.leafseen, root := 0 }

@[simp] theorem rest_setNodes (v : List Node) : (s.setNodes v).rest = s.rest := rfl
@[simp] theorem rest_setHeap (v : List NodeIdx) : (s.setHeap v).rest = s.rest := rfl
@[simp] theorem rest_setLeafseen (v : Vector Bool 257) : (s.setLeafseen v).rest = s.rest := rfl
@[simp] theorem rest_setRoot (v : NodeIdx) : (s.setRoot v).rest = s.rest := rfl
@[simp] theorem rest_allocNode (n : Node) : (s.allocNode n).rest = s.rest := rfl
@[simp] theorem rest_setOwn (i : Nat) (o : Owner) : (s.setOwn i o).rest = s.rest := rfl
@[simp] theorem rest_heapInsert (x : NodeIdx) : (s.heapInsert x).rest = s.rest := rfl
@[simp] theorem rest_heapExtract : s.heapExtract.rest = s.rest := rfl
@[simp] theorem rest_setLeafSeen (x : Nat) : (s.setLeafSeen x).rest = s.rest := rfl

end Sys2Proof.Machine
end

