-- ==== Sys2Proof/Laws/TreeBuild.lean ====
section
/-! SUPPORT. The tree builder: what joining two nodes does to the node store, and what one merge step answers
(41_tree_build.md R152). -/

namespace Sys2Proof.Machine

variable (s : State)

/-- `AllocNode` of an internal node over `a` and `b`, which become its children (R129, R152). -/
def State.join (a b : NodeIdx) (wt : Weight) (o : Owner) : State :=
  ((s.allocNode (joinNode a b wt o)).setOwn a.toNat .child).setOwn b.toNat .child

section Join

variable {a b : NodeIdx} (wt : Weight) (o : Owner)

@[simp] theorem join_heap : (s.join a b wt o).heap = s.heap := rfl
@[simp] theorem join_leafseen : (s.join a b wt o).leafseen = s.leafseen := rfl
@[simp] theorem join_root : (s.join a b wt o).root = s.root := rfl
@[simp] theorem join_rest : (s.join a b wt o).rest = s.rest := rfl
@[simp] theorem join_ncount : (s.join a b wt o).ncount = s.ncount + 1 := by simp [State.join]

/-- Every entry after a join: the new node, the two children now CHILD, and the others as they were. -/
theorem node_join (ha : a.toNat < s.ncount) (hb : b.toNat < s.ncount) (i : Nat) (hi : i ≤ s.ncount) :
    (s.join a b wt o).node i =
      if i = s.ncount then joinNode a b wt o
      else if i = a.toNat ∨ i = b.toNat then (s.node i).withOwn .child else s.node i := by
  unfold State.join
  rw [node_setOwn _ _ _ _ (by simp; omega), node_setOwn _ _ _ _ (by simp; omega)]
  by_cases hn : i = s.ncount
  · subst hn
    rw [if_neg (by omega), if_neg (by omega), if_pos rfl, node_allocNode_new]
  · rw [if_neg hn, node_allocNode s _ (by omega)]
    split_ifs <;> first | rfl | (exfalso; tauto)

theorem weightOf_join (i : NodeIdx) (hi : i.toNat < s.ncount) : (s.join a b wt o).weightOf i = s.weightOf i := by
  unfold State.join
  rw [weightOf_setOwn, weightOf_setOwn, weightOf_allocNode s _ i hi]

theorem weightOf_join_new (h : s.ncount < 1024) : (s.join a b wt o).weightOf s.nextIdx = wt := by
  unfold State.join
  rw [weightOf_setOwn, weightOf_setOwn]
  simp [State.weightOf, toNat_nextIdx s h, joinNode]

end Join

/-- The two nodes a merge step takes (R152). -/
def State.mergeFst : NodeIdx := s.heapMin
def State.mergeSnd : NodeIdx := s.heapExtract.heapMin

/-- The exact weight of the node a merge step makes (R152). -/
def State.mergeSum : Nat := weightSum s s.mergeFst s.mergeSnd

/-- The state a merge step leaves (R152). -/
def State.merged : State :=
  ((s.heapExtract.heapExtract).join s.mergeFst s.mergeSnd (BitVec.ofNat 32 s.mergeSum) .heap).heapInsert s.nextIdx

/-- Everything `MergeStep` can answer (R152). -/
theorem mergeStep_eq : mergeStep s =
    if s.ncount = 513 then .error .capacity
    else if s.mergeSum ≥ 2 ^ 32 then .error .weightOverflow
    else .ok (s.nextIdx, s.merged) := rfl

end Sys2Proof.Machine
end

