-- ==== Sys2Proof/Laws/Tree.lean ====
section
/-! SUPPORT. The heap and tree invariants (10_state.md R26, R28, R29, R42, R43): what each operation over the node store and
the heap array keeps of them. -/

namespace Sys2Proof.Machine

variable {s t : State}

/-- `leafSeen` depends on `leafseen` alone. -/
theorem leafSeen_congr (h : t.leafseen = s.leafseen) (x : Nat) : t.leafSeen x = s.leafSeen x := by
  simp [State.leafSeen, h]

/-- Marking one symbol seen is read back and leaves every other alone (R29). -/
theorem leafSeen_setLeafSeen (s : State) (x y : Nat) :
    (s.setLeafSeen x).leafSeen y = if y = x ∧ x < 257 then true else s.leafSeen y := by
  unfold State.leafSeen State.setLeafSeen
  simp only [State.setLeafseen_leafseen]
  by_cases hx : x < 257
  · by_cases hy : y < 257
    · by_cases hxy : y = x
      · subst hxy; simp [hy]
      · simp [hy, hxy, Ne.symm hxy]
    · simp [hy, hx]; omega
  · by_cases hy : y < 257
    · simp [hx, hy, show x ≠ y by omega]
    · simp [hx, hy]

/-- The heap invariant as: ordered, no index twice, and exactly the nodes owned by the heap (R28). -/
theorem heapOk_iff (hc : s.ncount ≤ 1024) : HeapOk s ↔
    HeapOrdered s.weightOf s.heap ∧ s.heap.Nodup ∧
    ∀ x : NodeIdx, x ∈ s.heap ↔ x.toNat < s.ncount ∧ (s.node x.toNat).own = .heap := by
  constructor
  · intro h
    refine ⟨h.ordered, h.nodup, fun x => ⟨h.owned x, fun ⟨h1, h2⟩ => ?_⟩⟩
    simpa using h.complete _ h1 h2
  · rintro ⟨h1, h2, h3⟩
    refine ⟨h1, h2, fun i hi => (h3 i).mp hi, fun i hi ho => (h3 _).mpr ?_⟩
    have : (BitVec.ofNat 10 i).toNat = i := by simp; omega
    rw [this]; exact ⟨hi, ho⟩

/-- The heap invariant depends on the node store and the heap array alone. -/
theorem heapOk_congr (h : HeapOk s) (hn : t.nodes = s.nodes) (hh : t.heap = s.heap) : HeapOk t := by
  constructor
  · rw [weightOf_congr hn, hh]; exact h.ordered
  · rw [hh]; exact h.nodup
  · intro i hi; rw [hh] at hi; rw [ncount_congr hn, node_congr hn]; exact h.owned i hi
  · intro i hi ho; rw [hh]; rw [ncount_congr hn] at hi; rw [node_congr hn] at ho; exact h.complete i hi ho

/-- The tree invariants depend on the node store and `leafseen` alone. -/
theorem treeOk_congr (h : TreeOk s) (hn : t.nodes = s.nodes) (hl : t.leafseen = s.leafseen) : TreeOk t := by
  obtain ⟨h1, h2, h3, h4, h5, h6, h7, h8⟩ := h
  constructor
  · simpa only [LeafOk, ncount_congr hn, node_congr hn, leafSeen_congr hl] using h1
  · simpa only [InternalOk, weightSum, weightOf_congr hn, ncount_congr hn, node_congr hn] using h2
  · simpa only [ncount_congr hn, node_congr hn] using h3
  · simpa only [ncount_congr hn, node_congr hn] using h4
  · simpa only [ncount_congr hn, node_congr hn, leafSeen_congr hl] using h5
  · simpa only [ncount_congr hn, node_congr hn, State.isKid] using h6
  · simpa only [ncount_congr hn, node_congr hn, State.isKid] using h7
  · rw [hn]; exact h8

/-- With no node the heap and tree invariants hold. -/
theorem heapOk_empty (hn : s.nodes = []) (hh : s.heap = []) : HeapOk s := by
  constructor <;> simp [hn, hh, HeapOrdered, State.ncount]

theorem treeOk_empty (hn : s.nodes = []) (hl : ∀ x < 257, s.leafSeen x = false) : TreeOk s := by
  constructor <;> simp [hn, State.ncount]
  intro x hx
  simpa using hl x hx

/-- A change of owner between HEAP and DETACHED keeps the tree invariants (R26). -/
theorem treeOk_setOwn (m : Nat) (o : Owner) (hm : m < s.ncount) (hmc : (s.node m).own ≠ .child) (ho : o ≠ .child)
    (hof : o ≠ .free) (h : TreeOk s) : TreeOk (s.setOwn m o) := by
  have e : ∀ i, (s.setOwn m o).node i = if i = m then (s.node i).withOwn o else s.node i :=
    fun i => node_setOwn s m o i hm
  have ek : ∀ i, ((s.setOwn m o).node i).kind = (s.node i).kind := fun i => by rw [e]; split <;> rfl
  have es : ∀ i, ((s.setOwn m o).node i).sym = (s.node i).sym := fun i => by rw [e]; split <;> rfl
  have ew : ∀ i, ((s.setOwn m o).node i).weight = (s.node i).weight := fun i => by rw [e]; split <;> rfl
  have el : ∀ i, ((s.setOwn m o).node i).left = (s.node i).left := fun i => by rw [e]; split <;> rfl
  have er : ∀ i, ((s.setOwn m o).node i).right = (s.node i).right := fun i => by rw [e]; split <;> rfl
  have eo : ∀ i, ((s.setOwn m o).node i).own = .child ↔ (s.node i).own = .child := by
    intro i; rw [e]; split
    · rename_i hi; subst hi; simp [ho, hmc]
    · rfl
  have els : ∀ x, (s.setOwn m o).leafSeen x = s.leafSeen x := fun x => leafSeen_congr rfl x
  obtain ⟨h1, h2, h3, h4, h5, h6, h7, h8⟩ := h
  constructor
  · simpa only [LeafOk, ncount_setOwn, ek, es, ew, el, er, els] using h1
  · simpa only [InternalOk, weightSum, weightOf_setOwn, ncount_setOwn, ek, es, ew, el, er, eo] using h2
  · intro i hi; rw [ncount_setOwn] at hi; rw [e]; split
    · exact hof
    · exact h3 i hi
  · simpa only [ncount_setOwn, ek, es] using h4
  · simpa only [ncount_setOwn, ek, es, els] using h5
  · simpa only [ncount_setOwn, ek, State.isKid, el, er] using h6
  · simpa only [ncount_setOwn, ek, State.isKid, el, er, eo] using h7
  · have hm' : m < s.nodes.length := hm
    have hnode := node_eq_getElem s hm
    have c1 := countP_modify (fun n : Node => n.own == .child) (·.withOwn o) s.nodes m hm'
    have c2 := countP_modify_of_eq (fun n : Node => n.kind == .internal) (·.withOwn o) s.nodes m (fun a => rfl)
    have e1 : ((s.nodes[m]'hm').own == Owner.child) = false := by
      have hne : (s.nodes[m]'hm').own ≠ .child := fun hc => hmc ((congrArg Node.own hnode).trans hc)
      simpa using hne
    have e2 : (((s.nodes[m]'hm').withOwn o).own == Owner.child) = false := by simpa using ho
    simp only [e1, e2] at c1
    show (s.nodes.modify m (·.withOwn o)).countP _ = 2 * (s.nodes.modify m (·.withOwn o)).countP _
    rw [c2]
    simp only [Bool.false_eq_true, if_false, Nat.add_zero] at c1
    rw [c1]; exact h8

/-- Joining two distinct nodes that are children of none keeps the tree invariants (R26, R43). -/
theorem treeOk_join {a b : NodeIdx} (ha : a.toNat < s.ncount) (hb : b.toNat < s.ncount) (hab : a ≠ b)
    (hac : (s.node a.toNat).own ≠ .child) (hbc : (s.node b.toNat).own ≠ .child)
    (hsum : weightSum s a b < 2 ^ 32) (o : Owner) (ho : o ≠ .child) (hof : o ≠ .free) (h : TreeOk s) :
    TreeOk (s.join a b (BitVec.ofNat 32 (weightSum s a b)) o) := by
  have hab' : a.toNat ≠ b.toNat := fun hc => hab (BitVec.eq_of_toNat_eq hc)
  obtain ⟨h1, h2, h3, h4, h5, h6, h7, h8⟩ := h
  generalize hwt : BitVec.ofNat 32 (weightSum s a b) = wt
  have hwt' : wt.toNat = weightSum s a b := by rw [← hwt]; simp; omega
  have e : ∀ i < s.ncount, (s.join a b wt o).node i =
      if i = a.toNat ∨ i = b.toNat then (s.node i).withOwn .child else s.node i := by
    intro i hi
    rw [node_join s wt o ha hb i (by omega), if_neg (by omega)]
  have en : (s.join a b wt o).node s.ncount = joinNode a b wt o := by
    rw [node_join s wt o ha hb _ (Nat.le_refl _), if_pos rfl]
  have ek : ∀ i < s.ncount, ((s.join a b wt o).node i).kind = (s.node i).kind := fun i hi => by rw [e i hi]; split <;> rfl
  have es : ∀ i < s.ncount, ((s.join a b wt o).node i).sym = (s.node i).sym := fun i hi => by rw [e i hi]; split <;> rfl
  have ew : ∀ i < s.ncount, ((s.join a b wt o).node i).weight = (s.node i).weight := fun i hi => by rw [e i hi]; split <;> rfl
  have el : ∀ i < s.ncount, ((s.join a b wt o).node i).left = (s.node i).left := fun i hi => by rw [e i hi]; split <;> rfl
  have er : ∀ i < s.ncount, ((s.join a b wt o).node i).right = (s.node i).right := fun i hi => by rw [e i hi]; split <;> rfl
  have eo : ∀ i < s.ncount, (s.node i).own = .child → ((s.join a b wt o).node i).own = .child := by
    intro i hi hc; rw [e i hi]; split
    · rfl
    · exact hc
  have eoa : ((s.join a b wt o).node a.toNat).own = .child := by rw [e _ ha, if_pos (.inl rfl)]; rfl
  have eob : ((s.join a b wt o).node b.toNat).own = .child := by rw [e _ hb, if_pos (.inr rfl)]; rfl
  have els : ∀ x, (s.join a b wt o).leafSeen x = s.leafSeen x := fun x => leafSeen_congr rfl x
  have ekn : ((s.join a b wt o).node s.ncount).kind = .internal := by rw [en]; rfl
  have lt_or : ∀ i, i < s.ncount + 1 → i < s.ncount ∨ i = s.ncount := fun i hi => by omega
  have kidlt : ∀ p < s.ncount, (s.node p).kind = .internal → (s.node p).left.toNat < s.ncount ∧ (s.node p).right.toNat < s.ncount := by
    intro p hp hk
    have := h2 p hp hk
    exact ⟨by have := this.2.1; omega, by have := this.2.2.1; omega⟩
  -- a and b are kids of no old node
  have nokid : ∀ p < s.ncount, (s.node p).kind = .internal → ∀ c, c = a.toNat ∨ c = b.toNat → ¬ s.isKid p c := by
    rintro p hp hk c hc hkid
    have hi := h2 p hp hk
    rcases hkid with hl | hr
    · have := hi.2.2.2.2.2.1
      rw [hl] at this
      rcases hc with rfl | rfl <;> contradiction
    · have := hi.2.2.2.2.2.2
      rw [hr] at this
      rcases hc with rfl | rfl <;> contradiction
  have ekid : ∀ p < s.ncount, ∀ c, (s.join a b wt o).isKid p c ↔ s.isKid p c := by
    intro p hp c; unfold State.isKid; rw [el p hp, er p hp]
  have ekidn : ∀ c, (s.join a b wt o).isKid s.ncount c ↔ (a.toNat = c ∨ b.toNat = c) := by
    intro c; unfold State.isKid; rw [en]; rfl
  constructor
  · intro i hi hk
    rw [join_ncount] at hi
    rcases lt_or i hi with hi | rfl
    · rw [ek i hi] at hk
      simpa only [LeafOk, es i hi, ew i hi, el i hi, er i hi, els] using h1 i hi hk
    · rw [ekn] at hk; cases hk
  · intro i hi hk
    rw [join_ncount] at hi
    rcases lt_or i hi with hi | rfl
    · rw [ek i hi] at hk
      obtain ⟨g1, g2, g3, g4, g5, g6, g7⟩ := h2 i hi hk
      refine ⟨by rw [es i hi, g1], by rw [el i hi]; exact g2, by rw [er i hi]; exact g3, by rw [el i hi, er i hi]; exact g4, ?_, ?_, ?_⟩
      · rw [ew i hi, el i hi, er i hi, g5]
        unfold weightSum
        rw [weightOf_join, weightOf_join] <;> omega
      · rw [el i hi]; exact eo _ (by omega) g6
      · rw [er i hi]; exact eo _ (by omega) g7
    · unfold InternalOk
      rw [en]
      refine ⟨rfl, ha, hb, hab, ?_, eoa, eob⟩
      show wt.toNat = weightSum _ a b
      unfold weightSum
      rw [weightOf_join _ _ _ _ ha, weightOf_join _ _ _ _ hb, hwt']
      rfl
  · intro i hi
    rw [join_ncount] at hi
    rcases lt_or i hi with hi | rfl
    · rw [e i hi]; split
      · simp
      · exact h3 i hi
    · rw [en]; exact hof
  · intro i hi j hj hki hkj hs
    rw [join_ncount] at hi hj
    rcases lt_or i hi with hi | rfl
    · rcases lt_or j hj with hj | rfl
      · rw [ek i hi] at hki; rw [ek j hj] at hkj; rw [es i hi, es j hj] at hs
        exact h4 i hi j hj hki hkj hs
      · rw [ekn] at hkj; cases hkj
    · rw [ekn] at hki; cases hki
  · intro x hx hs
    rw [els] at hs
    obtain ⟨i, hi, hk, hsym⟩ := h5 x hx hs
    exact ⟨i, by rw [join_ncount]; omega, by rw [ek i hi]; exact hk, by rw [es i hi]; exact hsym⟩
  · intro p hp q hq hkp hkq c hc hpc hqc
    rw [join_ncount] at hp hq hc
    rcases lt_or p hp with hp | rfl
    · rcases lt_or q hq with hq | rfl
      · rw [ek p hp] at hkp; rw [ek q hq] at hkq; rw [ekid p hp] at hpc; rw [ekid q hq] at hqc
        have : c < s.ncount := by
          have := kidlt p hp hkp
          rcases hpc with h | h <;> omega
        exact h6 p hp q hq hkp hkq c this hpc hqc
      · rw [ek p hp] at hkp; rw [ekid p hp] at hpc; rw [ekidn] at hqc
        exact absurd hpc (nokid p hp hkp c (by tauto))
    · rcases lt_or q hq with hq | rfl
      · rw [ek q hq] at hkq; rw [ekid q hq] at hqc; rw [ekidn] at hpc
        exact absurd hqc (nokid q hq hkq c (by tauto))
      · rfl
  · intro c hc hoc
    rw [join_ncount] at hc
    rcases lt_or c hc with hc | rfl
    · by_cases hcab : c = a.toNat ∨ c = b.toNat
      · exact ⟨s.ncount, by rw [join_ncount]; omega, ekn, (ekidn c).mpr (by tauto)⟩
      · rw [e c hc, if_neg hcab] at hoc
        obtain ⟨p, hp, hk, hkid⟩ := h7 c hc hoc
        exact ⟨p, by rw [join_ncount]; omega, by rw [ek p hp]; exact hk, (ekid p hp c).mpr hkid⟩
    · rw [en] at hoc; exact absurd hoc ho
  · -- counts
    have n1 : a.toNat < (s.nodes ++ [joinNode a b wt o]).length := by simp; have := ha; unfold State.ncount at this; omega
    have n2 : b.toNat < ((s.nodes ++ [joinNode a b wt o]).modify a.toNat (·.withOwn .child)).length := by
      simp; have := hb; unfold State.ncount at this; omega
    have c1 := countP_modify (fun n : Node => n.own == .child) (·.withOwn .child) _ _ n1
    have c2 := countP_modify (fun n : Node => n.own == .child) (·.withOwn .child) _ _ n2
    have k1 := countP_modify_of_eq (fun n : Node => n.kind == .internal) (·.withOwn .child) (s.nodes ++ [joinNode a b wt o]) a.toNat (fun a => rfl)
    have k2 := countP_modify_of_eq (fun n : Node => n.kind == .internal) (·.withOwn .child) ((s.nodes ++ [joinNode a b wt o]).modify a.toNat (·.withOwn .child)) b.toNat (fun a => rfl)
    show (((s.nodes ++ [joinNode a b wt o]).modify a.toNat (·.withOwn .child)).modify b.toNat (·.withOwn .child)).countP _ = 2 * (((s.nodes ++ [joinNode a b wt o]).modify a.toNat (·.withOwn .child)).modify b.toNat (·.withOwn .child)).countP _
    rw [k2, k1]
    have e1 : ((s.nodes ++ [joinNode a b wt o])[a.toNat].own == Owner.child) = false := by
      rw [List.getElem_append_left (h := ha), ← node_eq_getElem s ha]; simpa using hac
    have e2 : (((s.nodes ++ [joinNode a b wt o]).modify a.toNat (·.withOwn .child))[b.toNat].own == Owner.child) = false := by
      rw [List.getElem_modify, if_neg hab', List.getElem_append_left (h := hb), ← node_eq_getElem s hb]; simpa using hbc
    simp only [e1, e2, withOwn_own, beq_self_eq_true, if_true, Bool.false_eq_true, if_false] at c1 c2
    have a1 : (s.nodes ++ [joinNode a b wt o]).countP (fun n => n.own == .child) = s.nodes.countP (fun n => n.own == .child) := by
      simp [joinNode, ho]
    have a2 : (s.nodes ++ [joinNode a b wt o]).countP (fun n => n.kind == .internal) = s.nodes.countP (fun n => n.kind == .internal) + 1 := by
      simp [joinNode]
    have h8' : List.countP (fun n : Node => n.own == .child) s.nodes = 2 * List.countP (fun n : Node => n.kind == .internal) s.nodes := h8
    omega

/-- Allocating the leaf of a symbol not seen yet keeps the tree invariants (R29). -/
theorem treeOk_leaf {x : Nat} {c : Weight} (hx : x ≤ 256) (hc : c ≠ 0) (hs : s.leafSeen x = false) (h : TreeOk s) :
    TreeOk ((s.allocNode (leafNode x c)).setLeafSeen x) := by
  obtain ⟨h1, h2, h3, h4, h5, h6, h7, h8⟩ := h
  generalize ht : (s.allocNode (leafNode x c)).setLeafSeen x = t
  have tn : t.nodes = (s.allocNode (leafNode x c)).nodes := by rw [← ht]; rfl
  have cn : t.ncount = s.ncount + 1 := by rw [ncount_congr tn]; simp
  have e : ∀ i < s.ncount, t.node i = s.node i := fun i hi => by rw [node_congr tn, node_allocNode s _ hi]
  have en : t.node s.ncount = leafNode x c := by rw [node_congr tn, node_allocNode_new]
  have els : ∀ y, t.leafSeen y = if y = x then true else s.leafSeen y := by
    intro y; rw [← ht, leafSeen_setLeafSeen]
    have : x < 257 := by omega
    simp only [this, and_true]
    rfl
  have seen_mono : ∀ y, s.leafSeen y = true → t.leafSeen y = true := by
    intro y hy; rw [els]; split <;> simp [hy]
  have ew : ∀ i : NodeIdx, i.toNat < s.ncount → t.weightOf i = s.weightOf i := fun i hi => by
    unfold State.weightOf; rw [e _ hi]
  have xs : (BitVec.ofNat 9 x).toNat = x := by simp; omega
  have lt_or : ∀ i, i < t.ncount → i < s.ncount ∨ i = s.ncount := fun i hi => by omega
  have symne : ∀ i < s.ncount, (s.node i).kind = .leaf → (s.node i).sym.toNat ≠ x := by
    intro i hi hk hxx
    have := (h1 i hi hk).2.2.2.2
    rw [hxx, hs] at this; cases this
  constructor
  · intro i hi hk
    rcases lt_or i hi with hi | rfl
    · unfold LeafOk
      rw [e i hi] at hk ⊢
      obtain ⟨g1, g2, g3, g4, g5⟩ := h1 i hi hk
      exact ⟨g1, g2, g3, g4, seen_mono _ g5⟩
    · unfold LeafOk; rw [en]
      refine ⟨by show (BitVec.ofNat 9 x).toNat ≤ 256; omega, ?_, rfl, rfl, ?_⟩
      · show 1 ≤ c.toNat
        have : c.toNat ≠ 0 := fun h0 => hc (BitVec.eq_of_toNat_eq h0)
        omega
      · show t.leafSeen (BitVec.ofNat 9 x).toNat = true
        rw [xs, els, if_pos rfl]
  · intro i hi hk
    rcases lt_or i hi with hi | rfl
    · rw [e i hi] at hk
      obtain ⟨g1, g2, g3, g4, g5, g6, g7⟩ := h2 i hi hk
      unfold InternalOk
      rw [e i hi, e _ (by omega : (s.node i).left.toNat < s.ncount), e _ (by omega : (s.node i).right.toNat < s.ncount)]
      refine ⟨g1, g2, g3, g4, ?_, g6, g7⟩
      unfold weightSum
      rw [ew _ (by omega), ew _ (by omega)]; exact g5
    · rw [en] at hk; cases hk
  · intro i hi
    rcases lt_or i hi with hi | rfl
    · rw [e i hi]; exact h3 i hi
    · rw [en]; simp [leafNode]
  · intro i hi j hj hki hkj hsym
    rcases lt_or i hi with hi | rfl <;> rcases lt_or j hj with hj | rfl
    · rw [e i hi] at hki hsym; rw [e j hj] at hkj hsym; exact h4 i hi j hj hki hkj hsym
    · rw [e i hi, en] at hsym; rw [e i hi] at hki
      exact absurd (by rw [hsym]; exact xs) (symne i hi hki)
    · rw [e j hj, en] at hsym; rw [e j hj] at hkj
      exact absurd (by rw [← hsym]; exact xs) (symne j hj hkj)
    · rfl
  · intro y hy hsy
    rw [els] at hsy
    by_cases hyx : y = x
    · exact ⟨s.ncount, by omega, by rw [en]; rfl, by rw [en, hyx]; exact xs⟩
    · rw [if_neg hyx] at hsy
      obtain ⟨i, hi, hk, hsym⟩ := h5 y hy hsy
      exact ⟨i, by omega, by rw [e i hi]; exact hk, by rw [e i hi]; exact hsym⟩
  · intro p hp q hq hkp hkq k hk hpk hqk
    have hp' : p < s.ncount := by
      rcases lt_or p hp with hp | rfl
      · exact hp
      · rw [en] at hkp; cases hkp
    have hq' : q < s.ncount := by
      rcases lt_or q hq with hq | rfl
      · exact hq
      · rw [en] at hkq; cases hkq
    rw [e p hp'] at hkp; rw [e q hq'] at hkq
    unfold State.isKid at hpk hqk
    rw [e p hp'] at hpk; rw [e q hq'] at hqk
    have hi := h2 p hp' hkp
    have : k < s.ncount := by
      have a1 := hi.2.1; have a2 := hi.2.2.1
      rcases hpk with h | h <;> omega
    exact h6 p hp' q hq' hkp hkq k this hpk hqk
  · intro k hk hok
    rcases lt_or k hk with hk | rfl
    · rw [e k hk] at hok
      obtain ⟨p, hp, hkp, hkid⟩ := h7 k hk hok
      exact ⟨p, by omega, by rw [e p hp]; exact hkp, by unfold State.isKid; rw [e p hp]; exact hkid⟩
    · rw [en] at hok; cases hok
  · rw [tn]
    show (s.nodes ++ [leafNode x c]).countP _ = 2 * (s.nodes ++ [leafNode x c]).countP _
    simpa [leafNode] using h8

/-- Allocating a node owned by the heap and inserting it keeps the heap invariant (R28). -/
theorem heapOk_alloc_insert (n : Node) (hn : n.own = .heap) (hcap : s.ncount < 513)
    (h : HeapOk s) : HeapOk ((s.allocNode n).heapInsert s.nextIdx) := by
  have hx : s.nextIdx.toNat = s.ncount := toNat_nextIdx s (by omega)
  rw [heapOk_iff (by omega)] at h
  obtain ⟨h1, h2, h3⟩ := h
  rw [heapOk_iff (by rw [ncount_congr (heapInsert_nodes _ _)]; simp; omega)]
  have ewt : ∀ i ∈ s.heap, (s.allocNode n).weightOf i = s.weightOf i := fun i hi =>
    weightOf_allocNode s n i ((h3 i).mp hi).1
  have hp := heapPush_perm (s.allocNode n).weightOf s.heap s.nextIdx
  refine ⟨?_, ?_, ?_⟩
  · rw [weightOf_congr (heapInsert_nodes _ _), heapInsert_heap]
    apply heapPush_ordered
    exact h1.congr (fun i hi => (ewt i hi).symm)
  · rw [heapInsert_heap]
    refine hp.nodup_iff.mpr (List.nodup_cons.mpr ⟨fun hm => ?_, h2⟩)
    have := ((h3 _).mp hm).1; omega
  · intro x
    rw [heapInsert_heap, ncount_congr (heapInsert_nodes _ _), node_congr (heapInsert_nodes _ _), ncount_allocNode]
    rw [show x ∈ heapPush (s.allocNode n).weightOf (s.allocNode n).heap s.nextIdx ↔ x ∈ s.nextIdx :: s.heap from hp.mem_iff]
    rw [List.mem_cons, h3]
    by_cases hxn : x.toNat = s.ncount
    · have : x = s.nextIdx := BitVec.eq_of_toNat_eq (by omega)
      rw [hxn, node_allocNode_new]; simp [this, hn]
    · constructor
      · rintro (rfl | ⟨ha, hb⟩)
        · omega
        · exact ⟨by omega, by rw [node_allocNode s n ha]; exact hb⟩
      · rintro ⟨ha, hb⟩
        have ha' : x.toNat < s.ncount := by omega
        rw [node_allocNode s n ha'] at hb
        exact .inr ⟨ha', hb⟩

/-- The heap invariant but for the nodes listed, which the heap still owns and no slot holds. -/
structure HeapBut (s : State) (out : List NodeIdx) : Prop where
  ordered : HeapOrdered s.weightOf s.heap
  nodup : s.heap.Nodup
  notin : ∀ x ∈ out, x ∉ s.heap ∧ x.toNat < s.ncount ∧ (s.node x.toNat).own = .heap
  mem : ∀ x : NodeIdx, x ∈ s.heap ∨ x ∈ out ↔ x.toNat < s.ncount ∧ (s.node x.toNat).own = .heap

/-- With no node listed it is the heap invariant. -/
theorem HeapOk.but (hc : s.ncount ≤ 1024) : HeapOk s ↔ HeapBut s [] := by
  rw [heapOk_iff hc]
  constructor
  · rintro ⟨h1, h2, h3⟩; exact ⟨h1, h2, by simp, by simpa using h3⟩
  · rintro ⟨h1, h2, _, h4⟩; exact ⟨h1, h2, by simpa using h4⟩

/-- An extraction adds the node it takes to those listed, and that node is a lightest one (R124). -/
theorem HeapBut.extract {out : List NodeIdx} (h : HeapBut s out) (hne : s.heap ≠ []) :
    HeapBut s.heapExtract (s.heapMin :: out) ∧ s.heapMin ∈ s.heap ∧
      (∀ x ∈ s.heap, s.weightOf s.heapMin ≤ s.weightOf x) := by
  obtain ⟨h1, h2, h3, h4⟩ := h
  have hp := heapPop_perm s.weightOf s.heap hne
  have hm : s.heapMin ∈ s.heap := slot_mem _ (by cases hh : s.heap <;> simp_all)
  have hnd := hp.nodup_iff.mpr h2
  rw [List.nodup_cons] at hnd
  have hmem : ∀ x, x ∈ s.heapExtract.heap ↔ x ∈ s.heap ∧ x ≠ s.heapMin := by
    intro x
    rw [heapExtract_heap]
    constructor
    · intro hx
      refine ⟨hp.mem_iff.mp (List.mem_cons_of_mem _ hx), ?_⟩
      rintro rfl; exact hnd.1 hx
    · rintro ⟨hx, hxn⟩
      rcases List.mem_cons.mp (hp.mem_iff.mpr hx) with h | h
      · exact absurd h hxn
      · exact h
  refine ⟨⟨?_, hnd.2, ?_, ?_⟩, hm, fun x hx => heapMin_le _ _ h1 x hx⟩
  · rw [weightOf_congr (heapExtract_nodes s)]; exact heapPop_ordered _ _ h1
  · intro x hx
    rw [ncount_congr (heapExtract_nodes s), node_congr (heapExtract_nodes s)]
    rcases List.mem_cons.mp hx with rfl | hx
    · exact ⟨by rw [hmem]; simp, (h4 _).mp (.inl hm)⟩
    · have := h3 x hx
      exact ⟨by rw [hmem]; tauto, this.2⟩
  · intro x
    rw [ncount_congr (heapExtract_nodes s), node_congr (heapExtract_nodes s), hmem, ← h4, List.mem_cons]
    by_cases hx : x = s.heapMin
    · subst hx; simp [hm]
    · simp [hx]

/-- Giving the one node listed another owner restores the heap invariant. -/
theorem HeapBut.setOwn {m : NodeIdx} {o : Owner} (ho : o ≠ .heap) (h : HeapBut s [m]) (hc : s.ncount ≤ 1024) :
    HeapOk (s.setOwn m.toNat o) := by
  obtain ⟨h1, h2, h3, h4⟩ := h
  obtain ⟨hm1, hm2, hm3⟩ := h3 m (by simp)
  rw [heapOk_iff (by simpa using hc)]
  refine ⟨?_, h2, ?_⟩
  · have : (s.setOwn m.toNat o).weightOf = s.weightOf := by funext i; simp
    rw [this]; exact h1
  · intro x
    rw [setOwn_heap, ncount_setOwn, node_setOwn _ _ _ _ hm2]
    have := h4 x
    by_cases hx : x = m
    · subst hx; simp [hm1, ho]
    · have : x.toNat ≠ m.toNat := fun hh => hx (BitVec.eq_of_toNat_eq hh)
      simp_all

/-- Inserting an allocated node that the heap does not own keeps the heap invariant (R127). -/
theorem heapOk_insert {i : NodeIdx} (hi : i.toNat < s.ncount) (hio : (s.node i.toNat).own ≠ .heap)
    (hc : s.ncount ≤ 1024) (h : HeapOk s) : HeapOk ((s.heapInsert i).setOwn i.toNat .heap) := by
  rw [heapOk_iff hc] at h
  obtain ⟨h1, h2, h3⟩ := h
  have hp := heapPush_perm s.weightOf s.heap i
  have hni : i ∉ s.heap := fun hm => hio ((h3 i).mp hm).2
  have hcn : (s.heapInsert i).ncount = s.ncount := ncount_congr (heapInsert_nodes _ _)
  rw [heapOk_iff (by rw [ncount_setOwn, hcn]; exact hc)]
  refine ⟨?_, hp.nodup_iff.mpr (List.nodup_cons.mpr ⟨hni, h2⟩), ?_⟩
  · have : ((s.heapInsert i).setOwn i.toNat .heap).weightOf = s.weightOf := by
      funext j; rw [weightOf_setOwn]; rfl
    rw [this]; exact heapPush_ordered _ _ _ h1
  · intro x
    rw [setOwn_heap, heapInsert_heap, hp.mem_iff, List.mem_cons, h3, ncount_setOwn, hcn, node_setOwn _ _ _ _ (by rw [hcn]; exact hi),
      node_congr (heapInsert_nodes _ _)]
    by_cases hx : x = i
    · subst hx; simp [hi]
    · have : x.toNat ≠ i.toNat := fun hh => hx (BitVec.eq_of_toNat_eq hh)
      simp [hx, this]

/-- Joining two nodes the heap does not own keeps the heap invariant (R129). -/
theorem heapOk_join {a b : NodeIdx} {wt : Weight} (ha : a.toNat < s.ncount) (hb : b.toNat < s.ncount)
    (hac : (s.node a.toNat).own ≠ .heap) (hbc : (s.node b.toNat).own ≠ .heap) (hn : s.ncount < 513) (h : HeapOk s) :
    HeapOk (s.join a b wt .detached) := by
  rw [heapOk_iff (by omega)] at h
  obtain ⟨h1, h2, h3⟩ := h
  rw [heapOk_iff (by rw [join_ncount]; omega)]
  refine ⟨?_, h2, ?_⟩
  · rw [join_heap]; exact h1.congr (fun i hi => (weightOf_join _ _ _ _ ((h3 i).mp hi).1).symm)
  · intro x
    rw [join_heap, join_ncount, h3]
    by_cases hxn : x.toNat = s.ncount
    · rw [hxn, node_join _ _ _ ha hb _ (Nat.le_refl _), if_pos rfl]; simp [joinNode]
    · constructor
      · rintro ⟨p, q⟩
        refine ⟨by omega, ?_⟩
        rw [node_join _ _ _ ha hb _ (by omega), if_neg hxn, if_neg]
        · exact q
        · rintro (e | e) <;> rw [e] at q <;> contradiction
      · rintro ⟨p, q⟩
        have p' : x.toNat < s.ncount := by omega
        rw [node_join _ _ _ ha hb _ (by omega), if_neg hxn] at q
        split at q
        · cases q
        · exact ⟨p', q⟩

/-- What `HEAP.INSERT` and `NODE.JOIN` ask of a node. -/
theorem isDetached_iff (i : Nat) : s.isDetached i = true ↔ i < s.ncount ∧ (s.node i).own = .detached := by
  simp [State.isDetached]

/-- Extracting a node and detaching it keeps the heap and tree invariants (R126, R154). -/
theorem extractAs_ok (h : HeapOk s) (ht : TreeOk s) (hn : s.ncount ≤ 1024) (hne : s.heap ≠ []) :
    HeapOk (s.heapExtract.setOwn s.heapMin.toNat .detached) ∧ TreeOk (s.heapExtract.setOwn s.heapMin.toNat .detached) ∧
     (s.heapMin.toNat < s.ncount ∧ ((s.heapExtract.setOwn s.heapMin.toNat .detached).node s.heapMin.toNat).own = .detached) := by
  have b := ((HeapOk.but hn).mp h |>.extract hne).1
  obtain ⟨_, n2, n3⟩ := b.notin s.heapMin (by simp)
  refine ⟨b.setOwn (by simp) hn, ?_, n2, ?_⟩
  · exact treeOk_setOwn _ _ n2 (by rw [n3]; simp) (by simp) (by simp) (treeOk_congr ht rfl rfl)
  · rw [node_setOwn _ _ _ _ n2, if_pos rfl]; rfl

/-- A merge step that answers keeps the heap and tree invariants (R152). -/
theorem merged_ok (hcap : s.ncount < 513) (hh : HeapOk s) (ht : TreeOk s) (h2 : 2 ≤ s.hsize)
    (hsum : s.mergeSum < 2 ^ 32) : HeapOk s.merged ∧ TreeOk s.merged := by
  have hb := (HeapOk.but (by omega)).mp hh
  have hne : s.heap ≠ [] := by intro h; simp [State.hsize, h] at h2
  obtain ⟨b1, m1, w1⟩ := hb.extract hne
  have hl1 : s.heapExtract.heap.length = s.hsize - 1 := by simp [State.hsize]
  have hne1 : s.heapExtract.heap ≠ [] := by intro h; rw [h] at hl1; simp at hl1; omega
  obtain ⟨b2, m2, w2⟩ := b1.extract hne1
  have n1 := b2.notin s.mergeFst (by simp [State.mergeFst])
  have n2 := b2.notin s.mergeSnd (by simp [State.mergeSnd])
  have hab : s.mergeFst ≠ s.mergeSnd := by
    intro h
    have := (b1.notin s.mergeFst (by simp [State.mergeFst])).1
    rw [h] at this
    exact this m2
  have en : s.heapExtract.heapExtract.nodes = s.nodes := rfl
  have hws : weightSum s.heapExtract.heapExtract s.mergeFst s.mergeSnd = s.mergeSum := by
    unfold State.mergeSum weightSum; rw [weightOf_congr en]
  have hn0 : s.heapExtract.heapExtract.ncount = s.ncount := ncount_congr en
  have t2 : TreeOk s.heapExtract.heapExtract := treeOk_congr ht en rfl
  have t3 := treeOk_join n1.2.1 n2.2.1 hab (by rw [n1.2.2]; simp) (by rw [n2.2.2]; simp) (by rw [hws]; exact hsum) .heap (by simp) (by simp) t2
  rw [hws] at t3
  refine ⟨?_, treeOk_congr t3 rfl rfl⟩
  -- heap
  generalize hs2 : s.heapExtract.heapExtract = s2 at *
  set wt := BitVec.ofNat 32 s.mergeSum
  have key : HeapOk ((s2.join s.mergeFst s.mergeSnd wt .heap).heapInsert s2.nextIdx) := by
    obtain ⟨p1, p2, p3, p4⟩ := b2
    have hx : s2.nextIdx.toNat = s2.ncount := toNat_nextIdx s2 (by omega)
    have hp := heapPush_perm (s2.join s.mergeFst s.mergeSnd wt .heap).weightOf s2.heap s2.nextIdx
    have lt : ∀ x ∈ s2.heap, x.toNat < s2.ncount := fun x hx => ((p4 x).mp (.inl hx)).1
    rw [heapOk_iff (by rw [ncount_congr (heapInsert_nodes _ _), join_ncount]; omega)]
    refine ⟨?_, ?_, ?_⟩
    · rw [weightOf_congr (heapInsert_nodes _ _), heapInsert_heap]
      apply heapPush_ordered
      exact p1.congr (fun i hi => (weightOf_join _ _ _ _ (lt i hi)).symm)
    · rw [heapInsert_heap]
      refine hp.nodup_iff.mpr (List.nodup_cons.mpr ⟨fun hm => ?_, p2⟩)
      have := lt _ hm; omega
    · intro x
      rw [heapInsert_heap, ncount_congr (heapInsert_nodes _ _), node_congr (heapInsert_nodes _ _), join_ncount]
      rw [show x ∈ heapPush (s2.join s.mergeFst s.mergeSnd wt .heap).weightOf (s2.join s.mergeFst s.mergeSnd wt .heap).heap s2.nextIdx ↔ x ∈ s2.nextIdx :: s2.heap from hp.mem_iff]
      rw [List.mem_cons]
      by_cases hxn : x.toNat = s2.ncount
      · have : x = s2.nextIdx := BitVec.eq_of_toNat_eq (by omega)
        rw [hxn, node_join _ _ _ n1.2.1 n2.2.1 _ (Nat.le_refl _), if_pos rfl]; simp [this, joinNode]
      · constructor
        · rintro (rfl | ha)
          · omega
          · have hl := lt x ha
            refine ⟨by omega, ?_⟩
            rw [node_join _ _ _ n1.2.1 n2.2.1 _ (by omega), if_neg hxn, if_neg]
            · exact ((p4 x).mp (.inl ha)).2
            · rintro (h | h)
              · exact n1.1 (by rw [← BitVec.eq_of_toNat_eq h]; exact ha)
              · exact n2.1 (by rw [← BitVec.eq_of_toNat_eq h]; exact ha)
        · rintro ⟨ha, hb⟩
          have ha' : x.toNat < s2.ncount := by omega
          rw [node_join _ _ _ n1.2.1 n2.2.1 _ (by omega), if_neg hxn] at hb
          split at hb
          · cases hb
          · rename_i hnn
            rcases (p4 x).mpr ⟨ha', hb⟩ with h | h
            · exact .inr h
            · exfalso
              simp only [List.mem_cons, List.not_mem_nil, or_false] at h
              rcases h with h | h
              · exact hnn (.inr (by rw [h]; rfl))
              · exact hnn (.inl (by rw [h]; rfl))
  have : s2.nextIdx = s.nextIdx := by unfold State.nextIdx; rw [hn0]
  rw [this] at key
  unfold State.merged
  rw [hs2]; exact key

/-- A merge step allocates one node. -/
theorem merged_ncount : s.merged.ncount = s.ncount + 1 := by
  show ((s.heapExtract.heapExtract).join s.mergeFst s.mergeSnd (BitVec.ofNat 32 s.mergeSum) .heap).ncount = _
  rw [join_ncount]; rfl

/-- A merge step leaves one heap entry less. -/
theorem merged_hsize (h : 2 ≤ s.hsize) : s.merged.hsize = s.hsize - 1 := by
  show (heapPush _ (heapPop _ (heapPop _ s.heap)) _).length = _
  rw [length_heapPush, length_heapPop, length_heapPop]; unfold State.hsize at *; omega

/-- The loop of `BUILD` keeps the heap and tree invariants and touches nothing outside the tree builder (R154). -/
theorem mergeLoop_ok (fuel : Nat) (hn : s.ncount ≤ 513) (hh : HeapOk s) (ht : TreeOk s) (hr : mergeLoop fuel s = .ok t) :
    HeapOk t ∧ TreeOk t ∧ t.ncount ≤ 513 ∧ t.hsize ≤ s.hsize ∧ (1 ≤ s.hsize → 1 ≤ t.hsize) ∧ t.rest = s.rest ∧ t.root = s.root := by
  induction fuel generalizing s with
  | zero => cases hr; exact ⟨hh, ht, hn, Nat.le_refl _, id, rfl, rfl⟩
  | succ fuel ih =>
    unfold mergeLoop at hr
    split at hr
    · rename_i hgt
      rw [mergeStep_eq] at hr
      split at hr; · cases hr
      rename_i i u heq
      split at heq; · cases heq
      split at heq; · cases heq
      rename_i h2 h3
      cases heq
      have hm := merged_ok (by omega) hh ht (by omega) (by omega)
      have e1 := merged_ncount (s := s)
      have e2 := merged_hsize (s := s) (by omega)
      obtain ⟨a, b, c, d, e, f, g⟩ := ih (by omega) hm.1 hm.2 hr
      exact ⟨a, b, c, by omega, fun _ => e (by omega), f, g⟩
    · cases hr; exact ⟨hh, ht, hn, Nat.le_refl _, id, rfl, rfl⟩

/-- The faults the loop of `BUILD` can raise (R154). -/
theorem mergeLoop_error (fuel : Nat) {c : FaultCode} (h : mergeLoop fuel s = .error c) : c = .capacity ∨ c = .weightOverflow := by
  induction fuel generalizing s with
  | zero => cases h
  | succ fuel ih =>
    unfold mergeLoop at h
    split at h
    · rw [mergeStep_eq] at h
      split at h
      · rename_i heq
        cases h
        split at heq
        · cases heq; exact .inl rfl
        · split at heq <;> cases heq; exact .inr rfl
      · exact ih h
    · cases h

/-! ### Counting nodes (R42) -/

/-- There are at most 257 leaves, one for each symbol (R42). -/
theorem leaf_count (h : TreeOk s) : s.nodes.countP (·.kind == .leaf) ≤ 257 := by
  have hget : ∀ i (hi : i < s.nodes.length), s.nodes[i] = s.node i := fun i hi => (node_eq_getElem s hi).symm
  rw [List.countP_eq_length_filter]
  set l := s.nodes.filter (·.kind == .leaf)
  have hnd : (l.map (fun n => n.sym.toNat)).Nodup := by
    have hp : s.nodes.Pairwise (fun a b => a.kind = .leaf → b.kind = .leaf → a.sym.toNat ≠ b.sym.toNat) := by
      rw [List.pairwise_iff_getElem]
      intro i j hi hj hij ha hb hs
      rw [hget] at ha hs; rw [hget] at hb hs
      have := h.leafOnce i hi j hj ha hb (BitVec.eq_of_toNat_eq hs)
      omega
    rw [List.Nodup, List.pairwise_map]
    have hq := hp.filter (fun n : Node => n.kind == .leaf)
    refine hq.imp_of_mem ?_
    intro a b ha hb hab
    have h1 := (List.mem_filter.mp ha).2
    have h2 := (List.mem_filter.mp hb).2
    exact hab (by simpa using h1) (by simpa using h2)
  have hsub : l.map (fun n => n.sym.toNat) ⊆ List.range 257 := by
    intro x hx
    obtain ⟨n, hn, rfl⟩ := List.mem_map.mp hx
    obtain ⟨hm, hk⟩ := List.mem_filter.mp hn
    obtain ⟨i, hi, rfl⟩ := List.mem_iff_getElem.mp hm
    rw [hget] at hk ⊢
    have := (h.leaf i hi (by simpa using hk)).1
    simp only [Config.eos] at this
    simp; omega
  have := (List.Nodup.subperm hnd hsub).length_le
  simpa using this

/-- Every node is a leaf or internal. -/
theorem kind_count (s : State) : s.nodes.countP (·.kind == .leaf) + s.nodes.countP (·.kind == .internal) = s.ncount := by
  unfold State.ncount
  induction s.nodes with
  | nil => rfl
  | cons a l ih => cases hk : a.kind <;> simp [hk] <;> omega

/-- Where some node is no child, the children are fewer than the nodes. -/
theorem countP_child_lt {i : Nat} (hi : i < s.ncount) (ho : (s.node i).own ≠ .child) : s.nodes.countP (·.own == .child) < s.ncount := by
  have hi' : i < s.nodes.length := hi
  have he := node_eq_getElem s hi
  rw [show s.ncount = s.nodes.length from rfl]
  refine lt_of_le_of_ne List.countP_le_length ?_
  intro hc
  rw [List.countP_eq_length] at hc
  have := hc _ (List.getElem_mem hi')
  rw [he] at ho
  simp at this; exact ho this

/-- Where some node is no child, there are fewer internal nodes than leaves (R42). -/
theorem internal_count (h : TreeOk s) {i : Nat} (hi : i < s.ncount) (ho : (s.node i).own ≠ .child) :
    s.nodes.countP (·.kind == .internal) ≤ 256 ∧ s.nodes.countP (·.kind == .internal) + 1 ≤ s.nodes.countP (·.kind == .leaf) := by
  have := leaf_count h; have := kind_count s; have := countP_child_lt hi ho; have := h.counts
  omega

/-- How many internal nodes stand at indices below `k`: it bounds the depth of a tree under index `k - 1`. -/
def below (s : State) (k : Nat) : Nat := (s.nodes.take k).countP (·.kind == .internal)

/-- `below` grows with its bound. -/
theorem below_mono {j k : Nat} (h : j ≤ k) : below s j ≤ below s k := by
  unfold below
  exact List.Sublist.countP_le ((List.take_prefix_take_left h).sublist)

/-- An internal node counts one. -/
theorem below_succ {i : Nat} (hi : i < s.ncount) (hk : (s.node i).kind = .internal) : below s (i + 1) = below s i + 1 := by
  have hi' : i < s.nodes.length := hi
  unfold below
  rw [List.take_succ_eq_append_getElem hi', List.countP_append]
  rw [node_eq_getElem s hi] at hk
  have hk' : (s.nodes[i]'hi').kind = .internal := hk
  simp [hk']

/-- `below` counts at most every internal node. -/
theorem below_le (k : Nat) : below s k ≤ s.nodes.countP (·.kind == .internal) := by
  unfold below; exact List.Sublist.countP_le (List.take_sublist _ _)

end Sys2Proof.Machine
end

