-- ==== Sys2Proof/Laws/Unpacker.lean ====
section
/-! SUPPORT. The unpacker as a bit string (10_state.md R35): what one bit does by what `Match` finds (45_bit_unpacker.md
R227), and what a whole codeword does under a prefix-free table. -/

namespace Sys2Proof.Machine

variable (s : State)

@[simp] theorem length_upBits : s.upBits.length = s.upLen.toNat := by simp [State.upBits]

/-- The state after one bit joined the accumulator. -/
def State.accumulate (b : Bool) : State := s.setUp (writeBit s.upAcc s.upLen.toNat b) (s.upLen + 1)

theorem toNat_succ_upLen (h : s.upLen.toNat < 256) : (s.upLen + 1).toNat = s.upLen.toNat + 1 := by
  rw [BitVec.toNat_add]; simp; omega

theorem accumulate_upBits (b : Bool) (h : s.upLen.toNat < 256) : (s.accumulate b).upBits = s.upBits ++ [b] := by
  simp only [State.upBits, State.accumulate, State.setUp_upLen, State.setUp_upAcc, toNat_succ_upLen s h]
  exact lowBits_writeBit _ _ _ h

/-- A bit after the sentinel, or after the accumulator filled up, is discarded (R227). -/
theorem unpackBit_ignored (b : Bool) (h : s.upDone = true ∨ s.upDead = true) : unpackBit s b = .ok s := by
  unfold unpackBit
  rcases h with h | h <;> simp [h]

/-- Every other bit, by what `Match` finds for the string it makes (R227). -/
theorem unpackBit_cases (b : Bool) (hdone : s.upDone = false) (hdead : s.upDead = false) (hlen : s.upLen.toNat < 256) :
    (s.matchSyms (s.upBits ++ [b]) = [] ∧ unpackBit s b = .ok
      (if s.upLen.toNat + 1 = 256 then (s.accumulate b).setUpFlags true false else s.accumulate b)) ∨
    (∃ x, s.matchSyms (s.upBits ++ [b]) = [x] ∧ unpackBit s b = .ok (decoded s x)) ∨
    ((∃ x y l, s.matchSyms (s.upBits ++ [b]) = x :: y :: l) ∧ unpackBit s b = .error .formatError) := by
  have hm : (s.accumulate b).matchSyms (s.accumulate b).upBits = s.matchSyms (s.upBits ++ [b]) := by
    rw [accumulate_upBits s b hlen]; exact matchSyms_congr (s := s) (t := s.accumulate b) rfl _
  have hl : ((s.accumulate b).upLen = BitVec.ofNat 9 Config.lMax) ↔ s.upLen.toNat + 1 = 256 := by
    rw [← BitVec.toNat_inj]
    simp only [State.accumulate, State.setUp_upLen, toNat_succ_upLen s hlen]
    rfl
  have hu : unpackBit s b = match (s.accumulate b).matchSyms (s.accumulate b).upBits with
      | [] => .ok (if (s.accumulate b).upLen = BitVec.ofNat 9 Config.lMax then
          (s.accumulate b).setUpFlags true (s.accumulate b).upDone else s.accumulate b)
      | [x] => .ok (decoded (s.accumulate b) x)
      | _ :: _ :: _ => .error .formatError := by
    unfold unpackBit
    simp only [hdone, hdead, Bool.or_self, Bool.false_eq_true, if_false]
    rfl
  rw [hm] at hu
  match h : s.matchSyms (s.upBits ++ [b]) with
  | [] =>
    left
    rw [h] at hu
    refine ⟨rfl, ?_⟩
    rw [hu]
    have hd : (s.accumulate b).upDone = false := hdone
    simp only [hl, hd]
  | [x] =>
    right; left
    rw [h] at hu
    exact ⟨x, rfl, hu⟩
  | x :: y :: l =>
    right; right
    rw [h] at hu
    exact ⟨⟨x, y, l, rfl⟩, hu⟩

/-- Everything but the unpacker's registers and its port. -/
def State.notUnpacker (s : State) : State :=
  { s with upAcc := 0, upLen := 0, upDead := false, upDone := false, upOut := [] }

theorem decoded_notUnpacker (x : Nat) : (decoded s x).notUnpacker = s.notUnpacker := by
  unfold decoded; dsimp only; split <;> rfl

/-- A bit changes only the unpacker's registers and its port. -/
theorem unpackBit_notUnpacker (b : Bool) (t : State) (h : unpackBit s b = .ok t) : t.notUnpacker = s.notUnpacker := by
  unfold unpackBit at h
  dsimp only at h
  split at h
  · cases h; rfl
  · split at h
    · cases h
      split <;> rfl
    · cases h
      exact decoded_notUnpacker _ _
    · cases h

theorem unpackBits_cons (b : Bool) (bits : List Bool) :
    unpackBits s (b :: bits) = (unpackBit s b).bind (fun t => unpackBits t bits) := rfl

theorem unpackBits_append (l m : List Bool) :
    unpackBits s (l ++ m) = (unpackBits s l).bind (fun t => unpackBits t m) := by
  induction l generalizing s with
  | nil => rfl
  | cons b l ih =>
    rw [List.cons_append, unpackBits_cons, unpackBits_cons]
    cases unpackBit s b with
    | error c => rfl
    | ok t => exact ih t

theorem unpackBits_notUnpacker (bits : List Bool) (t : State) (h : unpackBits s bits = .ok t) :
    t.notUnpacker = s.notUnpacker := by
  induction bits generalizing s with
  | nil => cases h; rfl
  | cons b bits ih =>
    rw [unpackBits_cons] at h
    cases hb : unpackBit s b with
    | error c => rw [hb] at h; cases h
    | ok u =>
      rw [hb] at h
      exact (ih u h).trans (unpackBit_notUnpacker s b u hb)

/-- Bits after the sentinel are discarded (R229). -/
theorem unpackBits_ignored (bits : List Bool) (h : s.upDone = true ∨ s.upDead = true) : unpackBits s bits = .ok s := by
  induction bits with
  | nil => rfl
  | cons b bits ih => rw [unpackBits_cons, unpackBit_ignored s b h]; exact ih

end Sys2Proof.Machine
end

