-- ==== Sys2Proof/Laws/Invariant.lean ====
section
/-! SUPPORT. The invariant, command by command: when a command's rule answers `OK` from a state that meets it, the state it
leaves meets it. In each, the four memories keep their canonical form (`Memory.wf`). -/

namespace Sys2Proof.Machine

variable {s t : State}

/-- The reset state's memories are in canonical form. -/
theorem reset_memory_wf : Memory.wf State.reset = true := by
  refine (memory_wf_iff _).mpr ⟨by decide, by decide, fun x => ?_⟩
  have h : State.reset.entry x = CtEntry.empty := entry_clearTable State.reset x
  rw [h]
  exact CtEntry.empty_wf

/-! ### Every memory operation keeps the canonical form -/

theorem memory_wf_allocNode (n : Node) (h : Memory.wf s = true) (hc : s.ncount < 513) : Memory.wf (s.allocNode n) = true := by
  rw [memory_wf_iff] at h ⊢
  refine ⟨?_, h.2.1, h.2.2⟩
  show (s.nodes ++ [n]).length ≤ 513
  rw [List.length_append]; exact hc

theorem memory_wf_setOwn (i : Nat) (o : Owner) (h : Memory.wf s = true) : Memory.wf (s.setOwn i o) = true := by
  rw [memory_wf_iff] at h ⊢
  refine ⟨?_, h.2.1, h.2.2⟩
  show (s.nodes.modify i _).length ≤ 513
  rw [List.length_modify]; exact h.1

theorem memory_wf_heapInsert (i : NodeIdx) (h : Memory.wf s = true) (hc : s.hsize < 257) :
    Memory.wf (s.heapInsert i) = true := by
  rw [memory_wf_iff] at h ⊢
  refine ⟨h.1, ?_, h.2.2⟩
  show (heapPush _ s.heap i).length ≤ 257
  rw [length_heapPush]; exact hc

theorem memory_wf_heapExtract (h : Memory.wf s = true) : Memory.wf s.heapExtract = true := by
  rw [memory_wf_iff] at h ⊢
  refine ⟨h.1, ?_, h.2.2⟩
  show (heapPop _ s.heap).length ≤ 257
  rw [length_heapPop]; exact (Nat.sub_le _ _).trans h.2.1

theorem memory_wf_setLeafSeen (x : Nat) (h : Memory.wf s = true) : Memory.wf (s.setLeafSeen x) = true := h

theorem memory_wf_setEntry (x : Nat) (e : CtEntry) (he : e.wf = true) (h : Memory.wf s = true) :
    Memory.wf (s.setEntry x e) = true := by
  rw [memory_wf_iff] at h ⊢
  exact ⟨h.1, h.2.1, table_wf_setEntry s x e he h.2.2⟩

theorem memory_wf_clearTable (h : Memory.wf s = true) : Memory.wf s.clearTable = true := by
  rw [memory_wf_iff] at h ⊢
  exact ⟨h.1, h.2.1, table_wf_clearTable s⟩

/-! ### The whole invariant -/

/-- The invariant does not depend on the ports and on the record of the host. -/
theorem Inv.congr (h : Inv s) (hn : t.nodes = s.nodes) (hh : t.heap = s.heap) (hl : t.leafseen = s.leafseen) (hr : t.root = s.root)
    (hc : t.ct = s.ct) (hpa : t.pkAcc = s.pkAcc) (hpc : t.pkCnt = s.pkCnt) (hua : t.upAcc = s.upAcc) (hul : t.upLen = s.upLen)
    (hud : t.upDead = s.upDead) (hue : t.upDone = s.upDone) (he : t.err = s.err) (hec : t.errCmd = s.errCmd) : Inv t := by
  obtain ⟨h1, h2, h3, h4, h5, h6, h7⟩ := h
  refine ⟨?_, heapOk_congr h2 hn hh, treeOk_congr h3 hn hl, ?_, ?_, ?_, ?_⟩
  · unfold Memory.wf; rw [hn, hh, hc]; exact h1
  · unfold RootOk; rw [hr, ncount_congr hn, node_congr hn]; exact h4
  · unfold PackOk; rw [hpa, hpc]; exact h5
  · obtain ⟨a, b, c, d⟩ := h6
    exact ⟨by rw [hul]; exact a, by rw [hua, hul]; exact b, by rw [hud, hul]; exact c, by rw [hue, hul]; exact d⟩
  · obtain ⟨a, b⟩ := h7
    exact ⟨by rw [he]; exact a, by rw [he, hec]; exact b⟩

/-- A response keeps the invariant. -/
theorem inv_respond (r : Response) (h : Inv s) : Inv (s.respond r) :=
  h.congr rfl rfl rfl rfl rfl rfl rfl rfl rfl rfl rfl rfl rfl

/-- Taking an input keeps the invariant. -/
theorem inv_setInbox (r : List HostEvent) (h : Inv s) : Inv (s.setInbox r) :=
  h.congr rfl rfl rfl rfl rfl rfl rfl rfl rfl rfl rfl rfl rfl

/-- The capacities, from the canonical form of the memories. -/
theorem Inv.ncount_le (h : Inv s) : s.ncount ≤ 513 := ((memory_wf_iff s).mp h.mem).1
theorem Inv.hsize_le (h : Inv s) : s.hsize ≤ 257 := ((memory_wf_iff s).mp h.mem).2.1

/-- Every table entry is canonical (R32). -/
theorem entry_wf (h : Inv s) (x : Nat) : (s.entry x).wf = true := ((memory_wf_iff s).mp h.mem).2.2 x

/-- A canonical table keeps the invariant. -/
theorem inv_ct (ct : Vector CtEntry 257) (hct : ∀ x, ((s.setCt ct).entry x).wf = true) (h : Inv s) : Inv (s.setCt ct) := by
  obtain ⟨h1, h2, h3, h4, h5, h6, h7⟩ := h
  rw [memory_wf_iff] at h1
  exact ⟨(memory_wf_iff _).mpr ⟨h1.1, h1.2.1, hct⟩, heapOk_congr h2 rfl rfl, treeOk_congr h3 rfl rfl, h4, h5, ⟨h6.1, h6.2, h6.3, h6.4⟩, ⟨h7.1, h7.2⟩⟩

/-- A change to the tree builder alone keeps the invariant when the heap, the tree and `root` are as they should. -/
theorem inv_tree (hrest : t.rest = s.rest) (hn : t.nodes.length ≤ 513) (hhl : t.heap.length ≤ 257) (hh : HeapOk t) (ht : TreeOk t)
    (hr : RootOk t) (h : Inv s) : Inv t := by
  obtain ⟨h1, h2, h3, h4, h5, h6, h7⟩ := h
  have c1 : t.ct = s.ct := congrArg (·.ct) hrest
  have c2 : t.pkAcc = s.pkAcc := congrArg (·.pkAcc) hrest
  have c3 : t.pkCnt = s.pkCnt := congrArg (·.pkCnt) hrest
  have c4 : t.upAcc = s.upAcc := congrArg (·.upAcc) hrest
  have c5 : t.upLen = s.upLen := congrArg (·.upLen) hrest
  have c6 : t.upDead = s.upDead := congrArg (·.upDead) hrest
  have c7 : t.upDone = s.upDone := congrArg (·.upDone) hrest
  have c8 : t.err = s.err := congrArg (·.err) hrest
  have c9 : t.errCmd = s.errCmd := congrArg (·.errCmd) hrest
  rw [memory_wf_iff] at h1
  refine ⟨(memory_wf_iff _).mpr ⟨hn, hhl, fun x => by rw [entry_congr c1]; exact h1.2.2 x⟩, hh, ht, hr, by unfold PackOk; rw [c2, c3]; exact h5, ?_, ?_⟩
  · obtain ⟨a, b, c, d⟩ := h6
    exact ⟨by rw [c5]; exact a, by rw [c4, c5]; exact b, by rw [c6, c5]; exact c, by rw [c7, c5]; exact d⟩
  · obtain ⟨a, b⟩ := h7
    exact ⟨by rw [c8]; exact a, by rw [c8, c9]; exact b⟩

theorem inv_leaf {x : Nat} {c : Weight} {rd : Word} (h : Inv s) (hr : leafRule x c s = .ok rd t) : Inv t := by
  unfold leafRule at hr
  split at hr; · cases hr
  split at hr; · cases hr
  split at hr; · cases hr
  split at hr; · cases hr
  rename_i h1 h2 h3 h4
  simp only [not_or, Config.nodeCap, Config.heapCap] at h4
  have := h.ncount_le; have := h.hsize_le
  cases hr
  have hlt : s.ncount < 513 := by omega
  refine inv_tree (s := s) rfl ?_ ?_ ?_ ?_ (.inl rfl) h
  · show (s.nodes ++ [leafNode x c]).length ≤ 513
    simp; unfold State.ncount at hlt; omega
  · show (heapPush _ s.heap s.nextIdx).length ≤ 257
    rw [length_heapPush]
    have h5 := h4.2; unfold State.hsize at *; omega
  · exact heapOk_congr (heapOk_alloc_insert _ rfl hlt h.heap) rfl rfl
  · exact treeOk_congr (treeOk_leaf (by simpa using h1) h2 (by simpa using h3) h.tree) rfl rfl

theorem inv_heapExtract {rd : Word} (h : Inv s) (hr : heapExtractRule s = .ok rd t) : Inv t := by
  unfold heapExtractRule at hr
  split at hr; · cases hr
  rename_i h1
  cases hr
  have hne : s.heap ≠ [] := by intro hh; apply h1; simp [State.hsize, hh]
  have hn := h.ncount_le; have hz := h.hsize_le
  obtain ⟨a, b, c⟩ := extractAs_ok h.heap h.tree (by omega) hne
  refine inv_tree (s := s) rfl ?_ ?_ (heapOk_congr a rfl rfl) (treeOk_congr b rfl rfl) (.inl rfl) h
  · simpa [State.setOwn, State.ncount] using hn
  · show (heapPop _ s.heap).length ≤ 257
    rw [length_heapPop]; unfold State.hsize at hz; omega

theorem inv_heapInsert {i : Nat} {rd : Word} (h : Inv s) (hr : heapInsertRule i s = .ok rd t) : Inv t := by
  unfold heapInsertRule at hr
  split at hr; · cases hr
  split at hr; · cases hr
  split at hr; · cases hr
  rename_i h1 h2 h3
  cases hr
  have hn := h.ncount_le; have hz := h.hsize_le
  rw [Bool.not_eq_false, isDetached_iff] at h2
  have hi : (BitVec.ofNat 10 i).toNat = i := by simp; omega
  have a := heapOk_insert (i := BitVec.ofNat 10 i) (by rw [hi]; exact h2.1) (by rw [hi, h2.2]; simp) (by omega) h.heap
  rw [hi] at a
  have b : TreeOk ((s.heapInsert (BitVec.ofNat 10 i)).setOwn i .heap) :=
    treeOk_setOwn (s := s.heapInsert (BitVec.ofNat 10 i)) i .heap h2.1 (by rw [node_congr (heapInsert_nodes _ _), h2.2]; simp) (by simp) (by simp) (treeOk_congr h.tree rfl rfl)
  refine inv_tree (s := s) rfl ?_ ?_ (heapOk_congr a rfl rfl) (treeOk_congr b rfl rfl) (.inl rfl) h
  · simpa [State.setOwn, State.ncount] using hn
  · show (heapPush _ s.heap _).length ≤ 257
    rw [length_heapPush]; simp only [State.hsize, Config.heapCap] at *; omega

theorem inv_nodeJoin {l r : Nat} {rd : Word} (h : Inv s) (hr : nodeJoinRule l r s = .ok rd t) : Inv t := by
  unfold nodeJoinRule at hr
  dsimp only at hr
  split at hr; · cases hr
  split at hr; · cases hr
  split at hr; · cases hr
  split at hr; · cases hr
  rename_i h1 h2 h3 h4
  cases hr
  have hn := h.ncount_le; have hz := h.hsize_le
  simp only [not_or, Bool.not_eq_false, isDetached_iff] at h2
  obtain ⟨hlr, ⟨l1, l2⟩, r1, r2⟩ := h2
  have hl : (BitVec.ofNat 10 l).toNat = l := by simp; omega
  have hrr : (BitVec.ofNat 10 r).toNat = r := by simp; omega
  have hne : BitVec.ofNat 10 l ≠ BitVec.ofNat 10 r := fun hc => hlr (by rw [← hl, ← hrr, hc])
  have hlt : s.ncount < 513 := by simp only [Config.nodeCap] at h3; omega
  set wt := BitVec.ofNat 32 (weightSum s (BitVec.ofNat 10 l) (BitVec.ofNat 10 r)) with hwt
  have b : TreeOk (s.join (BitVec.ofNat 10 l) (BitVec.ofNat 10 r) wt .detached) :=
    treeOk_join (by rw [hl]; exact l1) (by rw [hrr]; exact r1) hne (by rw [hl, l2]; simp) (by rw [hrr, r2]; simp) (by omega) _ (by simp) (by simp) h.tree
  have a : HeapOk (s.join (BitVec.ofNat 10 l) (BitVec.ofNat 10 r) wt .detached) :=
    heapOk_join (by rw [hl]; exact l1) (by rw [hrr]; exact r1) (by rw [hl, l2]; simp) (by rw [hrr, r2]; simp) hlt h.heap
  unfold State.join at a b
  rw [hl, hrr] at a b
  refine inv_tree (s := s) rfl ?_ hz (heapOk_congr a rfl rfl) (treeOk_congr b rfl rfl) (.inl rfl) h
  · simp [State.setOwn, State.allocNode, State.ncount] at hlt ⊢; omega

theorem inv_merge {rd : Word} (h : Inv s) (hr : mergeRule s = .ok rd t) : Inv t := by
  unfold mergeRule at hr
  split at hr; · cases hr
  rename_i h1
  rw [mergeStep_eq] at hr
  split at hr
  · cases hr
  · rename_i i u heq
    cases hr
    split at heq; · cases heq
    split at heq; · cases heq
    rename_i h2 h3
    cases heq
    have hn := h.ncount_le; have hz := h.hsize_le
    have := merged_ok (by omega) h.heap h.tree (by omega) (by omega)
    refine inv_tree (s := s) rfl ?_ ?_ (heapOk_congr this.1 rfl rfl) (treeOk_congr this.2 rfl rfl) (.inl rfl) h
    · have := merged_ncount (s := s); unfold State.ncount at this hn h2; show s.merged.nodes.length ≤ _; omega
    · have := merged_hsize (s := s) (by omega); unfold State.hsize at this hz h1; show s.merged.heap.length ≤ _; omega

theorem inv_build {rd : Word} (h : Inv s) (hr : buildRule s = .ok rd t) : Inv t := by
  unfold buildRule at hr
  split at hr; · cases hr
  split at hr; · cases hr
  rename_i h1 u hu
  cases hr
  have hz := h.hsize_le
  obtain ⟨a, b, c, d, e, f, g⟩ := mergeLoop_ok _ h.ncount_le h.heap h.tree hu
  have hne : u.heap ≠ [] := by intro hh; have := e (by omega); simp [State.hsize, hh] at this
  obtain ⟨a', b', c'⟩ := extractAs_ok a b (by omega) hne
  refine inv_tree (s := s) f ?_ ?_ (heapOk_congr a' rfl rfl) (treeOk_congr b' rfl rfl) (.inr ?_) h
  · simpa [State.setOwn, State.ncount] using c
  · show (heapPop _ u.heap).length ≤ 257
    rw [length_heapPop]; unfold State.hsize at *; omega
  · refine ⟨?_, c'.2⟩
    show u.heapMin.toNat < (u.heapExtract.setOwn _ _).ncount
    rw [ncount_setOwn]; exact c'.1

theorem inv_tbClear (h : Inv s) {rd : Word} (hr : tbClearRule s = .ok rd t) : Inv t := by
  cases hr
  refine inv_tree (s := s) rfl (by simp [State.clearLeafSeen]) (by simp [State.clearLeafSeen]) (heapOk_empty rfl rfl)
    (treeOk_empty rfl (fun x hx => by simp [State.clearLeafSeen, State.leafSeen, hx])) (.inl rfl) h

/-- A visit writes canonical entries only, and only the table (R171). -/
theorem visit_wf (h : TreeOk s) (fuel : Nat) (i : NodeIdx) (path : BitVec 256) (len : Nat) (acc : State × Nat)
   (hi : i.toNat < s.ncount) (hp : path.toNat < 2 ^ len) (hl : len + below s (i.toNat + 1) ≤ 256) (hw : ∀ y, (acc.1.entry y).wf = true) :
   (∀ y, ((visit s fuel i path len acc).1.entry y).wf = true) ∧ ∃ v, (visit s fuel i path len acc).1 = acc.1.setCt v := by
  induction fuel generalizing i path len acc with
  | zero => exact ⟨hw, acc.1.ct, rfl⟩
  | succ fuel ih =>
    unfold visit
    dsimp only
    cases hk : (s.node i.toNat).kind with
    | leaf =>
      refine ⟨table_wf_setEntry _ _ _ ?_ hw, _, rfl⟩
      rw [CtEntry.wf_iff]
      have e : (BitVec.ofNat 9 len).toNat = len := by simp; omega
      refine ⟨by simp, ?_, ?_⟩
      · show (BitVec.ofNat 9 len).toNat ≤ 256; omega
      · show path.toNat < 2 ^ (BitVec.ofNat 9 len).toNat; rw [e]; exact hp
    | internal =>
      have g := h.internal _ hi hk
      have hb := below_succ hi hk
      have bl := below_mono (s := s) (show (s.node i.toNat).left.toNat + 1 ≤ i.toNat from g.2.1)
      have br := below_mono (s := s) (show (s.node i.toNat).right.toNat + 1 ≤ i.toNat from g.2.2.1)
      obtain ⟨a1, v, a2⟩ := ih (s.node i.toNat).left path (len + 1) acc (by have := g.2.1; omega) (by rw [Nat.pow_succ]; omega) (by omega) hw
      obtain ⟨b1, w, b2⟩ := ih (s.node i.toNat).right (writeBit path len true) (len + 1)
        (visit s fuel (s.node i.toNat).left path (len + 1) acc) (by have := g.2.2.1; omega) (writeBit_lt _ _ _ hp) (by omega) a1
      exact ⟨b1, w, by dsimp only; rw [b2, a2]; rfl⟩

theorem inv_assign {rd : Word} (h : Inv s) (hr : assignRule s = .ok rd t) : Inv t := by
  unfold assignRule at hr
  split at hr; · cases hr
  rename_i h1
  rcases h.root with h2 | ⟨hi, ho⟩
  · exact absurd h2 h1
  dsimp only at hr
  split at hr
  · cases hr
    refine inv_ct (s := s) _ ?_ h
    intro x
    exact table_wf_setEntry s.clearTable _ _ (by decide) (table_wf_clearTable s) x
  · cases hr
    have hc := internal_count h.tree hi (by rw [ho]; simp)
    obtain ⟨a, v, b⟩ := visit_wf h.tree s.ncount s.root 0 0 (s.clearTable, 0) hi (by simp) (by have := below_le (s := s) (s.root.toNat + 1); omega) (table_wf_clearTable s)
    rw [b] at a ⊢
    exact inv_ct (s := s) _ a h

theorem inv_tblDefine {x : Nat} {rd : Word} (h : Inv s) (hr : tblDefineRule x s = .ok rd t) : Inv t := by
  unfold tblDefineRule at hr
  split at hr; · cases hr
  split at hr; · cases hr
  cases hr
  exact inv_ct _ (table_wf_setEntry s _ _ (by decide) (entry_wf h)) h

theorem inv_tblAppend {x : Nat} {b : Bool} {rd : Word} (h : Inv s) (hr : tblAppendRule x b s = .ok rd t) : Inv t := by
  unfold tblAppendRule at hr
  split at hr; · cases hr
  split at hr; · cases hr
  split at hr; · cases hr
  rename_i h1 h2 h3
  cases hr
  exact inv_ct _ (table_wf_setEntry s _ _ (CtEntry.append_wf _ _ (entry_wf h x) (by simpa [State.ctValid] using h2) h3) (entry_wf h)) h

/-- A change to the packer alone keeps the invariant when the packer's holds. -/
theorem inv_packer (h : Inv s) (hp : PackOk t) (hn : t.notPacker = s.notPacker) : Inv t := by
  have h' : Inv s.notPacker := by
    obtain ⟨h1, h2, h3, h4, h5, h6, h7⟩ := h
    exact ⟨h1, heapOk_congr h2 rfl rfl, treeOk_congr h3 rfl rfl, h4, by simp [PackOk, State.notPacker], ⟨h6.1, h6.2, h6.3, h6.4⟩, ⟨h7.1, h7.2⟩⟩
  rw [← hn] at h'
  obtain ⟨h1, h2, h3, h4, h5, h6, h7⟩ := h'
  exact ⟨h1, heapOk_congr h2 rfl rfl, treeOk_congr h3 rfl rfl, h4, hp, ⟨h6.1, h6.2, h6.3, h6.4⟩, ⟨h7.1, h7.2⟩⟩

theorem inv_packSym {x : Nat} {rd : Word} (h : Inv s) (hr : packSymRule x s = .ok rd t) : Inv t := by
  unfold packSymRule at hr
  split at hr; · cases hr
  split at hr; · cases hr
  cases hr
  obtain ⟨a, b, _⟩ := packBits_spec s (s.codeOf x) h.pack
  exact inv_packer h a b

theorem inv_packEnd {rd : Word} (h : Inv s) (hr : packEndRule s = .ok rd t) : Inv t := by
  unfold packEndRule at hr
  split at hr; · cases hr
  cases hr
  obtain ⟨a, b, _⟩ := packBits_spec s (s.codeOf Config.eos) h.pack
  obtain ⟨c, d, e, _⟩ := packFlush_spec _ a
  exact inv_packer h (by unfold PackOk; rw [c, d]; decide) (e.trans b)

/-- A cleared accumulator meets the unpacker's invariant. -/
theorem unpackOk_empty (hl : t.upLen = 0) (ha : t.upAcc = 0) (hd : t.upDead = false) : UnpackOk t :=
  ⟨by rw [hl]; decide, by rw [hl, ha]; decide, by rw [hl, hd]; decide, fun _ => hl⟩

/-- A change to the unpacker alone keeps the invariant when the unpacker's holds. -/
theorem inv_unpacker (h : Inv s) (hp : UnpackOk t) (hn : t.notUnpacker = s.notUnpacker) : Inv t := by
  have h' : Inv s.notUnpacker := by
    obtain ⟨h1, h2, h3, h4, h5, h6, h7⟩ := h
    exact ⟨h1, heapOk_congr h2 rfl rfl, treeOk_congr h3 rfl rfl, h4, h5, unpackOk_empty rfl rfl rfl, ⟨h7.1, h7.2⟩⟩
  rw [← hn] at h'
  obtain ⟨h1, h2, h3, h4, h5, h6, h7⟩ := h'
  exact ⟨h1, heapOk_congr h2 rfl rfl, treeOk_congr h3 rfl rfl, h4, h5, hp, ⟨h7.1, h7.2⟩⟩

/-- One bit keeps the unpacker's invariant (R227). -/
theorem unpackOk_unpackBit (b : Bool) (h : UnpackOk s) (hr : unpackBit s b = .ok t) : UnpackOk t := by
  by_cases hig : s.upDone = true ∨ s.upDead = true
  · rw [unpackBit_ignored s b hig] at hr; cases hr; exact h
  · simp only [not_or, Bool.not_eq_true] at hig
    obtain ⟨h1, h2, h3, h4⟩ := h
    have hlen : s.upLen.toNat < 256 := by
      have : s.upLen.toNat ≠ 256 := fun hc => by rw [← h3, hig.2] at hc; cases hc
      omega
    have hs := toNat_succ_upLen s hlen
    have hacc : (s.accumulate b).upLen = s.upLen + 1 := rfl
    have hw : (s.accumulate b).upAcc.toNat < 2 ^ (s.accumulate b).upLen.toNat := by
      rw [hacc, hs]; exact writeBit_lt _ _ _ h2
    rcases unpackBit_cases s b hig.1 hig.2 hlen with ⟨_, h⟩ | ⟨x, _, h⟩ | ⟨_, h⟩
    · rw [h] at hr; cases hr
      split
      · rename_i h256
        exact ⟨by show (s.upLen + 1).toNat ≤ _; omega, hw, by constructor <;> intro _ <;> first | rfl | (show (s.upLen + 1).toNat = _; omega), by intro hc; cases hc⟩
      · rename_i h256
        refine ⟨by show (s.upLen + 1).toNat ≤ _; omega, hw, ?_, ?_⟩
        · show s.upDead = true ↔ (s.upLen + 1).toNat = 256
          rw [hig.2, hs]; simp [h256]
        · intro hc; rw [show (s.accumulate b).upDone = s.upDone from rfl, hig.1] at hc; cases hc
    · rw [h] at hr; cases hr
      unfold decoded; dsimp only
      split
      · exact unpackOk_empty rfl rfl hig.2
      · exact unpackOk_empty rfl rfl hig.2
    · rw [h] at hr; cases hr

/-- Bits in turn keep the unpacker's invariant (R229). -/
theorem unpackOk_unpackBits (bits : List Bool) (h : UnpackOk s) (hr : unpackBits s bits = .ok t) : UnpackOk t := by
  induction bits generalizing s with
  | nil => cases hr; exact h
  | cons b bits ih =>
    rw [unpackBits_cons] at hr
    cases hb : unpackBit s b with
    | error e => rw [hb] at hr; cases hr
    | ok u => rw [hb] at hr; exact ih (unpackOk_unpackBit b h hb) hr

theorem inv_unpkByte {v : Byte} {rd : Word} (h : Inv s) (hr : unpkByteRule v s = .ok rd t) : Inv t := by
  unfold unpkByteRule at hr
  split at hr; · cases hr
  rename_i u hu
  cases hr
  exact inv_unpacker h (unpackOk_unpackBits _ h.unpack hu) (unpackBits_notUnpacker s _ _ hu)

/-- The one fault of the unpacker (R227). -/
theorem unpackBits_error (bits : List Bool) {c : FaultCode} (h : unpackBits s bits = .error c) : c = .formatError := by
  induction bits generalizing s with
  | nil => cases h
  | cons b bits ih =>
    rw [unpackBits_cons] at h
    cases hb : unpackBit s b with
    | ok u => rw [hb] at h; exact ih h
    | error e =>
      rw [hb] at h; cases h
      unfold unpackBit at hb
      split at hb; · cases hb
      dsimp only at hb
      split at hb <;> cases hb
      rfl

end Sys2Proof.Machine
end

