-- ==== Sys2Proof/Laws/PerInstr.lean ====
section
/-! SUPPORT. Per instruction: its command word has its own row's bits (30_encoding.md R92, R95). -/

namespace Sys2Proof.Laws.MatchesRow

/-- The encoder's word for `i` matches `i`'s row of the opcode map. -/
def Statement (i : Instr) : Prop := i.row.matchesWord (encode i)

theorem and_high {x : BitVec 32} {n : Nat} (h : x.toNat < 2 ^ n) : x &&& (BitVec.allOnes 32 <<< n) = 0 := by
  apply BitVec.eq_of_getLsbD_eq
  intro j hj
  by_cases hn : j < n
  · simp [hn]
  · have : x.getLsbD j = false :=
      Nat.testBit_lt_two_pow (Nat.lt_of_lt_of_le h (Nat.pow_le_pow_right (by omega) (by omega)))
    simp [this]

/-- A word matches a row when its `op` is the row's, its `a` is 0 or unmasked, and its `w` is 0 above the unmasked bits. -/
theorem of_fields {r : Row} {op : BitVec 8} {a : BitVec 10} {x : BitVec 32} (n : Nat)
    (hr : r.pattern = mkWord op 0 0 ∧ opField r.mask = BitVec.allOnes 8 ∧ wField r.mask = BitVec.allOnes 32 <<< n)
    (ha : a = 0 ∨ aField r.mask = 0) (hx : x.toNat < 2 ^ n) :
    r.matchesWord (mkWord op a x) := by
  unfold Row.matchesWord
  obtain ⟨hp, hop, hw⟩ := hr
  have ha' : a &&& aField r.mask = 0 := by
    rcases ha with ha | ha
    · rw [ha]; exact BitVec.zero_and
    · rw [ha]; exact BitVec.and_zero
  rw [hp]
  apply word_ext
  · rw [opField_and, opField_mkWord, opField_mkWord, hop, BitVec.and_allOnes]
  · rw [rsvField_and, rsvField_mkWord, rsvField_mkWord]; exact BitVec.zero_and
  · rw [aField_and, aField_mkWord, aField_mkWord, ha']
  · rw [wField_and, wField_mkWord, wField_mkWord, hw, and_high hx]

theorem setWidth_lt {n : Nat} (v : BitVec n) : (v.setWidth 32).toNat < 2 ^ n := by
  rw [BitVec.toNat_setWidth]
  exact Nat.lt_of_le_of_lt (Nat.mod_le _ _) v.isLt

theorem nop : Statement .nop := rfl
theorem reset : Statement .reset := rfl
theorem status : Statement .status := rfl
theorem errcmd : Statement .errcmd := rfl
theorem leaf (x : Nat) (c : Weight) : Statement (.leaf x c) :=
  of_fields 32 (by simp only [Instr.row]; decide) (.inr (by simp only [Instr.row]; decide)) (c.isLt)
theorem heapPeek : Statement .heapPeek := rfl
theorem heapExtract : Statement .heapExtract := rfl
theorem heapInsert (n : Nat) : Statement (.heapInsert n) :=
  of_fields 0 (by simp only [Instr.row]; decide) (.inr (by simp only [Instr.row]; decide)) (by decide)
theorem nodeJoin (l : Nat) (r : Nat) : Statement (.nodeJoin l r) :=
  of_fields 10 (by simp only [Instr.row]; decide) (.inr (by simp only [Instr.row]; decide)) (setWidth_lt _)
theorem nodeInfo (n : Nat) : Statement (.nodeInfo n) :=
  of_fields 0 (by simp only [Instr.row]; decide) (.inr (by simp only [Instr.row]; decide)) (by decide)
theorem nodeKids (n : Nat) : Statement (.nodeKids n) :=
  of_fields 0 (by simp only [Instr.row]; decide) (.inr (by simp only [Instr.row]; decide)) (by decide)
theorem heapSlot (k : Nat) : Statement (.heapSlot k) :=
  of_fields 0 (by simp only [Instr.row]; decide) (.inr (by simp only [Instr.row]; decide)) (by decide)
theorem merge : Statement .merge := rfl
theorem build : Statement .build := rfl
theorem assign : Statement .assign := rfl
theorem tbClear : Statement .tbClear := rfl
theorem tblClear : Statement .tblClear := rfl
theorem tblDefine (x : Nat) : Statement (.tblDefine x) :=
  of_fields 0 (by simp only [Instr.row]; decide) (.inr (by simp only [Instr.row]; decide)) (by decide)
theorem tblAppend (x : Nat) (b : Bool) : Statement (.tblAppend x b) :=
  of_fields 1 (by simp only [Instr.row]; decide) (.inr (by simp only [Instr.row]; decide)) (setWidth_lt _)
theorem tblLen (x : Nat) : Statement (.tblLen x) :=
  of_fields 0 (by simp only [Instr.row]; decide) (.inr (by simp only [Instr.row]; decide)) (by decide)
theorem tblBit (x : Nat) (j : Nat) : Statement (.tblBit x j) :=
  of_fields 8 (by simp only [Instr.row]; decide) (.inr (by simp only [Instr.row]; decide)) (setWidth_lt _)
theorem packSym (x : Nat) : Statement (.packSym x) :=
  of_fields 0 (by simp only [Instr.row]; decide) (.inr (by simp only [Instr.row]; decide)) (by decide)
theorem packEnd : Statement .packEnd := rfl
theorem unpkStart : Statement .unpkStart := rfl
theorem unpkByte (v : Byte) : Statement (.unpkByte v) :=
  of_fields 8 (by simp only [Instr.row]; decide) (.inl rfl) (setWidth_lt _)
theorem unpkEnd : Statement .unpkEnd := rfl

end Sys2Proof.Laws.MatchesRow
end

