-- ==== Sys2Proof/Tests/Slice0.lean ====
section
/-! SUPPORT. Tests: the well-formedness checks refuse, every command decodes from a word written out from 30_encoding.md,
one step of every command on a small state (expected values from 95_test_vectors.md or from the rule named), and for every
statement with hypotheses a state and operands that meet them. -/

namespace Sys2Proof.Tests

set_option Elab.async false

open Sys2Proof Sys2Proof.Machine

/-! ### Small states -/

def leafOf (x : BitVec 9) (w : Weight) (o : Owner) : Node := ⟨.leaf, x, w, 0x3FF, 0x3FF, o⟩

def innerOf (w : Weight) (l r : NodeIdx) (o : Owner) : Node := ⟨.internal, 0x1FF, w, l, r, o⟩

/-- The symbols listed marked seen. -/
def seen (s : State) (xs : List Nat) : State := xs.foldl State.setLeafSeen s

/-- A reset block with these nodes, these heap slots and this root, the symbols listed seen. -/
def withTree (nodes : List Node) (heap : List NodeIdx) (root : NodeIdx) (xs : List Nat := [97, 98, 99, 256]) : State :=
  seen { State.reset with nodes := nodes, heap := heap, root := root } xs

/-- V-H2: the four leaves of "aaabbc". -/
def fourLeaves : State :=
  withTree [leafOf 97 3 .heap, leafOf 98 2 .heap, leafOf 99 1 .heap, leafOf 256 1 .heap] [2, 3, 1, 0] 0x3FF

/-- P4 after two `HEAP.EXTRACT`. -/
def twoDetached : State :=
  withTree [leafOf 97 3 .heap, leafOf 98 2 .heap, leafOf 99 1 .detached, leafOf 256 1 .detached] [1, 0] 0x3FF

/-- P1 after `BUILD`. -/
def builtTree : State :=
  withTree [leafOf 97 3 .child, leafOf 98 2 .child, leafOf 99 1 .child, leafOf 256 1 .child, innerOf 2 2 3 .child,
    innerOf 4 1 4 .child, innerOf 7 0 5 .detached] [] 6

/-- P4b after the third `MERGE`. -/
def oneEntry : State :=
  withTree [leafOf 97 3 .child, leafOf 98 2 .child, leafOf 99 1 .child, leafOf 256 1 .child, innerOf 2 2 3 .child,
    innerOf 4 1 4 .child, innerOf 7 0 5 .heap] [6] 0x3FF

/-- The four leaves with a weight that no sum holds (as V-T8). -/
def heavyLeaves : State :=
  withTree [leafOf 97 0xFFFFFFFF .heap, leafOf 98 2 .heap, leafOf 99 1 .heap, leafOf 256 1 .heap] [2, 3, 1, 0] 0x3FF

/-- V-T4 after `BUILD`: the sentinel's leaf alone under the root. -/
def loneLeaf : State := withTree [leafOf 256 1 .detached] [] 0 [256]

/-- V-C1: a=`0` b=`10` c=`110` EOS=`111`. -/
def tableC1 : State :=
  (((State.reset.setEntry 97 ⟨true, 1, 0⟩).setEntry 98 ⟨true, 2, 1⟩).setEntry 99 ⟨true, 3, 3⟩).setEntry 256 ⟨true, 3, 7⟩

/-- V-U11: a=`1` b=`00` c=`00`, two symbols with one codeword. -/
def ambiguous : State :=
  ((State.reset.setEntry 97 ⟨true, 1, 1⟩).setEntry 98 ⟨true, 2, 0⟩).setEntry 99 ⟨true, 2, 0⟩

/-- A codeword of the greatest length, `1` 256 times (V-C8). -/
def longest : State := State.reset.setEntry 97 ⟨true, 256, BitVec.allOnes 256⟩

/-- P4 after the `ASSIGN` that faulted. -/
def faulted : State := { fourLeaves with err := 8, errCmd := 0x2200000000000000 }

/-! ### Well-formedness: one ill-formed term for each check -/

theorem test_illFormed : ¬ (Instr.leaf 1024 1).WellFormed ∧ ¬ (Instr.heapInsert 1024).WellFormed ∧
    ¬ (Instr.nodeJoin 1024 0).WellFormed ∧ ¬ (Instr.nodeJoin 0 1024).WellFormed ∧ ¬ (Instr.nodeInfo 1024).WellFormed ∧
    ¬ (Instr.nodeKids 1024).WellFormed ∧ ¬ (Instr.heapSlot 1024).WellFormed ∧ ¬ (Instr.tblDefine 1024).WellFormed ∧
    ¬ (Instr.tblAppend 1024 true).WellFormed ∧ ¬ (Instr.tblLen 1024).WellFormed ∧ ¬ (Instr.tblBit 1024 0).WellFormed ∧
    ¬ (Instr.tblBit 0 256).WellFormed ∧ ¬ (Instr.packSym 1024).WellFormed := by decide

theorem test_wellFormed : (Instr.leaf 1023 0xFFFFFFFF).WellFormed ∧ (Instr.nodeJoin 1023 1023).WellFormed ∧
    (Instr.tblBit 1023 255).WellFormed := by decide

/-! ### Decoding: words written out from R90, R91, R95 (the words of 95_test_vectors.md among them) -/

theorem test_decode_control : decode 0x0000000000000000 = .ok .nop ∧ decode 0x0100000000000000 = .ok .reset ∧
    decode 0x0200000000000000 = .ok .status ∧ decode 0x0300000000000000 = .ok .errcmd := by decide

theorem test_decode_heap : decode 0x1100000000000000 = .ok .heapPeek ∧ decode 0x1200000000000000 = .ok .heapExtract ∧
    decode 0x1300020100000000 = .ok (.heapInsert 513) ∧ decode 0x1400000000000201 = .ok (.nodeJoin 0 513) ∧
    decode 0x1500020000000000 = .ok (.nodeInfo 512) ∧ decode 0x160003FF00000000 = .ok (.nodeKids 1023) ∧
    decode 0x1700010100000000 = .ok (.heapSlot 257) := by decide

theorem test_decode_tree : decode 0x10000061FFFFFFFF = .ok (.leaf 97 0xFFFFFFFF) ∧
    decode 0x2000000000000000 = .ok .merge ∧ decode 0x2100000000000000 = .ok .build ∧
    decode 0x2300000000000000 = .ok .tbClear := by decide

theorem test_decode_table : decode 0x2200000000000000 = .ok .assign ∧ decode 0x3000000000000000 = .ok .tblClear ∧
    decode 0x3100006100000000 = .ok (.tblDefine 97) ∧ decode 0x3200006100000001 = .ok (.tblAppend 97 true) ∧
    decode 0x3300010000000000 = .ok (.tblLen 256) ∧ decode 0x34000061000000FF = .ok (.tblBit 97 255) := by decide

theorem test_decode_stream : decode 0x4000006400000000 = .ok (.packSym 100) ∧ decode 0x4100000000000000 = .ok .packEnd ∧
    decode 0x5000000000000000 = .ok .unpkStart ∧ decode 0x510000000000001D = .ok (.unpkByte 0x1D) ∧
    decode 0x5200000000000000 = .ok .unpkEnd := by decide

/-- V-E1. -/
theorem test_decode_illegal : decode 0x0400000000000000 = .error .unknownOp ∧
    decode 0xFF00000000000000 = .error .unknownOp ∧ decode 0x1100000100000000 = .error .unusedBits ∧
    decode 0x0100000000000001 = .error .unusedBits ∧ decode 0x3200006100000002 = .error .unusedBits ∧
    decode 0x1000046100000003 = .error .reservedBits ∧ decode 0x5100000000000100 = .error .unusedBits ∧
    decode 0x1400000200000400 = .error .unusedBits ∧ decode 0x3400006100000100 = .error .unusedBits ∧
    decode 0x4000006100000001 = .error .unusedBits := by decide

/-- The host's two entry points on one word: the decoder reads it, and the very next step runs it (log 1). -/
theorem test_fetch : decodeTableWord 64 0x1000006100000003 = some (.leaf 97 3) ∧
    (match step (State.reset.withFetchWord 64 0x1000006100000003) with
      | .next t => t.lastResp
      | _ => none) = some ⟨.ok, 3⟩ := by decide

/-! ### One step of every command -/

/-- V-E6, R278. -/
theorem test_nop : (issue fourLeaves .nop).lastResp = some ⟨.ok, 0⟩ ∧
    (issue faulted .nop).lastResp = some ⟨.refused, 8⟩ := by decide

/-- P4. -/
theorem test_reset : (issue faulted .reset).lastResp = some ⟨.ok, 0⟩ ∧ (issue faulted .reset).err = 0 ∧
    (issue faulted .reset).nodes = [] ∧ (issue faulted .reset).leafSeen 97 = false := by decide

/-- V-E6. -/
theorem test_status : (issue State.reset .status).lastResp = some ⟨.ok, 0x00000001FF800000⟩ ∧
    (issue builtTree .status).lastResp = some ⟨.ok, 0x000000000300E000⟩ := by decide

/-- The words of V-U2, V-U9 and V-U1 (the unpacker's fields). -/
theorem test_status_unpacker :
    (issue { State.reset with upLen := 1 } .status).lastResp = some ⟨.ok, 0x00000011FF800000⟩ ∧
    (issue { State.reset with upLen := 256, upDead := true } .status).lastResp = some ⟨.ok, 0x00005001FF800000⟩ ∧
    (issue { State.reset with upDone := true } .status).lastResp = some ⟨.ok, 0x00002001FF800000⟩ := by decide

/-- P4, V-E6. -/
theorem test_errcmd : (issue faulted .errcmd).lastResp = some ⟨.ok, 0x2200000000000000⟩ ∧
    (issue State.reset .errcmd).lastResp = some ⟨.ok, 0⟩ := by decide

/-- V-H2: the second leaf passes the first. -/
theorem test_leaf :
    let s : State := { State.reset with nodes := [leafOf 97 3 .heap], heap := [0] }
    (issue s (.leaf 98 2)).lastResp = some ⟨.ok, 0x0000000100000002⟩ ∧ (issue s (.leaf 98 2)).heap = [1, 0] ∧
      (issue s (.leaf 98 2)).nodes = [leafOf 97 3 .heap, leafOf 98 2 .heap] := by decide

/-- V-E2. -/
theorem test_leaf_param : (issue State.reset (.leaf 257 1)).lastResp = some ⟨.fault, 6⟩ ∧
    (issue fourLeaves (.leaf 97 4)).errCmd = 0x1000006100000004 := by decide +kernel

/-- P4, V-H1. -/
theorem test_heapPeek : (issue fourLeaves .heapPeek).lastResp = some ⟨.ok, 0x0000000200000001⟩ ∧
    (issue State.reset .heapPeek).lastResp = some ⟨.none, 0⟩ := by decide

/-- P4. -/
theorem test_heapExtract : (issue fourLeaves .heapExtract).lastResp = some ⟨.ok, 0x0000000200000001⟩ ∧
    (issue fourLeaves .heapExtract).heap = [3, 0, 1] ∧
    ((issue fourLeaves .heapExtract).node 2).own = .detached := by decide

/-- V-H5: the left child on a tie. -/
theorem test_heapExtract_tie :
    (issue { State.reset with
      nodes := [leafOf 0 1 .heap, leafOf 1 2 .heap, leafOf 2 2 .heap, leafOf 3 3 .heap], heap := [0, 1, 2, 3] }
      .heapExtract).heap = [1, 3, 2] := by decide

/-- R127: node 2, of weight 1, rises to slot 0. -/
theorem test_heapInsert : (issue twoDetached (.heapInsert 2)).heap = [2, 0, 1] ∧
    ((issue twoDetached (.heapInsert 2)).node 2).own = .heap := by decide

/-- V-E3. -/
theorem test_heapInsert_owned : (issue fourLeaves (.heapInsert 0)).lastResp = some ⟨.fault, 7⟩ ∧
    (issue fourLeaves (.heapInsert 4)).lastResp = some ⟨.fault, 7⟩ := by decide

/-- P4. -/
theorem test_nodeJoin : (issue twoDetached (.nodeJoin 2 3)).lastResp = some ⟨.ok, 0x0000000400000002⟩ ∧
    (issue twoDetached (.nodeJoin 2 3)).node 4 = innerOf 2 2 3 .detached ∧
    ((issue twoDetached (.nodeJoin 2 3)).node 2).own = .child := by decide

/-- V-T8, last row. -/
theorem test_nodeJoin_overflow :
    (issue { State.reset with nodes := [leafOf 97 0xFFFFFFFF .detached, leafOf 256 1 .detached] } (.nodeJoin 1 0)).lastResp =
      some ⟨.fault, 0xA⟩ := by decide

/-- V-H6, P4. -/
theorem test_nodeInfo : (issue fourLeaves (.nodeInfo 3)).lastResp = some ⟨.ok, 0x0001010000000001⟩ ∧
    (issue builtTree (.nodeInfo 2)).lastResp = some ⟨.ok, 0x0002006300000001⟩ := by decide

/-- V-H6, P4. -/
theorem test_nodeKids : (issue fourLeaves (.nodeKids 0)).lastResp = some ⟨.ok, 0x0000000003FF03FF⟩ ∧
    (issue builtTree (.nodeKids 4)).lastResp = some ⟨.ok, 0x0000000000030002⟩ := by decide

/-- V-H2, V-H1. -/
theorem test_heapSlot : (issue fourLeaves (.heapSlot 1)).lastResp = some ⟨.ok, 0x0000000300000001⟩ ∧
    (issue State.reset (.heapSlot 256)).lastResp = some ⟨.none, 0⟩ := by decide

/-- P4b: the first merge joins `c` and `EOS`. -/
theorem test_merge : (issue fourLeaves .merge).lastResp = some ⟨.ok, 0x0000000400000002⟩ ∧
    (issue fourLeaves .merge).heap = [1, 0, 4] ∧ (issue fourLeaves .merge).node 4 = innerOf 2 2 3 .heap := by decide

/-- V-T1. -/
theorem test_build : (issue fourLeaves .build).lastResp = some ⟨.ok, 0x0000000600000007⟩ ∧
    (issue fourLeaves .build).nodes = builtTree.nodes ∧ (issue fourLeaves .build).root = 6 := by decide

/-- V-T8: a failing `BUILD` leaves no trace of its good merges. -/
theorem test_build_overflow : (issue heavyLeaves .build).lastResp = some ⟨.fault, 0xA⟩ ∧
    (issue heavyLeaves .build).heap = [2, 3, 1, 0] ∧ (issue heavyLeaves .build).nodes = heavyLeaves.nodes := by decide

/-- V-C1. -/
theorem test_assign : (issue builtTree .assign).lastResp = some ⟨.ok, 4⟩ ∧
    (issue builtTree .assign).codeOf 97 = [false] ∧ (issue builtTree .assign).codeOf 98 = [true, false] ∧
    (issue builtTree .assign).codeOf 99 = [true, true, false] ∧
    (issue builtTree .assign).codeOf 256 = [true, true, true] := by decide +kernel

/-- V-C4. -/
theorem test_assign_lone : (issue loneLeaf .assign).codeOf 256 =
    [false] := by decide +kernel

/-- V-T7. -/
theorem test_tbClear : (issue builtTree .tbClear).nodes = [] ∧ (issue builtTree .tbClear).root = 0x3FF ∧
    (issue builtTree .tbClear).leafSeen 97 = false := by decide

/-- R174. -/
theorem test_tblClear : (issue tableC1 .tblClear).ctValid 97 = false ∧
    (issue tableC1 .tblClear).entry 256 = ⟨false, 0, 0⟩ := by decide

/-- V-C7. -/
theorem test_tblDefine : (issue State.reset (.tblDefine 97)).entry 97 = ⟨true, 0, 0⟩ ∧
    (issue tableC1 (.tblDefine 97)).lastResp = some ⟨.fault, 2⟩ := by decide +kernel

/-- R176. -/
theorem test_tblAppend : (issue tableC1 (.tblAppend 98 true)).codeOf 98 = [true, false, true] := by decide +kernel

/-- V-C8, V-E4. -/
theorem test_tblAppend_faults : (issue longest (.tblAppend 97 false)).lastResp = some ⟨.fault, 9⟩ ∧
    (issue State.reset (.tblAppend 97 true)).lastResp = some ⟨.fault, 8⟩ := by decide +kernel

/-- V-C1, V-C8. -/
theorem test_tblLen : (issue tableC1 (.tblLen 99)).lastResp = some ⟨.ok, 0x10003⟩ ∧
    (issue longest (.tblLen 97)).lastResp = some ⟨.ok, 0x10100⟩ := by decide +kernel

/-- V-C1. -/
theorem test_tblBit : (issue tableC1 (.tblBit 99 2)).lastResp = some ⟨.ok, 0⟩ ∧
    (issue tableC1 (.tblBit 256 2)).lastResp = some ⟨.ok, 1⟩ ∧
    (issue tableC1 (.tblBit 99 3)).lastResp = some ⟨.none, 0⟩ := by decide +kernel

/-- P1: the sixth `PACK.SYM` emits A8. -/
theorem test_packSym :
    let t := issue { tableC1 with pkAcc := 0x28, pkCnt := 7 } (.packSym 99)
    t.pkOut = [0xA8] ∧ t.pkCnt = 2 ∧ t.pkAcc = 1 ∧ t.lastResp = some ⟨.ok, 3⟩ := by decide +kernel

/-- 95_test_vectors.md 2.5, faults. -/
theorem test_packSym_faults : (issue tableC1 (.packSym 100)).lastResp = some ⟨.fault, 0xB⟩ ∧
    (issue tableC1 (.packSym 256)).lastResp = some ⟨.fault, 6⟩ := by decide +kernel

/-- P1: `PACK.END` emits 1D. -/
theorem test_packEnd :
    let t := issue { tableC1 with pkAcc := 1, pkCnt := 2 } .packEnd
    t.pkOut = [0x1D] ∧ t.pkCnt = 0 ∧ t.pkAcc = 0 ∧ t.lastResp = some ⟨.ok, 3⟩ := by decide +kernel

/-- R228. -/
theorem test_unpkStart :
    let t := issue { State.reset with upLen := 256, upAcc := 5, upDead := true, upDone := true } .unpkStart
    t.upLen = 0 ∧ t.upAcc = 0 ∧ t.upDead = false ∧ t.upDone = false := by decide

/-- P2: the byte A8. -/
theorem test_unpkByte :
    let t := issue tableC1 (.unpkByte 0xA8)
    t.upOut = [0x61, 0x61, 0x61, 0x62, 0x62] ∧ t.upLen = 1 ∧ t.lastResp = some ⟨.ok, 0⟩ := by decide +kernel

/-- V-U11: two symbols match, and what the first bits decoded is not emitted. -/
theorem test_unpkByte_ambiguous : (issue ambiguous (.unpkByte 0x01)).lastResp = some ⟨.fault, 2⟩ ∧
    (issue ambiguous (.unpkByte 0x01)).upOut = [] ∧ (issue ambiguous (.unpkByte 0x01)).upLen = 0 := by decide +kernel

/-- 95_test_vectors.md 2.6. -/
theorem test_unpkEnd : (issue State.reset .unpkEnd).lastResp = some ⟨.fault, 3⟩ ∧
    (issue { State.reset with upDone := true } .unpkEnd).lastResp = some ⟨.ok, 0⟩ := by decide

/-- V-E1. -/
theorem test_illegalWord : (issueWord State.reset 0x0400000000000000).lastResp = some ⟨.fault, 5⟩ ∧
    (issueWord State.reset 0x0400000000000000).errCmd = 0x0400000000000000 := by decide

/-- V-F1: the line of `b`. -/
theorem test_serializeSym : (serializeSym 98 tableC1).toOption.map (·.1) = some [0x62, 0x31, 0x30, 0x0A] := by
  decide +kernel

/-- V-F5: lines `Parse` accepts and rejects. -/
theorem test_parseLine : parseLine [0x45, 0x30, 0x31] = some (0x45, [false, true]) ∧
    parseLine [0x45, 0x4F, 0x46] = some (256, []) ∧ parseLine [0x43] = some (0x43, []) ∧
    parseLine [0x45, 0x4F, 0x46, 0x78] = none ∧ parseLine [0x0D, 0x30, 0x31] = none ∧
    parseLine [0x61, 0x30, 0x0D] = none ∧ parseLine [] = none := by decide

/-- V-F5: after `a0` a line that the host rejects leaves the block with that entry and not faulted; a second line for `a`
faults the block, which records it. -/
theorem test_parse_failure :
    (match parseLines [] [0x61, 0x30, 0x0A, 0x0A] State.reset with
      | .error f => (f.code, f.state.err, f.state.codeOf 97)
      | .ok _ => (0, 0, [])) = (2, 0, [false]) ∧
    (match parseLines [] [0x61, 0x30, 0x0A, 0x61, 0x31, 0x0A] State.reset with
      | .error f => (f.code, f.state.err, f.state.errCmd, f.state.codeOf 97)
      | .ok _ => (0, 0, 0, [])) = (2, 2, 0x3100006100000000, [false]) := by decide +kernel

/-! ### Witnesses: states and operands that meet the hypotheses of the statements -/

theorem leafSeen_seen (s : State) (xs : List Nat) (x : Nat) (h : (seen s xs).leafSeen x = true) :
    x ∈ xs ∨ s.leafSeen x = true := by
  induction xs generalizing s with
  | nil => exact .inr h
  | cons y xs ih =>
    rcases ih (s.setLeafSeen y) h with hm | hs
    · exact .inl (List.mem_cons_of_mem _ hm)
    · rw [leafSeen_setLeafSeen] at hs
      split_ifs at hs with hy
      · exact .inl (by simp [hy.1])
      · exact .inr hs

/-- Marking symbols seen changes nothing else. -/
theorem seen_eq (s : State) (xs : List Nat) : seen s xs = { s with leafseen := (seen s xs).leafseen } := by
  induction xs generalizing s with
  | nil => rfl
  | cons y xs ih => exact ih (s.setLeafSeen y)

theorem reset_leafSeen (x : Nat) : State.reset.leafSeen x = false := by
  by_cases hx : x < 257 <;> simp [State.leafSeen, State.reset, hx]

/-- What is left to check of the invariant for a sample tree over the symbols `xs`. -/
theorem sample_inv (nodes : List Node) (heap : List NodeIdx) (root : NodeIdx) (xs : List Nat) (s : State)
    (hs : s = withTree nodes heap root xs)
    (hm : s.nodes.length ≤ 513 ∧ s.heap.length ≤ 257) (hh : HeapOk s) (hr : RootOk s)
    (h1 : ∀ i < s.ncount, (s.node i).kind = .leaf → LeafOk s i)
    (h2 : ∀ i < s.ncount, (s.node i).kind = .internal → InternalOk s i)
    (h3 : ∀ i < s.ncount, (s.node i).own ≠ .free)
    (h4 : ∀ i < s.ncount, ∀ j < s.ncount, (s.node i).kind = .leaf → (s.node j).kind = .leaf →
      (s.node i).sym = (s.node j).sym → i = j)
    (h5 : ∀ x ∈ xs, ∃ i < s.ncount, (s.node i).kind = .leaf ∧ (s.node i).sym.toNat = x)
    (h6 : ∀ p ∈ List.range s.ncount, ∀ q ∈ List.range s.ncount, (s.node p).kind = .internal →
      (s.node q).kind = .internal → ∀ c ∈ List.range s.ncount, ¬ (s.isKid p c ∧ s.isKid q c ∧ p ≠ q))
    (h7 : ∀ c < s.ncount, (s.node c).own = .child → ∃ p < s.ncount, (s.node p).kind = .internal ∧ s.isKid p c)
    (h8 : s.nodes.countP (·.own == .child) = 2 * s.nodes.countP (·.kind == .internal)) : Inv s := by
  refine ⟨(memory_wf_iff s).mpr ⟨hm.1, hm.2, fun x => ?_⟩, hh, ⟨h1, h2, h3, h4, fun x _ hseen => ?_,
    fun p hp q hq hkp hkq c hc a b => ?_, h7, h8⟩, hr, ?_, ?_, ?_⟩
  · have he : s.entry x = State.reset.entry x := by rw [hs, withTree, seen_eq]; rfl
    rw [he]; exact ((memory_wf_iff _).mp reset_memory_wf).2.2 x
  · rw [hs, withTree] at hseen
    have hr0 : ({ State.reset with nodes := nodes, heap := heap, root := root } : State).leafSeen x = false :=
      reset_leafSeen x
    rcases leafSeen_seen _ _ _ hseen with hm | hf
    · exact h5 x hm
    · rw [hr0] at hf; cases hf
  · have := h6 p (by simpa using hp) q (by simpa using hq) hkp hkq c (by simpa using hc)
    tauto
  · rw [hs, withTree, seen_eq]; show (0 : Nat) < 1; decide
  · rw [hs, withTree, seen_eq]; exact unpackOk_empty rfl rfl rfl
  · rw [hs, withTree, seen_eq]; exact ⟨.inl rfl, Iff.intro (fun _ => rfl) (fun _ => rfl)⟩

theorem fourLeaves_heapOk : HeapOk fourLeaves :=
  ⟨by unfold HeapOrdered; decide, by decide, by decide, by decide⟩

theorem twoDetached_heapOk : HeapOk twoDetached :=
  ⟨by unfold HeapOrdered; decide, by decide, by decide, by decide⟩

/-- A state that meets the invariant and holds a heap of four. -/
theorem fourLeaves_inv : Inv fourLeaves := by
  refine sample_inv _ _ _ _ _ rfl (by decide) fourLeaves_heapOk (.inl rfl) ?_ ?_ (by decide) (by decide) (by decide)
    (by decide) (by decide) (by decide)
  · unfold LeafOk; decide +kernel
  · unfold InternalOk weightSum; decide

/-- A state that meets the invariant and holds a finished tree. -/
theorem builtTree_inv : Inv builtTree := by
  refine sample_inv _ _ _ _ _ rfl (by decide) ⟨?_, by decide, by decide, by decide⟩ (.inr (by decide)) ?_ ?_ (by decide)
    (by decide) (by decide) (by decide) (by decide) (by decide)
  · unfold HeapOrdered; decide
  · unfold LeafOk; decide +kernel
  · unfold InternalOk weightSum; decide

/-- A state that meets the invariant and holds a heap of one. -/
theorem oneEntry_inv : Inv oneEntry := by
  refine sample_inv _ _ _ _ _ rfl (by decide) ⟨?_, by decide, by decide, by decide⟩ (.inl rfl) ?_ ?_ (by decide)
    (by decide) (by decide) (by decide) (by decide) (by decide)
  · unfold HeapOrdered; decide
  · unfold LeafOk; decide +kernel
  · unfold InternalOk weightSum; decide

/-- A state that meets the invariant and whose heap weighs more than a weight can say. -/
theorem heavyLeaves_inv : Inv heavyLeaves := by
  refine sample_inv _ _ _ _ _ rfl (by decide) ⟨?_, by decide, by decide, by decide⟩ (.inl rfl) ?_ ?_ (by decide)
    (by decide) (by decide) (by decide) (by decide) (by decide)
  · unfold HeapOrdered; decide
  · unfold LeafOk; decide +kernel
  · unfold InternalOk weightSum; decide

/-- A state that meets the invariant and whose root is a leaf. -/
theorem loneLeaf_inv : Inv loneLeaf := by
  refine sample_inv _ _ _ _ _ rfl (by decide) ⟨?_, by decide, by decide, by decide⟩ (.inr (by decide)) ?_ ?_ (by decide)
    (by decide) (by decide) (by decide) (by decide) (by decide)
  · unfold HeapOrdered; decide
  · unfold LeafOk; decide +kernel
  · unfold InternalOk weightSum; decide

theorem tableC1_valid (x : Nat) (h : tableC1.ctValid x = true) : x = 97 ∨ x = 98 ∨ x = 99 ∨ x = 256 := by
  unfold State.ctValid tableC1 at h
  simp only [entry_setEntry] at h
  have h0 : State.reset.entry x = CtEntry.empty := entry_clearTable State.reset x
  rw [h0] at h
  split_ifs at h <;> simp_all [CtEntry.empty]

theorem tableC1_prefixFree : PrefixFree tableC1 := by
  intro x y hx hy
  rcases tableC1_valid x hx with rfl | rfl | rfl | rfl <;> rcases tableC1_valid y hy with rfl | rfl | rfl | rfl <;>
    decide +kernel

theorem tableC1_decodable : Decodable tableC1 := by
  refine ⟨tableC1_prefixFree, fun x hx => ?_, by decide +kernel⟩
  rcases tableC1_valid x hx with rfl | rfl | rfl | rfl <;> decide +kernel

theorem tableC1_distinct : DistinctCodes tableC1 :=
  fun x y hx hy h => tableC1_prefixFree x y hx hy (h ▸ List.prefix_refl _)

theorem tableC1_wf : Memory.wf tableC1 = true := by
  refine (memory_wf_iff _).mpr ⟨by decide, by decide, ?_⟩
  have h0 := ((memory_wf_iff _).mp reset_memory_wf).2.2
  exact table_wf_setEntry _ _ _ (by decide) (table_wf_setEntry _ _ _ (by decide)
    (table_wf_setEntry _ _ _ (by decide) (table_wf_setEntry _ _ _ (by decide) h0)))

theorem longest_wf : Memory.wf longest = true := by
  refine (memory_wf_iff _).mpr ⟨by decide, by decide, ?_⟩
  exact table_wf_setEntry _ _ _ (by decide) ((memory_wf_iff _).mp reset_memory_wf).2.2

/-- DecodeOfEncodeIsIdentity, DecodedWordIsItsEncoding, DecodingIsMatchUnderMask. -/
theorem witness_codec : (Instr.nodeJoin 1023 1023).WellFormed ∧
    decode 0x140003FF000003FF = .ok (.nodeJoin 1023 1023) ∧
    (Instr.nodeJoin 0 0) ∈ tableCommands ∧ 0x140003FF000003FF &&& (Instr.nodeJoin 0 0).row.mask = (Instr.nodeJoin 0 0).row.pattern := by
  decide

/-- OperandsAreWordFields: every operand field all ones. -/
theorem witness_operands : decode 0x100003FFFFFFFFFF = .ok (.leaf 1023 0xFFFFFFFF) ∧
    decode 0x130003FF00000000 = .ok (.heapInsert 1023) ∧ decode 0x150003FF00000000 = .ok (.nodeInfo 1023) ∧
    decode 0x160003FF00000000 = .ok (.nodeKids 1023) ∧ decode 0x170003FF00000000 = .ok (.heapSlot 1023) ∧
    decode 0x310003FF00000000 = .ok (.tblDefine 1023) ∧ decode 0x320003FF00000001 = .ok (.tblAppend 1023 true) ∧
    decode 0x330003FF00000000 = .ok (.tblLen 1023) ∧ decode 0x340003FF000000FF = .ok (.tblBit 1023 255) ∧
    decode 0x400003FF00000000 = .ok (.packSym 1023) ∧ decode 0x51000000000000FF = .ok (.unpkByte 0xFF) := by decide

/-- StepRunsDecodedCommand, IdleHoldsAndHardResetClears, IllegalWordFaults, FaultedBlockRefuses. -/
theorem witness_step :
    let s : State := { fourLeaves with inbox := [.command 0x2100000000000000] }
    s.inbox = .command 0x2100000000000000 :: [] ∧ decode 0x2100000000000000 = .ok .build ∧ fourLeaves.inbox = [] ∧
      ({ s with inbox := [.hardReset] } : State).inbox = .hardReset :: [] ∧ s.err = 0 ∧ faulted.err ≠ 0 := by decide

theorem witness_illegal : (∀ c ∈ tableCommands, ¬ c.row.matchesWord 0x1000046100000003) ∧
    decode 0x1000046100000003 = .error .reservedBits := by
  unfold Row.matchesWord; decide

/-- FaultWritesOnlyFaultRegisters, OnlyListedWritersWrite, PortsOnlyGrow, ReadsChangeNothing, RootSetOnlyByBuild: a command
that faults, one that answers `OK`, one that emits, one that reads. -/
theorem witness_fault : ∃ t, exec (.leaf 257 1) State.reset = .next t ∧ t.resps = State.reset.resps ++ [⟨.fault, 6⟩] :=
  ⟨_, rfl, by decide⟩

theorem witness_ok : ∃ t rd, exec .merge fourLeaves = .next t ∧ t.resps = fourLeaves.resps ++ [⟨.ok, rd⟩] :=
  ⟨_, 0x0000000400000002, rfl, by decide⟩

theorem witness_emits : ∃ t, exec .packEnd { tableC1 with pkAcc := 1, pkCnt := 2 } = .next t ∧ t.pkOut = [] ++ [0x1D] :=
  ⟨_, rfl, by decide +kernel⟩

theorem witness_emits_up : ∃ t, exec (.unpkByte 0xA8) tableC1 = .next t ∧ t.upOut = [] ++ [0x61, 0x61, 0x61, 0x62, 0x62] :=
  ⟨_, rfl, by decide +kernel⟩

theorem witness_read : Instr.readOnly (.nodeInfo 3) = true ∧
    ∃ t, exec (.nodeInfo 3) fourLeaves = .next t ∧ t.resps = fourLeaves.resps ++ [⟨.ok, 0x0001010000000001⟩] :=
  ⟨rfl, _, rfl, by decide⟩

/-- NoneExactlyWhenNothingToActOn: both sides, at the ends of the ranges. -/
theorem witness_none : Instr.heapPeek.nothingToActOn State.reset ∧ Instr.merge.nothingToActOn State.reset ∧
    (Instr.nodeInfo 512).nothingToActOn State.reset ∧ (Instr.heapSlot 256).nothingToActOn State.reset ∧
    (Instr.tblLen 256).nothingToActOn State.reset ∧ (Instr.tblBit 256 255).nothingToActOn State.reset ∧
    ¬ (Instr.nodeInfo 513).nothingToActOn State.reset ∧ ¬ (Instr.heapSlot 257).nothingToActOn State.reset ∧
    ¬ (Instr.tblLen 257).nothingToActOn State.reset ∧ ¬ Instr.merge.nothingToActOn fourLeaves := by
  simp only [Instr.nothingToActOn]; decide

/-- HeapPeekNamesSlotZero, HeapExtractTakesSlotZero, HeapSlotByCases, at slots 0, 3 (the last), 4, 256, 257. -/
theorem witness_heap : State.reset.err = 0 ∧ State.reset.heap = [] ∧ fourLeaves.err = 0 ∧ fourLeaves.heap = 2 :: [3, 1, 0] ∧
    fourLeaves.heap[3]? = some 0 ∧ fourLeaves.hsize = 4 ∧ (256#10).toNat ≤ 256 ∧ fourLeaves.hsize ≤ (256#10).toNat ∧
    256 < (257#10).toNat := by decide

/-- A full heap beside a detached node, and a full node store of detached nodes: states that only these clauses meet. -/
def fullHeap : State :=
  { State.reset with nodes := List.replicate 258 (leafOf 0 1 .detached), heap := List.replicate 257 0 }

def fullStore : State := { State.reset with nodes := List.replicate 513 (leafOf 0 1 .detached) }

/-- HeapInsertByCases, clause by clause. -/
theorem witness_heapInsert : 512 < (513#10).toNat ∧ (512#10).toNat ≤ 512 ∧ State.reset.ncount ≤ (512#10).toNat ∧
    (fourLeaves.node (0#10).toNat).own ≠ .detached ∧
    fullHeap.hsize = 257 ∧ (257#10).toNat < fullHeap.ncount ∧ (fullHeap.node (257#10).toNat).own = .detached ∧
    (512#10).toNat < fullStore.ncount ∧ (fullStore.node (512#10).toNat).own = .detached ∧ fullStore.hsize ≠ 257 := by
  decide +kernel

/-- NodeJoinByCases, clause by clause. -/
theorem witness_nodeJoin : 512 < (513#10).toNat ∧ (3#10 : BitVec 10) = 3#10 ∧ twoDetached.ncount ≤ (512#10).toNat ∧
    (twoDetached.node (0#10).toNat).own ≠ .detached ∧
    fullStore.ncount = 513 ∧ (511#10).toNat < fullStore.ncount ∧ (fullStore.node (511#10).toNat).own = .detached ∧
    (512#10).toNat < fullStore.ncount ∧ (fullStore.node (512#10).toNat).own = .detached ∧
    twoDetached.ncount ≠ 513 ∧ (twoDetached.node (2#10).toNat).own = .detached ∧ (twoDetached.node (3#10).toNat).own = .detached ∧
    (twoDetached.node (2#10).toNat).weight.toNat + (twoDetached.node (3#10).toNat).weight.toNat = (2#32).toNat := by
  decide +kernel

theorem witness_nodeJoin_overflow :
    let s : State := { State.reset with nodes := [leafOf 97 0xFFFFFFFF .detached, leafOf 256 1 .detached] }
    s.err = 0 ∧ (1#10).toNat < s.ncount ∧ (s.node (1#10).toNat).own = .detached ∧ (s.node (0#10).toNat).own = .detached ∧
      2 ^ 32 ≤ (s.node (1#10).toNat).weight.toNat + (s.node (0#10).toNat).weight.toNat := by decide

/-- NodeReadsByCases: a stored node, the first free entry, the last index, the first index out of range. -/
theorem witness_nodeReads : fourLeaves.nodes[(3#10).toNat]? = some (leafOf 256 1 .heap) ∧
    fourLeaves.ncount ≤ (4#10).toNat ∧ (512#10).toNat ≤ 512 ∧ 512 < (513#10).toNat := by decide

/-- HeapKeepsItsContract. -/
theorem witness_contract : HeapOk fourLeaves ∧ fourLeaves.ncount ≤ 513 ∧ HeapOk twoDetached ∧
    (∃ t, exec .heapExtract fourLeaves = .next t ∧ t.resps = fourLeaves.resps ++ [⟨.ok, 0x0000000200000001⟩]) ∧
    (∃ t, exec .heapPeek fourLeaves = .next t ∧ t.resps = fourLeaves.resps ++ [⟨.ok, 0x0000000200000001⟩]) ∧
    ∃ t, exec (.heapInsert (2#10).toNat) twoDetached = .next t ∧ t.resps = twoDetached.resps ++ [⟨.ok, 0⟩] :=
  ⟨fourLeaves_heapOk, by decide, twoDetached_heapOk, ⟨_, rfl, by decide⟩, ⟨_, rfl, by decide⟩, ⟨_, rfl, by decide⟩⟩

/-- TiesKeepStructuralOrder: V-H3's equal weights. -/
theorem witness_ties : (∀ p, ([0, 1] : List NodeIdx)[parentSlot 2]? = some p → (1#32) ≤ 1#32) ∧
    ∀ j ∈ (4 :: [1, 2, 3] : List NodeIdx), ∀ k ∈ (4 :: [1, 2, 3] : List NodeIdx), (fun _ => (1#32)) j = (fun _ => (1#32)) k :=
  ⟨fun _ _ => Nat.le_refl _, fun _ _ _ _ => rfl⟩

/-- LeafByCases, clause by clause. -/
theorem witness_leaf : 256 < (257#10).toNat ∧ (0 : BitVec 32) = 0 ∧ fourLeaves.leafSeen (256#10).toNat = true ∧
    fullStore.ncount = 513 ∧ fullStore.leafSeen (256#10).toNat = false ∧ fullHeap.hsize = 257 ∧
    (256#10).toNat ≤ 256 ∧ State.reset.leafSeen (256#10).toNat = false ∧ State.reset.ncount ≠ 513 ∧ State.reset.hsize ≠ 257 := by
  decide +kernel

/-- MergeByCases, clause by clause. -/
theorem witness_merge : State.reset.hsize < 2 ∧ oneEntry.hsize < 2 ∧ 2 ≤ fourLeaves.hsize ∧ fourLeaves.heapMin = 2 ∧
    fourLeaves.heapExtract.heapMin = 3 ∧ fourLeaves.ncount < 513 ∧
    (fourLeaves.weightOf 2).toNat + (fourLeaves.weightOf 3).toNat = (2#32).toNat := by decide

theorem witness_merge_faults :
    let s : State := { State.reset with nodes := [leafOf 97 0xFFFFFFFF .heap, leafOf 256 1 .heap], heap := [1, 0] }
    let t : State := { fullStore with heap := [1, 0] }
    2 ≤ s.hsize ∧ s.ncount ≠ 513 ∧ 2 ^ 32 ≤ (s.weightOf s.heapMin).toNat + (s.weightOf s.heapExtract.heapMin).toNat ∧
      2 ≤ t.hsize ∧ t.ncount = 513 := by decide +kernel

/-- BuildOutcomes, clause by clause. -/
theorem witness_build : (Inv builtTree ∧ builtTree.err = 0 ∧ builtTree.heap = []) ∧ (Inv oneEntry ∧ oneEntry.heap = [6]) ∧
    (Inv heavyLeaves ∧ 2 ≤ heavyLeaves.hsize ∧ 2 ^ 32 ≤ totalWeight heavyLeaves heavyLeaves.heap) ∧
    (Inv fourLeaves ∧ 2 ≤ fourLeaves.hsize ∧ totalWeight fourLeaves fourLeaves.heap < 2 ^ 32) :=
  ⟨⟨builtTree_inv, by decide⟩, ⟨oneEntry_inv, by decide⟩, ⟨heavyLeaves_inv, by decide⟩, ⟨fourLeaves_inv, by decide⟩⟩

/-- BuildJoinsTheHeap, BuildEqualsMerges, NodesChangeOnlyOwner. -/
theorem witness_build_ok : Inv fourLeaves ∧ ∃ t, exec .build fourLeaves = .next t ∧
    t.resps = fourLeaves.resps ++ [⟨.ok, 0x0000000600000007⟩] := ⟨fourLeaves_inv, _, rfl, by decide⟩

/-- MergeEqualsPrimitives. -/
theorem witness_merge_ok : Inv fourLeaves ∧ ∃ t, exec .merge fourLeaves = .next t ∧
    t.resps = fourLeaves.resps ++ [⟨.ok, 0x0000000400000002⟩] := ⟨fourLeaves_inv, _, rfl, by decide⟩

/-- NodesChangeOnlyOwner: a node of each owner that an allocated node can have. -/
theorem witness_owners : (fourLeaves.node 0).own = .heap ∧ (twoDetached.node 2).own = .detached ∧
    (builtTree.node 0).own = .child := by decide

/-- AssignWritesLeafPaths: a state without a tree, one with a tree, and a lone leaf under the root. -/
theorem witness_assign : (Inv fourLeaves ∧ fourLeaves.err = 0 ∧ fourLeaves.root = 0x3FF#10) ∧
    (Inv builtTree ∧ builtTree.err = 0 ∧ builtTree.root ≠ 0x3FF#10) ∧ LeafAt builtTree builtTree.root [false] 97 :=
  ⟨⟨fourLeaves_inv, rfl, rfl⟩, ⟨builtTree_inv, rfl, by decide⟩, 0, .left (by decide) (.here _), by decide, by decide⟩

/-- AssignedCodeIsPrefixFree. -/
theorem witness_assign_ok : Inv builtTree ∧ (builtTree.node builtTree.root.toNat).kind = .internal ∧
    ∃ t, exec .assign builtTree = .next t ∧ t.resps = builtTree.resps ++ [⟨.ok, 4⟩] :=
  ⟨builtTree_inv, by decide, _, rfl, by decide +kernel⟩

/-- AssignWritesLeafPaths, AssignedCodeIsPrefixFree: a lone leaf under the root. -/
theorem witness_assign_lone : Inv loneLeaf ∧ loneLeaf.root ≠ 0x3FF#10 ∧ (loneLeaf.node loneLeaf.root.toNat).kind = .leaf ∧
    LeafAt loneLeaf loneLeaf.root [] 256 ∧
    ∃ t, exec .assign loneLeaf = .next t ∧ t.resps = loneLeaf.resps ++ [⟨.ok, 1⟩] ∧ t.ctValid 256 = true :=
  ⟨loneLeaf_inv, by decide, by decide, ⟨0, .here _, by decide, by decide⟩, _, rfl, by decide +kernel⟩

/-- TblDefineByCases, TblAppendByCases, TableReadsByCases, clause by clause. -/
theorem witness_table : 256 < (257#10).toNat ∧ (256#10).toNat ≤ 256 ∧ tableC1.ctValid (256#10).toNat = true ∧
    State.reset.ctValid (256#10).toNat = false ∧ (tableC1.codeOf (256#10).toNat).length < 256 ∧
    longest.ctValid (97#10).toNat = true ∧ (longest.codeOf (97#10).toNat).length = 256 ∧
    (longest.codeOf (97#10).toNat)[(255#8).toNat]? = some true ∧ (tableC1.codeOf 256).length ≤ (3#8).toNat := by decide +kernel

theorem witness_table_wf : Memory.wf tableC1 = true ∧ Memory.wf longest = true ∧ Memory.wf State.reset = true :=
  ⟨tableC1_wf, longest_wf, reset_memory_wf⟩

/-- TableLoadGivesCodeword: the longest codeword. -/
theorem witness_load : Memory.wf State.reset = true ∧ State.reset.err = 0 ∧ State.reset.ctValid 256 = false ∧
    (List.replicate 256 true).length ≤ 256 := ⟨reset_memory_wf, rfl, by decide +kernel, (List.length_replicate ..).le⟩

/-- PackSymAppendsCodeword, PackEndFlushesStream, StreamingEqualsBatch, clause by clause. -/
theorem witness_pack : PackOk tableC1 ∧ tableC1.err = 0 ∧ tableC1.pkCnt = 0 ∧ 255 < (256#10).toNat ∧
    tableC1.ctValid (255#10).toNat = false ∧ tableC1.ctValid (97#10).toNat = true ∧ State.reset.ctValid 256 = false ∧
    tableC1.ctValid 256 = true ∧ ∀ x ∈ ([97, 98] : List Byte), tableC1.ctValid x.toNat = true := by
  unfold PackOk; decide +kernel

theorem witness_pack_full : PackOk { tableC1 with pkAcc := 0x7F, pkCnt := 7 } := by unfold PackOk; decide

/-- UnpackBitByCases: done, dead, no match (short, and at bit 256), one match, the sentinel, two matches. -/
theorem witness_unpack : UnpackOk tableC1 ∧ UnpackOk { State.reset with upDone := true } ∧
    UnpackOk { State.reset with upLen := 256, upDead := true } ∧ UnpackOk { State.reset with upLen := 255 } ∧
    UnpackOk { tableC1 with upAcc := 3, upLen := 2 } ∧ UnpackOk { ambiguous with upLen := 1 } :=
  ⟨⟨by decide, by decide, by decide, by decide⟩, ⟨by decide, by decide, by decide, by decide⟩,
    ⟨by decide, by decide, by decide, by decide⟩, ⟨by decide, by decide, by decide, by decide⟩,
    ⟨by decide, by decide, by decide, by decide⟩, ⟨by decide, by decide, by decide, by decide⟩⟩

theorem witness_unpack_wf : Memory.wf longest = true ∧ (longest.codeOf 97).length = 256 := ⟨longest_wf, by decide +kernel⟩

theorem witness_unpack_match :
    tableC1.ctValid 256 = true ∧ tableC1.codeOf 256 = ({ tableC1 with upAcc := 3, upLen := 2 } : State).upBits ++ [true] ∧
    ambiguous.ctValid 98 = true ∧ ambiguous.ctValid 99 = true ∧
    ambiguous.codeOf 98 = ({ ambiguous with upLen := 1 } : State).upBits ++ [false] ∧
    ambiguous.codeOf 99 = ({ ambiguous with upLen := 1 } : State).upBits ++ [false] := by decide +kernel

/-- UnpkByteTakesEightBits. -/
theorem witness_unpkByte : DistinctCodes tableC1 ∧ tableC1.err = 0 ∧
    ([0, 1, 2, 3, 4, 5, 6, 7].map (0xA8#8).getLsbD).foldlM unpackBit tableC1 ≠ .error .formatError ∧
    ([0, 1, 2, 3, 4, 5, 6, 7].map (0x01#8).getLsbD).foldlM unpackBit ambiguous = .error .formatError :=
  ⟨tableC1_distinct, rfl, by decide +kernel, by decide +kernel⟩

/-- DecodingInvertsPacking, LastByteIsNeeded: `a`, `b`, sentinel are 0 10 111. -/
theorem witness_stream : Memory.wf tableC1 = true ∧ Decodable tableC1 ∧ PackOk tableC1 ∧ tableC1.err = 0 ∧ tableC1.pkCnt = 0 ∧
    (issueAll tableC1 (packBytes [97, 98] ++ [.packEnd])).pkOut = tableC1.pkOut ++ [0x3A] ∧ 0 < ([0x3A] : List Byte).length :=
  ⟨tableC1_wf, tableC1_decodable, by unfold PackOk; decide, rfl, rfl, by decide +kernel, by decide⟩

/-- EveryLineHasOneReading. -/
theorem witness_line : lineBreak ∉ ([0x45, 0x4F, 0x46, 0x30] : List Byte) ∧ lineBreak ∉ ([0x45, 0x30] : List Byte) ∧
    lineReadings [0x45, 0x30] = [(0x45, [false])] ∧ lineReadings [0x45, 0x4F, 0x46, 0x78] = [] ∧ lineReadings [] = [] := by decide

/-- SerializeWritesTableText, ParseInvertsSerialize. -/
theorem witness_serialize : Memory.wf tableC1 = true ∧ tableC1.err = 0 ∧ State.reset.err = 0 := ⟨tableC1_wf, rfl, rfl⟩

/-- CompressThenDecompressIsIdentity, EmptyInputRoundTrips: the bound of R257 is met by inputs up to it. -/
theorem witness_compress : ([0x61, 0x61] : List Byte).length ≤ 2 ^ 32 - 2 ∧ State.reset.err = 0 := by decide

/-- CapacityOnlyFromAppend: a state that meets the invariant, and the command that raises `CAPACITY` in it. -/
theorem witness_capacity : Inv (builtTree.setEntry 97 ⟨true, 256, BitVec.allOnes 256⟩) ∧
    ∃ t, exec (.tblAppend 97 true) (builtTree.setEntry 97 ⟨true, 256, BitVec.allOnes 256⟩) = .next t ∧
      t.resps = builtTree.resps ++ [⟨.fault, 9⟩] :=
  ⟨inv_ct _ (table_wf_setEntry _ _ _ (by decide) (entry_wf builtTree_inv)) builtTree_inv, _, rfl, by decide +kernel⟩

/-- StepKeepsInvariant, CountsStayWithinCapacity, ErrcmdShowsFaultingWord. -/
theorem witness_invariant : Inv fourLeaves ∧ Inv builtTree ∧ (∃ t, step fourLeaves = .next t) ∧
    4 = fourLeaves.nodes.countP (·.kind == .leaf) ∧ 0 = fourLeaves.nodes.countP (·.kind == .internal) :=
  ⟨fourLeaves_inv, builtTree_inv, ⟨_, rfl⟩, by decide, by decide⟩

end Sys2Proof.Tests
end

/-! Proofs for the family of 00_scope.md: the frame of every command's rule, and the one response of every command. -/

namespace Sys2Proof.Machine

section Frames

variable {s t : State} {rd : Word}

/-! ### What a rule that answers `OK` may change (10_state.md R22, 20_memory.md R60), in every state -/

theorem packBit_notPacker (s : State) (b : Bool) : (packBit s b).notPacker = s.notPacker := by
  unfold packBit
  dsimp only
  split <;> rfl

theorem packBits_notPacker (s : State) (bits : List Bool) : (packBits s bits).notPacker = s.notPacker := by
  induction bits generalizing s with
  | nil => rfl
  | cons b bits ih => exact (ih (packBit s b)).trans (packBit_notPacker s b)

theorem packFlush_notPacker (s : State) : (packFlush s).notPacker = s.notPacker := by
  unfold packFlush
  split <;> rfl

theorem packSymRule_notPacker {x : Nat} (h : packSymRule x s = .ok rd t) : t.notPacker = s.notPacker := by
  unfold packSymRule at h
  split_ifs at h
  cases h
  exact packBits_notPacker s _

theorem packEndRule_notPacker (h : packEndRule s = .ok rd t) : t.notPacker = s.notPacker := by
  unfold packEndRule at h
  split_ifs at h
  cases h
  exact (packFlush_notPacker _).trans (packBits_notPacker s _)

theorem unpkByteRule_notUnpacker {v : Byte} (h : unpkByteRule v s = .ok rd t) : t.notUnpacker = s.notUnpacker := by
  unfold unpkByteRule at h
  split at h
  · cases h
  · rename_i hbits
    cases h
    exact unpackBits_notUnpacker s _ _ hbits

/-- A visit writes the table only (42_codeword_table.md R171), on any node store. -/
theorem visit_setCt (s : State) (fuel : Nat) (i : NodeIdx) (path : BitVec 256) (len : Nat) (acc : State × Nat) :
    ∃ ct, (visit s fuel i path len acc).1 = acc.1.setCt ct := by
  induction fuel generalizing i path len acc with
  | zero => exact ⟨acc.1.ct, rfl⟩
  | succ fuel ih =>
    unfold visit
    dsimp only
    split
    · exact ⟨_, rfl⟩
    · obtain ⟨ctLeft, hleft⟩ := ih (s.node i.toNat).left path (len + 1) acc
      obtain ⟨ctRight, hright⟩ := ih (s.node i.toNat).right (writeBit path len true) (len + 1)
        (visit s fuel (s.node i.toNat).left path (len + 1) acc)
      exact ⟨ctRight, by rw [hright, hleft]; rfl⟩

theorem assignRule_setCt (h : assignRule s = .ok rd t) : ∃ ct, t = s.setCt ct := by
  unfold assignRule at h
  split at h
  · cases h
  · dsimp only at h
    split at h <;> cases h
    · exact ⟨_, rfl⟩
    · obtain ⟨ct, hct⟩ := visit_setCt s s.ncount s.root 0 0 (s.clearTable, 0)
      exact ⟨ct, hct⟩

/-- One merge step changes nothing outside the tree builder (41_tree_build.md R152). -/
theorem mergeStep_rest {i : NodeIdx} (h : mergeStep s = .ok (i, t)) : t.rest = s.rest := by
  rw [mergeStep_eq] at h
  split_ifs at h
  cases h
  rfl

theorem mergeRule_rest (h : mergeRule s = .ok rd t) : t.rest = s.rest := by
  unfold mergeRule at h
  split at h
  · cases h
  · split at h
    · cases h
    · rename_i hstep
      cases h
      rw [rest_setRoot, mergeStep_rest hstep]

theorem mergeLoop_rest (fuel : Nat) (h : mergeLoop fuel s = .ok t) : t.rest = s.rest := by
  induction fuel generalizing s with
  | zero => cases h; rfl
  | succ fuel ih =>
    unfold mergeLoop at h
    split at h
    · split at h
      · cases h
      · rename_i hstep
        exact (ih h).trans (mergeStep_rest hstep)
    · cases h; rfl

theorem buildRule_rest (h : buildRule s = .ok rd t) : t.rest = s.rest := by
  unfold buildRule at h
  split at h
  · cases h
  · split at h
    · cases h
    · rename_i hloop
      cases h
      rw [rest_setRoot, rest_setOwn, rest_heapExtract, mergeLoop_rest _ hloop]

/-- The part of the state that the rule of `i`, answering `OK`, may change from `s` to `t`, by the units of R22 and R60. -/
inductive RuleFrame (i : Instr) (s t : State) : Prop where
  | reset     (hi : i = .reset) (h : t = resetBlock s)
  | unchanged (h : t = s)
  | tree      (hi : i.writesNodes = true) (h : t.rest = s.rest)
  | table     (hi : i.writesTable = true) (h : ∃ ct, t = s.setCt ct)
  | packer    (hi : i.writesPacker = true) (h : t.notPacker = s.notPacker)
  | unpacker  (hi : i.writesUnpacker = true) (h : t.notUnpacker = s.notUnpacker)

/-- Everything a rule that answers `OK` can do: one unit of the block changes, and only a writer of it changes it. -/
theorem ruleOf_frame {i : Instr} (h : ruleOf i s = .ok rd t) : RuleFrame i s t := by
  cases i with
  | reset => cases h; exact .reset rfl rfl
  | nop | status | errcmd => cases h; exact .unchanged rfl
  | heapPeek | heapSlot _ | nodeInfo _ | nodeKids _ | tblLen _ | tblBit _ _ | unpkEnd =>
    dsimp only [ruleOf, heapPeekRule, heapSlotRule, nodeInfoRule, nodeKidsRule, tblLenRule, tblBitRule, unpkEndRule] at h
    split_ifs at h
    cases h
    exact .unchanged rfl
  | leaf _ _ | heapExtract | heapInsert _ | nodeJoin _ _ =>
    dsimp only [ruleOf, leafRule, heapExtractRule, heapInsertRule, nodeJoinRule] at h
    split_ifs at h
    cases h
    exact .tree rfl rfl
  | merge => exact .tree rfl (mergeRule_rest h)
  | build => exact .tree rfl (buildRule_rest h)
  | tbClear => cases h; exact .tree rfl rfl
  | assign => exact .table rfl (assignRule_setCt h)
  | tblClear => cases h; exact .table rfl ⟨_, rfl⟩
  | tblDefine _ | tblAppend _ _ =>
    dsimp only [ruleOf, tblDefineRule, tblAppendRule] at h
    split_ifs at h
    cases h
    exact .table rfl ⟨_, rfl⟩
  | packSym _ => exact .packer rfl (packSymRule_notPacker h)
  | packEnd => exact .packer rfl (packEndRule_notPacker h)
  | unpkStart => cases h; exact .unpacker rfl rfl
  | unpkByte _ => exact .unpacker rfl (unpkByteRule_notUnpacker h)

/-- No rule changes the host's inputs or the responses: the wrapper alone answers (R93, logs 1 and 3). -/
theorem ruleOf_keeps_host {i : Instr} (h : ruleOf i s = .ok rd t) : t.inbox = s.inbox ∧ t.resps = s.resps := by
  cases ruleOf_frame h with
  | reset _ ht => subst ht; exact ⟨rfl, rfl⟩
  | unchanged ht => subst ht; exact ⟨rfl, rfl⟩
  | tree _ ht => exact ⟨congrArg (·.inbox) ht, congrArg (·.resps) ht⟩
  | table _ ht => obtain ⟨ct, rfl⟩ := ht; exact ⟨rfl, rfl⟩
  | packer _ ht => exact ⟨congrArg (·.inbox) ht, congrArg (·.resps) ht⟩
  | unpacker _ ht => exact ⟨congrArg (·.inbox) ht, congrArg (·.resps) ht⟩

end Frames

/-! ### One response per command (R9, R93) -/

/-- `t` is `s` with one response more, its data word fixed by its status where R93 fixes it, and no input taken. -/
def AnsweredOnce (s t : State) : Prop :=
  ∃ st rd, t.resps = s.resps ++ [⟨st, rd⟩] ∧ t.inbox = s.inbox ∧
    (st = .none → rd = 0) ∧ (st = .fault → rd = t.err.setWidth 64) ∧ (st = .refused → rd = s.err.setWidth 64)

theorem place_zero {n : Nat} (v : BitVec n) : place v 0 = v.setWidth 64 := BitVec.shiftLeft_zero _

theorem refuse_answeredOnce (s : State) : AnsweredOnce s (refuse s) :=
  ⟨.refused, place s.err 0, by simp [refuse, place_zero]⟩

/-- Ending a command answers once, whichever way its rule ends (R9). -/
theorem complete_answeredOnce (cmd : Word) (s : State) (r : Result)
    (hok : ∀ rd t, r = .ok rd t → t.inbox = s.inbox ∧ t.resps = s.resps) : AnsweredOnce s (complete cmd s r) := by
  cases r with
  | ok rd t =>
    obtain ⟨hinbox, hresps⟩ := hok rd t rfl
    exact ⟨.ok, rd, by simp [hinbox, hresps]⟩
  | none => exact ⟨.none, 0, by simp⟩
  | fault c => exact ⟨.fault, place c.code 0, by simp [raiseFault, place_zero]⟩

/-- `exec` is total: every command is refused or ends as its rule ends, in every state (R275, R278). -/
theorem exec_refuses_or_completes (i : Instr) (s : State) :
    exec i s = .next (refuse s) ∨ exec i s = .next (complete (encode i) s (ruleOf i s)) := by
  cases hf : s.faulted with
  | false => exact .inr (exec_of_not_faulted i s hf)
  | true =>
    cases hr : i.runsFaulted with
    | false => exact .inl (exec_of_faulted i s hf hr)
    | true => exact .inr (exec_always i s hr)

theorem exec_answeredOnce (i : Instr) (s : State) : ∃ t, exec i s = .next t ∧ AnsweredOnce s t := by
  rcases exec_refuses_or_completes i s with h | h
  · exact ⟨_, h, refuse_answeredOnce s⟩
  · exact ⟨_, h, complete_answeredOnce _ s _ fun _ _ hr => ruleOf_keeps_host hr⟩

/-- Settles O12: the execution wrapper gives the one response, and no rule touches the host's record. -/
theorem everyCommandAnswersOnce : Obligations.EveryCommandAnswersOnce := by
  intro i s
  obtain ⟨t, hexec, st, rd, hanswer⟩ := exec_answeredOnce i s
  exact ⟨t, st, rd, hexec, hanswer⟩

end Sys2Proof.Machine

/-! Proofs for the family of 10_state.md: the invariant, what each command may change, the owners of the nodes, and the
counts of R42. -/

namespace Sys2Proof.Machine

section Answers

variable {i : Instr} {s t : State} {rd : Word} {c : FaultCode}

/-! ### From a next state or a response back to the rule (R9, R93, R275) -/

/-- The three ways a command ends: refused or `NONE`, with nothing changed; in a fault of its rule; or as its rule left the
block. -/
theorem exec_outcomes (h : exec i s = .next t) :
    (∃ st rd, (st = .refused ∨ st = .none) ∧ t = s.respond ⟨st, rd⟩) ∨
    (∃ c, ruleOf i s = .fault c ∧ t = raiseFault (encode i) c s) ∨
    ∃ rd u, ruleOf i s = .ok rd u ∧ t = u.respond ⟨.ok, rd⟩ := by
  rcases exec_refuses_or_completes i s with hexec | hexec <;> rw [hexec] at h <;> cases h
  · exact .inl ⟨.refused, place s.err 0, .inl rfl, rfl⟩
  · cases hrule : ruleOf i s with
    | ok rd u => exact .inr (.inr ⟨rd, u, rfl, rfl⟩)
    | none => exact .inl ⟨.none, 0, .inr rfl, rfl⟩
    | fault c => exact .inr (.inl ⟨c, rfl, rfl⟩)

/-- A command that answers `OK` leaves what its rule left. -/
theorem ruleOf_of_answer_ok (h : exec i s = .next t) (hr : t.resps = s.resps ++ [⟨.ok, rd⟩]) :
    ∃ u, ruleOf i s = .ok rd u ∧ t = u.respond ⟨.ok, rd⟩ := by
  rcases exec_outcomes h with ⟨st, rd', hst, rfl⟩ | ⟨c, -, rfl⟩ | ⟨rd', u, hrule, rfl⟩
  · rcases hst with rfl | rfl <;> simp at hr
  · simp [raiseFault] at hr
  · have hkeep := (ruleOf_keeps_host hrule).2
    simp only [State.respond_resps, hkeep, List.append_cancel_left_eq, List.cons.injEq, Response.mk.injEq] at hr
    obtain rfl : rd' = rd := hr.1.2
    exact ⟨u, hrule, rfl⟩

/-- A command that answers `FAULT` answers the code of its rule's fault. -/
theorem ruleOf_of_answer_fault (h : exec i s = .next t) (hr : t.resps = s.resps ++ [⟨.fault, rd⟩]) :
    ∃ c, ruleOf i s = .fault c ∧ rd = place c.code 0 := by
  rcases exec_outcomes h with ⟨st, rd', hst, rfl⟩ | ⟨c, hrule, rfl⟩ | ⟨rd', u, hrule, rfl⟩
  · rcases hst with rfl | rfl <;> simp at hr
  · exact ⟨c, hrule, by simpa [raiseFault, eq_comm] using hr⟩
  · simp [(ruleOf_keeps_host hrule).2] at hr

/-- A rule with no write access to any unit leaves the block as it was (R22, R60). -/
theorem ruleOf_unchanged (h : ruleOf i s = .ok rd t) (hreset : i ≠ .reset) (hnodes : i.writesNodes = false)
    (htable : i.writesTable = false) (hpacker : i.writesPacker = false) (hunpacker : i.writesUnpacker = false) : t = s := by
  cases ruleOf_frame h with
  | reset hi => exact absurd hi hreset
  | unchanged ht => exact ht
  | tree hi => rw [hnodes] at hi; cases hi
  | table hi => rw [htable] at hi; cases hi
  | packer hi => rw [hpacker] at hi; cases hi
  | unpacker hi => rw [hunpacker] at hi; cases hi

/-! ### The faults of every rule (60_exceptions.md R277) -/

theorem mergeStep_error (h : mergeStep s = .error c) : c = .capacity ∨ c = .weightOverflow := by
  rw [mergeStep_eq] at h
  split_ifs at h <;> cases h
  · exact .inl rfl
  · exact .inr rfl

theorem mergeRule_fault (h : mergeRule s = .fault c) : mergeStep s = .error c := by
  unfold mergeRule at h
  split at h
  · cases h
  · split at h <;> cases h
    assumption

theorem buildRule_fault (h : buildRule s = .fault c) : mergeLoop s.hsize s = .error c := by
  unfold buildRule at h
  split at h
  · cases h
  · split at h <;> cases h
    assumption

theorem assignRule_fault (h : assignRule s = .fault c) : c = .sequence := by
  unfold assignRule at h
  split at h
  · cases h; rfl
  · dsimp only at h
    split at h <;> cases h

theorem unpkByteRule_fault {v : Byte} (h : unpkByteRule v s = .fault c) : c = .formatError := by
  unfold unpkByteRule at h
  split at h <;> cases h
  exact unpackBits_error _ ‹_›

/-- A rule raises only the faults R277 lists for its command. -/
theorem ruleOf_fault_mem (h : ruleOf i s = .fault c) : c ∈ i.faults := by
  cases i with
  | nop | reset | status | errcmd | tbClear | tblClear | unpkStart => cases h
  | leaf _ _ | heapPeek | heapExtract | heapInsert _ | nodeJoin _ _ | nodeInfo _ | nodeKids _ | heapSlot _ | tblDefine _
  | tblAppend _ _ | tblLen _ | tblBit _ _ | packSym _ | packEnd | unpkEnd =>
    dsimp only [ruleOf, leafRule, heapPeekRule, heapExtractRule, heapInsertRule, nodeJoinRule, nodeInfoRule, nodeKidsRule,
      heapSlotRule, tblDefineRule, tblAppendRule, tblLenRule, tblBitRule, packSymRule, packEndRule, unpkEndRule] at h
    split_ifs at h <;> cases h <;> simp [Instr.faults]
  | merge => simpa [Instr.faults] using mergeStep_error (mergeRule_fault h)
  | build => simpa [Instr.faults] using mergeLoop_error _ (buildRule_fault h)
  | assign => simpa [Instr.faults] using assignRule_fault h
  | unpkByte _ => simpa [Instr.faults] using unpkByteRule_fault h

end Answers

/-! ### The invariant (R28, R30, R32, R34 to R37, R42, R43) -/

section Invariant

variable {i : Instr} {s t : State} {rd : Word} {c : FaultCode}

/-- Settles O57: the reset state has empty memories, no symbol seen, no root, and every register 0. -/
theorem resetStateMeetsInvariant : Obligations.ResetStateMeetsInvariant where
  mem := reset_memory_wf
  heap := heapOk_empty rfl rfl
  tree := treeOk_empty rfl fun x hx => by simp [State.leafSeen, State.reset, hx]
  root := .inl rfl
  pack := by unfold PackOk; decide
  unpack := unpackOk_empty rfl rfl rfl
  fault := ⟨.inl rfl, iff_of_true rfl rfl⟩

theorem inv_resetBlock (s : State) : Inv (resetBlock s) :=
  resetStateMeetsInvariant.congr rfl rfl rfl rfl rfl rfl rfl rfl rfl rfl rfl rfl rfl

theorem inv_hardReset (s : State) : Inv (hardReset s) := inv_setInbox _ resetStateMeetsInvariant

theorem inv_unpkStart (h : Inv s) (hr : unpkStartRule s = .ok rd t) : Inv t := by
  cases hr
  exact inv_unpacker h (unpackOk_empty rfl rfl rfl) rfl

/-- A rule that answers `OK` keeps the invariant. -/
theorem ruleOf_keeps_inv (h : Inv s) (hr : ruleOf i s = .ok rd t) : Inv t := by
  cases i with
  | reset => cases hr; exact inv_resetBlock s
  | nop | status | errcmd | heapPeek | nodeInfo _ | nodeKids _ | heapSlot _ | tblLen _ | tblBit _ _ | unpkEnd =>
    rw [ruleOf_unchanged hr nofun rfl rfl rfl rfl]; exact h
  | leaf _ _ => exact inv_leaf h hr
  | heapExtract => exact inv_heapExtract h hr
  | heapInsert _ => exact inv_heapInsert h hr
  | nodeJoin _ _ => exact inv_nodeJoin h hr
  | merge => exact inv_merge h hr
  | build => exact inv_build h hr
  | assign => exact inv_assign h hr
  | tbClear => exact inv_tbClear h hr
  | tblClear => cases hr; exact inv_ct _ (table_wf_clearTable s) h
  | tblDefine _ => exact inv_tblDefine h hr
  | tblAppend _ _ => exact inv_tblAppend h hr
  | packSym _ => exact inv_packSym h hr
  | packEnd => exact inv_packEnd h hr
  | unpkStart => exact inv_unpkStart h hr
  | unpkByte _ => exact inv_unpkByte h hr

/-- Fault entry keeps the invariant when the code is one the block raises and the word is not that of `NOP` (R37). -/
theorem inv_raiseFault {w : Word} (hw : w ≠ 0) (hc : raisable c.code = true) (h : Inv s) : Inv (raiseFault w c s) := by
  have hcode : c.code ≠ 0 := fun h0 => by rw [h0] at hc; cases hc
  obtain ⟨hmem, hheap, htree, hroot, hpack, hunpack, -⟩ := h
  exact inv_respond _ ⟨hmem, heapOk_congr hheap rfl rfl, treeOk_congr htree rfl rfl, hroot, hpack,
    ⟨hunpack.short, hunpack.clean, hunpack.dead, hunpack.done⟩, ⟨.inr hc, iff_of_false hw hcode⟩⟩

/-- No rule raises the two codes that only a host reports (R271, R273). -/
theorem host_codes_not_mem_faults (i : Instr) : FaultCode.ioFailure ∉ i.faults ∧ FaultCode.emptyInput ∉ i.faults := by
  cases i <;> simp [Instr.faults]

/-- Every fault of a rule is one of the codes the block can raise (R271). -/
theorem raisable_of_mem_faults (h : c ∈ i.faults) : raisable c.code = true := by
  cases c with
  | ioFailure => exact absurd h (host_codes_not_mem_faults i).1
  | emptyInput => exact absurd h (host_codes_not_mem_faults i).2
  | _ => rfl

theorem mkWord_ne_zero {op : BitVec 8} (a : BitVec 10) (x : BitVec 32) (hop : op ≠ 0) : mkWord op a x ≠ 0 := fun h =>
  hop (by rw [← opField_mkWord op a x, h]; rfl)

/-- Only `NOP` has the zero word (R95), and `NOP` raises nothing. -/
theorem encode_ne_zero_of_fault (h : c ∈ i.faults) : encode i ≠ 0 := by
  cases i with
  | nop => cases h
  | _ => exact mkWord_ne_zero _ _ (by decide)

theorem exec_keeps_inv (h : Inv s) (hexec : exec i s = .next t) : Inv t := by
  rcases exec_outcomes hexec with ⟨st, rd, -, rfl⟩ | ⟨c, hrule, rfl⟩ | ⟨rd, u, hrule, rfl⟩
  · exact inv_respond _ h
  · have hmem := ruleOf_fault_mem hrule
    exact inv_raiseFault (encode_ne_zero_of_fault hmem) (raisable_of_mem_faults hmem) h
  · exact inv_respond _ (ruleOf_keeps_inv h hrule)

/-- An illegal word is not zero, since zero is `NOP`; so its fault can be told from none (46_control_and_host.md R248). -/
theorem illegalCommand_keeps_inv {w : Word} {e : Illegal} (hd : decode w = .error e) (h : Inv s)
    (hexec : illegalCommand w s = .next t) : Inv t := by
  have hw : w ≠ 0 := fun h0 => by
    have hnop : decode 0 = .ok .nop := rfl
    rw [h0, hnop] at hd; cases hd
  unfold illegalCommand guarded at hexec
  split at hexec <;> cases hexec
  · exact inv_respond _ h
  · exact inv_raiseFault hw rfl h

end Invariant

/-- Settles O58: with the input taken, a step is an idle hold, a hardware reset, one command or one illegal word, and each
keeps the invariant. -/
theorem stepKeepsInvariant : Obligations.StepKeepsInvariant := by
  intro s t h hstep
  have htake := inv_setInbox s.inbox.tail h
  unfold step at hstep
  split at hstep
  · cases hstep; exact h
  · cases hstep; exact inv_hardReset _
  · split at hstep
    · exact exec_keeps_inv htake hstep
    · exact illegalCommand_keeps_inv ‹_› htake hstep

/-! ### What each command that answers `OK` may change (R22, R30, R38, R60) -/

section Writes

variable {i : Instr} {s t : State} {rd : Word}

/-- A part `f` of the state is kept by a rule when `RESET` keeps it and, for each unit, the command does not write the unit or
`f` does not look at it. -/
theorem RuleFrame.keeps {α : Type} (f : State → α) (h : RuleFrame i s t)
    (hreset : i ≠ .reset ∨ ∀ u, f (resetBlock u) = f u) (htree : i.writesNodes = false ∨ ∀ u, f u = f u.rest)
    (htable : i.writesTable = false ∨ ∀ u ct, f (u.setCt ct) = f u)
    (hpacker : i.writesPacker = false ∨ ∀ u, f u = f u.notPacker)
    (hunpacker : i.writesUnpacker = false ∨ ∀ u, f u = f u.notUnpacker) : f t = f s := by
  cases h with
  | reset hi ht => rw [ht, hreset.resolve_left (not_not.mpr hi)]
  | unchanged ht => rw [ht]
  | tree hi ht =>
    have hf := htree.resolve_left (by simp [hi])
    rw [hf t, ht, ← hf s]
  | table hi ht =>
    obtain ⟨ct, rfl⟩ := ht
    exact htable.resolve_left (by simp [hi]) s ct
  | packer hi ht =>
    have hf := hpacker.resolve_left (by simp [hi])
    rw [hf t, ht, ← hf s]
  | unpacker hi ht =>
    have hf := hunpacker.resolve_left (by simp [hi])
    rw [hf t, ht, ← hf s]

/-! #### The ports (R38) -/

theorem packBit_pkOut (s : State) (b : Bool) : s.pkOut <+: (packBit s b).pkOut := by
  unfold packBit
  dsimp only
  split
  · exact List.prefix_append _ _
  · exact List.prefix_rfl

theorem packBits_pkOut (s : State) (bits : List Bool) : s.pkOut <+: (packBits s bits).pkOut := by
  induction bits generalizing s with
  | nil => exact List.prefix_rfl
  | cons b bits ih => exact (packBit_pkOut s b).trans (ih (packBit s b))

theorem packFlush_pkOut (s : State) : s.pkOut <+: (packFlush s).pkOut := by
  unfold packFlush
  split
  · exact List.prefix_append _ _
  · exact List.prefix_rfl

theorem packSymRule_pkOut {x : Nat} (h : packSymRule x s = .ok rd t) : s.pkOut <+: t.pkOut := by
  unfold packSymRule at h
  split_ifs at h
  cases h
  exact packBits_pkOut s _

theorem packEndRule_pkOut (h : packEndRule s = .ok rd t) : s.pkOut <+: t.pkOut := by
  unfold packEndRule at h
  split_ifs at h
  cases h
  exact (packBits_pkOut s _).trans (packFlush_pkOut _)

theorem decoded_upOut (s : State) (x : Nat) : s.upOut <+: (decoded s x).upOut := by
  unfold decoded
  dsimp only
  split
  · exact List.prefix_rfl
  · exact List.prefix_append _ _

theorem unpackBit_upOut {b : Bool} (h : unpackBit s b = .ok t) : s.upOut <+: t.upOut := by
  unfold unpackBit at h
  dsimp only at h
  split at h
  · cases h; exact List.prefix_rfl
  · split at h <;> cases h
    · split <;> exact List.prefix_rfl
    · exact decoded_upOut (s.accumulate b) _

theorem unpackBits_upOut {bits : List Bool} (h : unpackBits s bits = .ok t) : s.upOut <+: t.upOut := by
  induction bits generalizing s with
  | nil => cases h; exact List.prefix_rfl
  | cons b bits ih =>
    rw [unpackBits_cons] at h
    cases hb : unpackBit s b with
    | error c => rw [hb] at h; cases h
    | ok u => rw [hb] at h; exact (unpackBit_upOut hb).trans (ih h)

theorem unpkByteRule_upOut {v : Byte} (h : unpkByteRule v s = .ok rd t) : s.upOut <+: t.upOut := by
  unfold unpkByteRule at h
  split at h <;> cases h
  exact unpackBits_upOut ‹_›

theorem ruleOf_keeps_pkOut (h : ruleOf i s = .ok rd t) (hi : i.writesPacker = false) : t.pkOut = s.pkOut :=
  (ruleOf_frame h).keeps (·.pkOut) (.inr fun _ => rfl) (.inr fun _ => rfl) (.inr fun _ _ => rfl) (.inl hi) (.inr fun _ => rfl)

/-- A rule other than `UNPK.BYTE`'s leaves `UP_OUT`: the unpacker's one other writer, `UNPK.START`, emits nothing. -/
theorem ruleOf_keeps_upOut (h : ruleOf i s = .ok rd t) (hi : ∀ v, i ≠ .unpkByte v) : t.upOut = s.upOut := by
  cases hw : i.writesUnpacker with
  | false =>
    exact (ruleOf_frame h).keeps (·.upOut) (.inr fun _ => rfl) (.inr fun _ => rfl) (.inr fun _ _ => rfl) (.inr fun _ => rfl)
      (.inl hw)
  | true =>
    cases i with
    | unpkStart => cases h; rfl
    | unpkByte v => exact absurd rfl (hi v)
    | _ => cases hw

theorem ruleOf_pkOut (h : ruleOf i s = .ok rd t) : s.pkOut <+: t.pkOut := by
  cases hw : i.writesPacker with
  | false => rw [ruleOf_keeps_pkOut h hw]
  | true =>
    cases i with
    | packSym x => exact packSymRule_pkOut h
    | packEnd => exact packEndRule_pkOut h
    | _ => cases hw

theorem ruleOf_upOut (h : ruleOf i s = .ok rd t) : s.upOut <+: t.upOut := by
  by_cases hi : ∃ v, i = .unpkByte v
  · obtain ⟨v, rfl⟩ := hi
    exact unpkByteRule_upOut h
  · rw [ruleOf_keeps_upOut h (not_exists.mp hi)]

/-! #### The writers of the node store (R60), said once -/

/-- Everything a merge step that answers has checked and done (41_tree_build.md R152). -/
theorem mergeStep_ok {r : NodeIdx × State} (h : mergeStep s = .ok r) :
    s.ncount ≠ 513 ∧ s.mergeSum < 2 ^ 32 ∧ r = (s.nextIdx, s.merged) := by
  rw [mergeStep_eq] at h
  split_ifs at h with hcap hsum
  cases h
  exact ⟨hcap, Nat.lt_of_not_le hsum, rfl⟩

/-- What each merge step keeps, the loop of `BUILD` keeps (R154). -/
theorem mergeLoop_keeps {P : State → Prop} (fuel : Nat)
    (hstep : ∀ u, P u → 2 ≤ u.hsize → u.ncount ≠ 513 → u.mergeSum < 2 ^ 32 → P u.merged) (hs : P s)
    (h : mergeLoop fuel s = .ok t) : P t := by
  induction fuel generalizing s with
  | zero => cases h; exact hs
  | succ fuel ih =>
    unfold mergeLoop at h
    split at h
    · rename_i hsize
      split at h
      · cases h
      · rename_i hmerge
        obtain ⟨hcap, hsum, hr⟩ := mergeStep_ok hmerge
        cases hr
        exact ih (hstep s hs hsize hcap hsum) h
    · cases h; exact hs

/-- Everything a writer of the node store, other than `RESET`, can do when it answers `OK` (R60). -/
inductive TreeChange (s : State) : Instr → State → Prop where
  | leaf (x : Nat) (c : Weight) :
    TreeChange s (.leaf x c) ((((s.allocNode (leafNode x c)).setLeafSeen x).heapInsert s.nextIdx).setRoot Config.nil)
  | extract (hne : s.heap ≠ []) :
    TreeChange s .heapExtract ((s.heapExtract.setOwn s.heapMin.toNat .detached).setRoot Config.nil)
  | insert (n : NodeIdx) (hn : n.toNat < s.ncount) (hown : (s.node n.toNat).own = .detached) :
    TreeChange s (.heapInsert n.toNat) (((s.heapInsert n).setOwn n.toNat .heap).setRoot Config.nil)
  | join (l r : NodeIdx) (wt : Weight) (hl : l.toNat < s.ncount) (hr : r.toNat < s.ncount)
    (hlown : (s.node l.toNat).own = .detached) (hrown : (s.node r.toNat).own = .detached) :
    TreeChange s (.nodeJoin l.toNat r.toNat) ((s.join l r wt .detached).setRoot Config.nil)
  | merge (hsize : 2 ≤ s.hsize) :
    TreeChange s .merge (s.merged.setRoot Config.nil)
  | build (u : State) (hsize : s.hsize ≠ 0) (hloop : mergeLoop s.hsize s = .ok u) :
    TreeChange s .build ((u.heapExtract.setOwn u.heapMin.toNat .detached).setRoot u.heapMin)
  | clear :
    TreeChange s .tbClear ((((s.setNodes []).setHeap []).setRoot Config.nil).clearLeafSeen)

/-- A node index in range is a node index value. -/
theorem exists_nodeIdx {n : Nat} (hn : nodeInRange n) : ∃ m : NodeIdx, m.toNat = n :=
  ⟨BitVec.ofNat 10 n, (BitVec.toNat_ofNat n 10).trans (Nat.mod_eq_of_lt (Nat.lt_trans hn (by decide)))⟩

theorem heapInsertRule_treeChange {n : Nat} (h : heapInsertRule n s = .ok rd t) : TreeChange s (.heapInsert n) t := by
  unfold heapInsertRule at h
  split_ifs at h with hrange hdet
  cases h
  obtain ⟨m, rfl⟩ := exists_nodeIdx hrange
  rw [Bool.not_eq_false, isDetached_iff] at hdet
  rw [BitVec.ofNat_toNat, BitVec.setWidth_eq]
  exact .insert m hdet.1 hdet.2

theorem nodeJoinRule_treeChange {l r : Nat} (h : nodeJoinRule l r s = .ok rd t) : TreeChange s (.nodeJoin l r) t := by
  unfold nodeJoinRule at h
  dsimp only at h
  split_ifs at h with hrange hdet
  cases h
  simp only [not_or, not_not] at hrange
  obtain ⟨a, rfl⟩ := exists_nodeIdx hrange.1
  obtain ⟨b, rfl⟩ := exists_nodeIdx hrange.2
  simp only [not_or, Bool.not_eq_false, isDetached_iff] at hdet
  obtain ⟨-, ⟨ha, haown⟩, hb, hbown⟩ := hdet
  rw [BitVec.ofNat_toNat, BitVec.setWidth_eq, BitVec.ofNat_toNat, BitVec.setWidth_eq]
  exact .join a b _ ha hb haown hbown

theorem ruleOf_treeChange (h : ruleOf i s = .ok rd t) (hi : i.writesNodes = true) : TreeChange s i t := by
  cases i with
  | leaf x c =>
    dsimp only [ruleOf, leafRule] at h
    split_ifs at h
    cases h
    exact .leaf x c
  | heapExtract =>
    dsimp only [ruleOf, heapExtractRule] at h
    split_ifs at h with hsize
    cases h
    exact .extract fun hnil => hsize (by simp [State.hsize, hnil])
  | heapInsert _ => exact heapInsertRule_treeChange h
  | nodeJoin _ _ => exact nodeJoinRule_treeChange h
  | merge =>
    dsimp only [ruleOf, mergeRule] at h
    split at h
    · cases h
    · rename_i hsize
      split at h <;> cases h
      rename_i hstep
      cases (mergeStep_ok hstep).2.2
      exact .merge (by omega)
  | build =>
    dsimp only [ruleOf, buildRule] at h
    split at h
    · cases h
    · rename_i hsize
      split at h <;> cases h
      exact .build _ hsize ‹_›
  | tbClear => cases h; exact .clear
  | _ => cases hi

/-- Of the writers of the node store only `NODE.JOIN` leaves the heap array (R60). -/
theorem ruleOf_keeps_heap (h : ruleOf i s = .ok rd t) (hreset : i ≠ .reset) (hi : i.writesHeap = false) : t.heap = s.heap := by
  cases hw : i.writesNodes with
  | false =>
    exact (ruleOf_frame h).keeps (·.heap) (.inl hreset) (.inl hw) (.inr fun _ _ => rfl) (.inr fun _ => rfl) (.inr fun _ => rfl)
  | true =>
    cases ruleOf_treeChange h hw with
    | join => rfl
    | _ => cases hi

theorem mergeLoop_leafseen {fuel : Nat} (h : mergeLoop fuel s = .ok t) : t.leafseen = s.leafseen :=
  mergeLoop_keeps (P := fun u => u.leafseen = s.leafseen) fuel (fun _ hu _ _ _ => hu) rfl h

/-- Of the writers of the node store only `LEAF` and `TB.CLEAR` write `leafseen` (R29, R60). -/
theorem ruleOf_keeps_leafseen (h : ruleOf i s = .ok rd t) (hreset : i ≠ .reset) (hi : i.writesLeafseen = false) :
    t.leafseen = s.leafseen := by
  cases hw : i.writesNodes with
  | false =>
    exact (ruleOf_frame h).keeps (·.leafseen) (.inl hreset) (.inl hw) (.inr fun _ _ => rfl) (.inr fun _ => rfl)
      (.inr fun _ => rfl)
  | true =>
    cases ruleOf_treeChange h hw with
    | build u _ hloop => exact (mergeLoop_leafseen hloop :)
    | leaf | clear => cases hi
    | _ => rfl

theorem ruleOf_keeps_nodes (h : ruleOf i s = .ok rd t) (hreset : i ≠ .reset) (hi : i.writesNodes = false) :
    t.nodes = s.nodes :=
  (ruleOf_frame h).keeps (·.nodes) (.inl hreset) (.inl hi) (.inr fun _ _ => rfl) (.inr fun _ => rfl) (.inr fun _ => rfl)

theorem ruleOf_keeps_root (h : ruleOf i s = .ok rd t) (hreset : i ≠ .reset) (hi : i.writesNodes = false) : t.root = s.root :=
  (ruleOf_frame h).keeps (·.root) (.inl hreset) (.inl hi) (.inr fun _ _ => rfl) (.inr fun _ => rfl) (.inr fun _ => rfl)

/-- Every writer of the node store but `BUILD` leaves `root` NIL (R30). -/
theorem ruleOf_root_nil (h : ruleOf i s = .ok rd t) (hbuild : i ≠ .build) (hi : i.writesNodes = true ∨ i = .reset) :
    t.root = Config.nil := by
  rcases hi with hi | rfl
  · cases ruleOf_treeChange h hi with
    | build => exact absurd rfl hbuild
    | _ => rfl
  · cases h; rfl

end Writes

/-- Settles O13: the rules of the three emitters extend their port, and every other end of a command leaves both ports. -/
theorem portsOnlyGrow : Obligations.PortsOnlyGrow := by
  intro i s t hexec
  rcases exec_outcomes hexec with ⟨st, rd, -, rfl⟩ | ⟨c, -, rfl⟩ | ⟨rd, u, hrule, rfl⟩
  · exact ⟨[], [], by simp⟩
  · exact ⟨[], [], by simp [raiseFault]⟩
  · obtain ⟨packed, hpacked⟩ := ruleOf_pkOut hrule
    obtain ⟨bytes, hbytes⟩ := ruleOf_upOut hrule
    refine ⟨packed, bytes, hpacked.symm, hbytes.symm, fun hne => ?_, fun hne => ?_⟩
    · by_contra hw
      rw [ruleOf_keeps_pkOut hrule (by simpa using hw)] at hpacked
      exact hne (by simpa using hpacked)
    · by_contra hi
      rw [ruleOf_keeps_upOut hrule (not_exists.mp hi)] at hbytes
      exact hne (by simpa using hbytes)

/-- Settles O14, unit by unit of R22 and R60. -/
theorem onlyListedWritersWrite : Obligations.OnlyListedWritersWrite := by
  intro i s t rd hreset hexec hresps
  obtain ⟨u, hrule, rfl⟩ := ruleOf_of_answer_ok hexec hresps
  have hframe := ruleOf_frame hrule
  have hnodes := ruleOf_keeps_nodes hrule hreset
  have hheap := ruleOf_keeps_heap hrule hreset
  have hleafseen := ruleOf_keeps_leafseen hrule hreset
  have hroot := ruleOf_keeps_root hrule hreset
  have hpacker : i.writesPacker = false → (u.pkAcc, u.pkCnt, u.pkOut) = (s.pkAcc, s.pkCnt, s.pkOut) := fun hi =>
    hframe.keeps (fun v => (v.pkAcc, v.pkCnt, v.pkOut)) (.inl hreset) (.inr fun _ => rfl) (.inr fun _ _ => rfl) (.inl hi)
      (.inr fun _ => rfl)
  have hunpacker : i.writesUnpacker = false →
      (u.upAcc, u.upLen, u.upDead, u.upDone, u.upOut) = (s.upAcc, s.upLen, s.upDead, s.upDone, s.upOut) := fun hi =>
    hframe.keeps (fun v => (v.upAcc, v.upLen, v.upDead, v.upDone, v.upOut)) (.inl hreset) (.inr fun _ => rfl)
      (.inr fun _ _ => rfl) (.inr fun _ => rfl) (.inl hi)
  have hfault : (u.err, u.errCmd) = (s.err, s.errCmd) :=
    hframe.keeps (fun v => (v.err, v.errCmd)) (.inl hreset) (.inr fun _ => rfl) (.inr fun _ _ => rfl) (.inr fun _ => rfl)
      (.inr fun _ => rfl)
  refine ⟨hnodes, hheap, hleafseen, hroot, fun hi => ?_, fun hi => ?_, fun hi => ?_, ?_⟩
  · exact hframe.keeps (·.ct) (.inl hreset) (.inr fun _ => rfl) (.inl hi) (.inr fun _ => rfl) (.inr fun _ => rfl)
  · simpa using hpacker hi
  · simpa using hunpacker hi
  · simpa using hfault

/-- Settles O36: the writers of the node store clear `root`, and nothing else writes it. -/
theorem rootSetOnlyByBuild : Obligations.RootSetOnlyByBuild := by
  intro i s t rd hexec hresps hbuild
  obtain ⟨u, hrule, rfl⟩ := ruleOf_of_answer_ok hexec hresps
  have hnil := ruleOf_root_nil hrule hbuild
  refine ⟨hnil, fun hchanged => ?_⟩
  by_cases hi : i.writesNodes = true ∨ i = .reset
  · exact hnil hi
  · rw [not_or, Bool.not_eq_true] at hi
    exact absurd (ruleOf_keeps_root hrule hi.2 hi.1) hchanged

/-- Settles O17: `RESET` runs in every state and takes every register and memory but the ports from the reset state. -/
theorem resetGivesResetValues : Obligations.ResetGivesResetValues := by
  refine ⟨rfl, fun s => ⟨(resetBlock s).respond ⟨.ok, 0⟩, rfl, rfl, rfl, fun x hx => ?_, rfl, fun x _ => ?_, rfl, rfl, rfl, rfl,
    rfl, rfl, rfl, rfl, rfl, rfl, rfl, rfl⟩⟩
  · simp [State.leafSeen, resetBlock, State.reset, hx]
  · exact entry_clearTable State.reset x

/-! ### The owners of the nodes (R24, R26) -/

section Owners

variable {i : Instr} {s t u : State} {rd : Word}

/-- The transitions of R26: what the command `i` may make of the owner of node `n`. -/
inductive OwnerMove (i : Instr) (n : Nat) : Owner → Owner → Prop where
  | stay (o : Owner) : OwnerMove i n o o
  | insert (hi : i = .heapInsert n) : OwnerMove i n .detached .heap
  | join (hi : ∃ l r, i = .nodeJoin l r ∧ (n = l ∨ n = r)) : OwnerMove i n .detached .child
  | extract (hi : i = .heapExtract ∨ i = .build) : OwnerMove i n .heap .detached
  | merge (hi : i = .merge ∨ i = .build) : OwnerMove i n .heap .child

/-- No command moves one node twice, but for moves that stay: the commands that move out of HEAP and out of DETACHED differ. -/
theorem OwnerMove.trans {n : Nat} {o p q : Owner} (h : OwnerMove i n o p) (h' : OwnerMove i n p q) : OwnerMove i n o q := by
  cases h with
  | stay => exact h'
  | join hi => cases h' with
    | stay => exact .join hi
  | merge hi => cases h' with
    | stay => exact .merge hi
  | insert hi => cases h' with
    | stay => exact .insert hi
    | extract hi' => simp [hi] at hi'
    | merge hi' => simp [hi] at hi'
  | extract hi => cases h' with
    | stay => exact .extract hi
    | insert hi' => simp [hi'] at hi
    | join hi' => obtain ⟨l, r, rfl, -⟩ := hi'; simp at hi

/-- Every node allocated in `s` is allocated in `t` and changed in no field but `own`, along the transitions of R26. -/
def NodesKept (i : Instr) (s t : State) : Prop :=
  ∀ n < s.ncount, n < t.ncount ∧ ∃ o, t.node n = (s.node n).withOwn o ∧ OwnerMove i n (s.node n).own o

theorem NodesKept.refl (i : Instr) (s : State) : NodesKept i s s := fun _ hn => ⟨hn, _, rfl, .stay _⟩

theorem NodesKept.trans (h : NodesKept i s t) (h' : NodesKept i t u) : NodesKept i s u := by
  intro n hn
  obtain ⟨hnt, o, ho, hmove⟩ := h n hn
  obtain ⟨hnu, p, hp, hmove'⟩ := h' n hnt
  rw [ho] at hp hmove'
  exact ⟨hnu, p, hp, hmove.trans hmove'⟩

/-- `NodesKept` looks at the node stores alone. -/
theorem NodesKept.congr {t' : State} (h : NodesKept i s t) (ht : t'.nodes = t.nodes) : NodesKept i s t' := by
  intro n hn
  rw [ncount_congr ht, node_congr ht]
  exact h n hn

theorem nodesKept_of_nodes (h : t.nodes = s.nodes) : NodesKept i s t := (NodesKept.refl i s).congr h

theorem nodesKept_allocNode (nd : Node) : NodesKept i s (s.allocNode nd) := fun n hn =>
  ⟨by rw [ncount_allocNode]; omega, _, node_allocNode s nd hn, .stay _⟩

theorem nodesKept_setOwn {m : Nat} {o : Owner} (hm : m < s.ncount) (hmove : OwnerMove i m (s.node m).own o) :
    NodesKept i s (s.setOwn m o) := by
  intro n hn
  rw [ncount_setOwn, node_setOwn s m o n hm]
  refine ⟨hn, ?_⟩
  split
  · rename_i hnm; subst hnm; exact ⟨o, rfl, hmove⟩
  · exact ⟨_, rfl, .stay _⟩

theorem nodesKept_join {a b : NodeIdx} {wt : Weight} {o : Owner} (ha : a.toNat < s.ncount) (hb : b.toNat < s.ncount)
    (hamove : OwnerMove i a.toNat (s.node a.toNat).own .child) (hbmove : OwnerMove i b.toNat (s.node b.toNat).own .child) :
    NodesKept i s (s.join a b wt o) := by
  intro n hn
  rw [join_ncount, node_join s wt o ha hb n (by omega), if_neg (by omega)]
  refine ⟨by omega, ?_⟩
  split
  · rename_i hn'; rcases hn' with rfl | rfl
    · exact ⟨_, rfl, hamove⟩
    · exact ⟨_, rfl, hbmove⟩
  · exact ⟨_, rfl, .stay _⟩

theorem heapMin_mem (hne : s.heap ≠ []) : s.heapMin ∈ s.heap := slot_mem _ (List.length_pos_of_ne_nil hne)

/-- The second minimum of a merge step is another entry of the heap (R152). -/
theorem mergeSnd_mem (h2 : 2 ≤ s.hsize) : s.mergeSnd ∈ s.heap := by
  have hne : s.heap ≠ [] := by intro hnil; simp [State.hsize, hnil] at h2
  have hne1 : s.heapExtract.heap ≠ [] := by
    apply List.ne_nil_of_length_pos
    rw [heapExtract_heap, length_heapPop]
    unfold State.hsize at h2
    omega
  exact (heapPop_perm s.weightOf s.heap hne).subset (List.mem_cons_of_mem _ (heapMin_mem hne1))

/-- A merge step makes CHILD of the two entries it takes from the heap. -/
theorem nodesKept_merged (hi : i = .merge ∨ i = .build) (hh : HeapOk s) (h2 : 2 ≤ s.hsize) : NodesKept i s s.merged := by
  have hne : s.heap ≠ [] := by intro hnil; simp [State.hsize, hnil] at h2
  obtain ⟨ha, haown⟩ := hh.owned _ (heapMin_mem hne)
  obtain ⟨hb, hbown⟩ := hh.owned _ (mergeSnd_mem h2)
  have hjoin : NodesKept i s (s.join s.mergeFst s.mergeSnd (BitVec.ofNat 32 s.mergeSum) .heap) :=
    nodesKept_join ha hb (by rw [State.mergeFst, haown]; exact .merge hi) (by rw [hbown]; exact .merge hi)
  exact hjoin.congr rfl

/-- An extraction makes DETACHED of slot 0's node. -/
theorem nodesKept_extract (hi : i = .heapExtract ∨ i = .build) (hh : HeapOk s) (hne : s.heap ≠ []) :
    NodesKept i s (s.heapExtract.setOwn s.heapMin.toNat .detached) := by
  obtain ⟨hm, hown⟩ := hh.owned _ (heapMin_mem hne)
  have hset : NodesKept i s (s.setOwn s.heapMin.toNat .detached) := nodesKept_setOwn hm (by rw [hown]; exact .extract hi)
  exact hset.congr rfl

/-- The loop of `BUILD` keeps the nodes, and leaves a heap in order. -/
theorem nodesKept_mergeLoop {fuel : Nat} (h : Inv s) (hloop : mergeLoop fuel s = .ok t) : HeapOk t ∧ NodesKept .build s t := by
  have hkeep := mergeLoop_keeps (P := fun u => u.ncount ≤ 513 ∧ HeapOk u ∧ TreeOk u ∧ NodesKept .build s u) fuel ?_
    ⟨h.ncount_le, h.heap, h.tree, .refl _ s⟩ hloop
  · exact ⟨hkeep.2.1, hkeep.2.2.2⟩
  · rintro u ⟨hn, hh, ht, hkept⟩ h2 hcap hsum
    obtain ⟨hh', ht'⟩ := merged_ok (by omega) hh ht h2 hsum
    exact ⟨by rw [merged_ncount]; omega, hh', ht', hkept.trans (nodesKept_merged (.inr rfl) hh h2)⟩

theorem nodesKept_build {fuel : Nat} (h : Inv s) (hsize : s.hsize ≠ 0) (hloop : mergeLoop fuel s = .ok u) :
    NodesKept .build s (u.heapExtract.setOwn u.heapMin.toNat .detached) := by
  obtain ⟨hh, hkept⟩ := nodesKept_mergeLoop h hloop
  obtain ⟨-, -, -, -, hpos, -⟩ := mergeLoop_ok fuel h.ncount_le h.heap h.tree hloop
  have hne : u.heap ≠ [] := List.ne_nil_of_length_pos (hpos (by omega))
  exact hkept.trans (nodesKept_extract (.inr rfl) hh hne)

/-- Every rule but those of `TB.CLEAR` and `RESET` keeps the nodes. -/
theorem ruleOf_nodesKept (h : Inv s) (hrule : ruleOf i s = .ok rd t) (hclear : i ≠ .tbClear) (hreset : i ≠ .reset) :
    NodesKept i s t := by
  cases hw : i.writesNodes with
  | false => exact nodesKept_of_nodes (ruleOf_keeps_nodes hrule hreset hw)
  | true =>
    cases ruleOf_treeChange hrule hw with
    | leaf x c => exact (nodesKept_allocNode (leafNode x c)).congr rfl
    | extract hne => exact (nodesKept_extract (.inl rfl) h.heap hne).congr rfl
    | insert n hn hown =>
      have hset : NodesKept (.heapInsert n.toNat) s (s.setOwn n.toNat .heap) :=
        nodesKept_setOwn hn (by rw [hown]; exact .insert rfl)
      exact hset.congr rfl
    | join l r wt hl hr hlown hrown =>
      exact (nodesKept_join hl hr (by rw [hlown]; exact .join ⟨_, _, rfl, .inl rfl⟩)
        (by rw [hrown]; exact .join ⟨_, _, rfl, .inr rfl⟩)).congr rfl
    | merge hsize => exact (nodesKept_merged (.inl rfl) h.heap hsize).congr rfl
    | build u hsize hloop => exact (nodesKept_build h hsize hloop).congr rfl
    | clear => exact absurd rfl hclear

theorem exec_nodesKept (h : Inv s) (hexec : exec i s = .next t) (hclear : i ≠ .tbClear) (hreset : i ≠ .reset) :
    NodesKept i s t := by
  rcases exec_outcomes hexec with ⟨st, rd, -, rfl⟩ | ⟨c, -, rfl⟩ | ⟨rd, u, hrule, rfl⟩
  · exact nodesKept_of_nodes rfl
  · exact nodesKept_of_nodes rfl
  · exact (ruleOf_nodesKept h hrule hclear hreset).congr rfl

end Owners

/-- Settles O35: the transitions of R26, read off `OwnerMove` by the owner before. -/
theorem nodesChangeOnlyOwner : Obligations.NodesChangeOnlyOwner := by
  intro i s t h hexec hclear hreset n hn
  obtain ⟨hnt, o, hnode, hmove⟩ := exec_nodesKept h hexec hclear hreset n hn
  rw [hnode, withOwn_own]
  refine ⟨hnt, rfl, fun hown => ?_, fun hown => ?_, fun hown => ?_⟩ <;> rw [hown] at hmove
  · cases hmove; rfl
  · cases hmove with
    | stay => exact .inl rfl
    | insert hi => exact .inr (.inl ⟨rfl, hi⟩)
    | join hi => exact .inr (.inr ⟨rfl, hi⟩)
  · cases hmove with
    | stay => exact .inl rfl
    | extract hi => exact .inr (.inl ⟨rfl, hi⟩)
    | merge hi => exact .inr (.inr ⟨rfl, hi⟩)

/-! ### The counts (R42) -/

section Counts

variable {i : Instr} {s t : State} {c : FaultCode}

/-- How many leaves are allocated (R42). -/
def State.leaves (s : State) : Nat := s.nodes.countP (·.kind == .leaf)

/-- How many internal nodes are allocated (R42). -/
def State.internals (s : State) : Nat := s.nodes.countP (·.kind == .internal)

theorem nodes_eq_map_node (s : State) : s.nodes = (List.range s.ncount).map s.node := by
  apply List.ext_getElem
  · simp [State.ncount]
  · intro k hk _
    simp [node_eq_getElem s hk]

/-- Distinct allocated indices whose nodes are no children, and the internal nodes, are at most as many as the leaves: every
internal node has two children of its own. -/
theorem roots_add_internals_le (ht : TreeOk s) {l : List Nat} (hnodup : l.Nodup)
    (hl : ∀ k ∈ l, k < s.ncount ∧ (s.node k).own ≠ .child) : l.length + s.internals ≤ s.leaves := by
  have hroots : l.length ≤ s.nodes.countP (fun n => ¬ (n.own == .child) = true) := by
    have hsub : l ⊆ (List.range s.ncount).filter (fun k => ¬ ((s.node k).own == .child) = true) := fun k hk => by
      simpa using hl k hk
    rw [nodes_eq_map_node s, List.countP_map, List.countP_eq_length_filter]
    exact (hnodup.subperm hsub).length_le
  have hsplit := List.length_eq_countP_add_countP (fun n : Node => n.own == .child) (l := s.nodes)
  have hchildren := ht.counts
  have hkinds := kind_count s
  unfold State.ncount at hkinds
  unfold State.internals State.leaves
  omega

theorem leaves_le (ht : TreeOk s) : s.leaves ≤ 257 := leaf_count ht

theorem leaves_add_internals (s : State) : s.leaves + s.internals = s.ncount := kind_count s

/-- The node allocated last is no child: a child's parent was allocated after it (R43). -/
theorem last_not_child (ht : TreeOk s) (hn : 0 < s.ncount) : (s.node (s.ncount - 1)).own ≠ .child := by
  intro hchild
  obtain ⟨p, hp, hk, hkid⟩ := ht.hasParent _ (by omega) hchild
  obtain ⟨-, hleft, hright, -⟩ := ht.internal p hp hk
  rcases hkid with hkid | hkid <;> omega

theorem internals_lt_leaves (ht : TreeOk s) (hn : 0 < s.ncount) : 1 + s.internals ≤ s.leaves :=
  roots_add_internals_le ht (l := [s.ncount - 1]) (List.nodup_singleton _) fun k hk => by
    rw [List.mem_singleton.mp hk]
    exact ⟨by omega, last_not_child ht hn⟩

/-- The indices in the heap array, as numbers: distinct, and of nodes that the heap owns (R28). -/
theorem heap_indices (hh : HeapOk s) : (s.heap.map BitVec.toNat).Nodup ∧
    ∀ k ∈ s.heap.map BitVec.toNat, k < s.ncount ∧ (s.node k).own = .heap := by
  refine ⟨hh.nodup.map fun _ _ => BitVec.eq_of_toNat_eq, fun k hk => ?_⟩
  obtain ⟨x, hx, rfl⟩ := List.mem_map.mp hk
  exact hh.owned x hx

theorem hsize_add_internals_le (hh : HeapOk s) (ht : TreeOk s) : s.hsize + s.internals ≤ s.leaves := by
  obtain ⟨hnodup, hown⟩ := heap_indices hh
  simpa [State.hsize] using roots_add_internals_le ht hnodup fun k hk => ⟨(hown k hk).1, by rw [(hown k hk).2]; decide⟩

/-- With a DETACHED node beside it the heap is not full: what `HEAP.INSERT` checks never fires. -/
theorem hsize_lt_of_detached (hh : HeapOk s) (ht : TreeOk s) {n : Nat} (hn : n < s.ncount) (hown : (s.node n).own = .detached) :
    s.hsize < 257 := by
  obtain ⟨hnodup, hheap⟩ := heap_indices hh
  have hnotin : n ∉ s.heap.map BitVec.toNat := fun hmem => by
    have hboth := (hheap n hmem).2
    rw [hown] at hboth; cases hboth
  have hcount := roots_add_internals_le ht (l := n :: s.heap.map BitVec.toNat) (List.nodup_cons.mpr ⟨hnotin, hnodup⟩)
    (List.forall_mem_cons.mpr ⟨⟨hn, by rw [hown]; decide⟩, fun k hk => ⟨(hheap k hk).1, by rw [(hheap k hk).2]; decide⟩⟩)
  have hleaves := leaves_le ht
  simp only [List.length_cons, List.length_map] at hcount
  unfold State.hsize
  omega

/-- With two nodes that are no children the node store is not full: what `NODE.JOIN` checks never fires. -/
theorem ncount_lt_of_two_roots (ht : TreeOk s) {l r : Nat} (hlr : l ≠ r) (hl : l < s.ncount ∧ (s.node l).own ≠ .child)
    (hr : r < s.ncount ∧ (s.node r).own ≠ .child) : s.ncount < 513 := by
  have hcount := roots_add_internals_le ht (l := [l, r]) (by simpa using hlr) (by simpa using ⟨hl, hr⟩)
  have hleaves := leaves_le ht
  have hsum := leaves_add_internals s
  simp only [List.length_cons, List.length_nil] at hcount
  omega

/-- With two entries in the heap the node store is not full: what `MERGE` and `BUILD` check never fires. -/
theorem ncount_lt_of_two_entries (hh : HeapOk s) (ht : TreeOk s) (h2 : 2 ≤ s.hsize) : s.ncount < 513 := by
  have hcount := hsize_add_internals_le hh ht
  have hleaves := leaves_le ht
  have hsum := leaves_add_internals s
  omega

/-- With a symbol not seen yet there is room for its leaf: what `LEAF` checks never fires. The tree with that leaf added has at
most 257 leaves. -/
theorem room_of_not_seen (hh : HeapOk s) (ht : TreeOk s) {x : Nat} (hx : x ≤ 256) (hseen : s.leafSeen x = false) :
    s.ncount < 513 ∧ s.hsize < 257 := by
  have hleaves := leaves_le (treeOk_leaf (c := 1) hx (by decide) hseen ht)
  have hnew : ((s.allocNode (leafNode x 1)).setLeafSeen x).leaves = s.leaves + 1 :=
    List.countP_append.trans rfl
  have hcount := hsize_add_internals_le hh ht
  have hsum := leaves_add_internals s
  omega

/-! #### `CAPACITY` (60_exceptions.md R277) -/

theorem mergeStep_ne_capacity (hh : HeapOk s) (ht : TreeOk s) (h2 : 2 ≤ s.hsize) : mergeStep s ≠ .error .capacity := by
  rw [mergeStep_eq, if_neg (ncount_lt_of_two_entries hh ht h2).ne]
  split_ifs <;> simp

theorem mergeLoop_ne_capacity (fuel : Nat) (hh : HeapOk s) (ht : TreeOk s) : mergeLoop fuel s ≠ .error .capacity := by
  induction fuel generalizing s with
  | zero => exact nofun
  | succ fuel ih =>
    intro h
    unfold mergeLoop at h
    split at h
    · rename_i hsize
      split at h
      · rename_i hstep
        cases h
        exact mergeStep_ne_capacity hh ht hsize hstep
      · rename_i hstep
        obtain ⟨-, hsum, hr⟩ := mergeStep_ok hstep
        cases hr
        obtain ⟨hh', ht'⟩ := merged_ok (ncount_lt_of_two_entries hh ht hsize) hh ht hsize hsum
        exact ih hh' ht' h
    · cases h

theorem leafRule_ne_capacity (h : Inv s) (x : Nat) (w : Weight) : leafRule x w s ≠ .fault .capacity := by
  intro hr
  unfold leafRule at hr
  split_ifs at hr with hx hw hseen hfull <;> cases hr
  obtain ⟨hn, hz⟩ := room_of_not_seen h.heap h.tree hx (by simpa using hseen)
  exact hfull.elim hn.ne hz.ne

theorem heapInsertRule_ne_capacity (h : Inv s) (n : Nat) : heapInsertRule n s ≠ .fault .capacity := by
  intro hr
  unfold heapInsertRule at hr
  split_ifs at hr with hrange hdet hfull <;> cases hr
  rw [Bool.not_eq_false, isDetached_iff] at hdet
  exact (hsize_lt_of_detached h.heap h.tree hdet.1 hdet.2).ne hfull

theorem nodeJoinRule_ne_capacity (h : Inv s) (l r : Nat) : nodeJoinRule l r s ≠ .fault .capacity := by
  intro hr
  unfold nodeJoinRule at hr
  dsimp only at hr
  split_ifs at hr with hrange hdet hfull <;> cases hr
  simp only [not_or, Bool.not_eq_false, isDetached_iff] at hdet
  obtain ⟨hlr, ⟨hl, hlown⟩, hr', hrown⟩ := hdet
  exact (ncount_lt_of_two_roots h.tree hlr ⟨hl, by rw [hlown]; decide⟩ ⟨hr', by rw [hrown]; decide⟩).ne hfull

theorem mergeRule_ne_capacity (h : Inv s) : mergeRule s ≠ .fault .capacity := by
  intro hr
  have h2 : ¬ s.hsize < 2 := fun hlt => by rw [mergeRule, if_pos hlt] at hr; cases hr
  exact mergeStep_ne_capacity h.heap h.tree (Nat.le_of_not_lt h2) (mergeRule_fault hr)

theorem buildRule_ne_capacity (h : Inv s) : buildRule s ≠ .fault .capacity := fun hr =>
  mergeLoop_ne_capacity _ h.heap h.tree (buildRule_fault hr)

/-- Of the commands that R277 lists with `CAPACITY`, under the invariant only `TBL.APPEND` raises it. -/
theorem ruleOf_capacity (h : Inv s) (hr : ruleOf i s = .fault .capacity) : ∃ x b, i = .tblAppend x b := by
  have hmem := ruleOf_fault_mem hr
  cases i with
  | tblAppend x b => exact ⟨x, b, rfl⟩
  | leaf x w => exact absurd hr (leafRule_ne_capacity h x w)
  | heapInsert n => exact absurd hr (heapInsertRule_ne_capacity h n)
  | nodeJoin l r => exact absurd hr (nodeJoinRule_ne_capacity h l r)
  | merge => exact absurd hr (mergeRule_ne_capacity h)
  | build => exact absurd hr (buildRule_ne_capacity h)
  | _ => simp [Instr.faults] at hmem

/-- The data word of a `FAULT` response tells the code (R93, R271). -/
theorem eq_capacity_of_place (h : (9 : Word) = place c.code 0) : c = .capacity := by
  cases c with
  | capacity => rfl
  | _ => exact absurd h (by decide)

end Counts


/-- Settles O59: the leaves are one per symbol, and the heap's nodes and the node allocated last are children of none. -/
theorem countsStayWithinCapacity : Obligations.CountsStayWithinCapacity := by
  rintro s leaves internals h rfl rfl
  have hkinds := leaves_add_internals s
  refine ⟨leaves_le h.tree, fun hpos => ?_, hkinds.symm, h.ncount_le, hsize_add_internals_le h.heap h.tree⟩
  have hn : 0 < s.ncount := Nat.lt_of_lt_of_le hpos (hkinds ▸ Nat.le_add_right _ _)
  exact (Nat.add_comm _ _).trans_le (internals_lt_leaves h.tree hn)

/-- Settles O60: the fault answered is the rule's, and the invariant leaves room for every rule but `TBL.APPEND`'s. -/
theorem capacityOnlyFromAppend : Obligations.CapacityOnlyFromAppend := by
  intro i s t h hexec hresps
  obtain ⟨c, hrule, hcode⟩ := ruleOf_of_answer_fault hexec hresps
  obtain rfl := eq_capacity_of_place hcode
  exact ruleOf_capacity h hrule

end Sys2Proof.Machine

/-! Proofs for the family of 20_memory.md: the reading commands (R70). -/

namespace Sys2Proof.Machine

section Reads

variable {i : Instr} {s t : State} {r : Response}

/-! ### The response record is not read (R39, log 3) -/

/-- A rule's end with one response more in the state it leaves. -/
def Result.respond (r : Response) : Result → Result
  | .ok rd t => .ok rd (t.respond r)
  | .none => .none
  | .fault c => .fault c

/-- The rule of a reading command ends the same way whatever was answered before: its branches test, and its data word shows,
fields other than the record. -/
theorem ruleOf_respond (hi : i.readOnly = true) (s : State) (r : Response) :
    ruleOf i (s.respond r) = (ruleOf i s).respond r := by
  cases i with
  | nop | status | errcmd => rfl
  | heapPeek | heapSlot _ | nodeInfo _ | nodeKids _ | tblLen _ | tblBit _ _ =>
    simp only [ruleOf, heapPeekRule, heapSlotRule, nodeInfoRule, nodeKidsRule, tblLenRule, tblBitRule,
      apply_ite (Result.respond r)]
    rfl
  | _ => cases hi

/-! ### A reading command's answer, and its answer to the same command again (R70) -/

/-- A reading command is a writer of no unit of R22 and R60. -/
theorem writesNothing_of_readOnly (hi : i.readOnly = true) :
    i ≠ .reset ∧ i.writesNodes = false ∧ i.writesTable = false ∧ i.writesPacker = false ∧ i.writesUnpacker = false := by
  cases i with
  | nop | status | errcmd | heapPeek | heapSlot _ | nodeInfo _ | nodeKids _ | tblLen _ | tblBit _ _ =>
    exact ⟨nofun, rfl, rfl, rfl, rfl⟩
  | _ => cases hi

/-- The rule of a reading command that answers `OK` leaves the block as it was. -/
theorem ruleOf_unchanged_of_readOnly {rd : Word} (hi : i.readOnly = true) (h : ruleOf i s = .ok rd t) : t = s := by
  obtain ⟨hreset, hnodes, htable, hpacker, hunpacker⟩ := writesNothing_of_readOnly hi
  exact ruleOf_unchanged h hreset hnodes htable hpacker hunpacker

/-- A command that is not refused ends as its rule ends (R275, R278). -/
theorem exec_of_runs (h : s.faulted = false ∨ i.runsFaulted = true) :
    exec i s = .next (complete (encode i) s (ruleOf i s)) :=
  h.elim (exec_of_not_faulted i s) (exec_always i s)

/-- A reading command that answers `OK` or `NONE` adds its response to the record and does nothing else, now and when it is
repeated. -/
theorem exec_readOnly_twice (hi : i.readOnly = true) (hexec : exec i s = .next t) (hresps : t.resps = s.resps ++ [r])
    (hst : r.st = .ok ∨ r.st = .none) : t = s.respond r ∧ exec i t = .next (t.respond r) := by
  rcases exec_cases i s t hexec with ⟨-, -, rfl⟩ | ⟨hruns, rfl⟩
  · obtain rfl : ⟨.refused, place s.err 0⟩ = r := by simpa [refuse] using hresps
    simp at hst
  · have hrepeat : exec i (s.respond r) = .next (complete (encode i) (s.respond r) ((ruleOf i s).respond r)) := by
      rw [← ruleOf_respond hi]; exact exec_of_runs hruns
    cases hrule : ruleOf i s with
    | ok rd u =>
      obtain rfl := ruleOf_unchanged_of_readOnly hi hrule
      obtain rfl : ⟨.ok, rd⟩ = r := by simpa [hrule] using hresps
      rw [hrule] at hrepeat
      exact ⟨rfl, hrepeat⟩
    | none =>
      obtain rfl : ⟨.none, 0⟩ = r := by simpa [hrule] using hresps
      rw [hrule] at hrepeat
      exact ⟨rfl, hrepeat⟩
    | fault c =>
      obtain rfl : ⟨.fault, place c.code 0⟩ = r := by simpa [hrule, raiseFault] using hresps
      simp at hst

end Reads

/-- Settles O15: the rule of a reading command changes nothing and does not read the record its answer joins. -/
theorem readsChangeNothing : Obligations.ReadsChangeNothing := by
  intro i s t r hi hexec hresps hst
  obtain ⟨rfl, hrepeat⟩ := exec_readOnly_twice hi hexec hresps hst
  exact ⟨rfl, by simpa [State.respond] using hrepeat⟩

end Sys2Proof.Machine

/-! Proofs for the family of 30_encoding.md: one layout per command, which the opcode map's rows, the decoder and the encoder
share; and `TBL.LOAD`. -/

namespace Sys2Proof

/-! ### The layout of a command's word (R90, R91, R95) -/

/-- How a command uses its word: its `op`, whether `a` is an operand, and how many low bits of `w` are (R90, R91). -/
structure Layout where
  op    : BitVec 8
  usesA : Bool
  wBits : Nat

/-- The layout of each command (R95). -/
def Instr.layout (i : Instr) : Layout :=
  match i with
  | .nop => ⟨0x00, false, 0⟩
  | .reset => ⟨0x01, false, 0⟩
  | .status => ⟨0x02, false, 0⟩
  | .errcmd => ⟨0x03, false, 0⟩
  | .leaf _ _ => ⟨0x10, true, 32⟩
  | .heapPeek => ⟨0x11, false, 0⟩
  | .heapExtract => ⟨0x12, false, 0⟩
  | .heapInsert _ => ⟨0x13, true, 0⟩
  | .nodeJoin _ _ => ⟨0x14, true, 10⟩
  | .nodeInfo _ => ⟨0x15, true, 0⟩
  | .nodeKids _ => ⟨0x16, true, 0⟩
  | .heapSlot _ => ⟨0x17, true, 0⟩
  | .merge => ⟨0x20, false, 0⟩
  | .build => ⟨0x21, false, 0⟩
  | .assign => ⟨0x22, false, 0⟩
  | .tbClear => ⟨0x23, false, 0⟩
  | .tblClear => ⟨0x30, false, 0⟩
  | .tblDefine _ => ⟨0x31, true, 0⟩
  | .tblAppend _ _ => ⟨0x32, true, 1⟩
  | .tblLen _ => ⟨0x33, true, 0⟩
  | .tblBit _ _ => ⟨0x34, true, 8⟩
  | .packSym _ => ⟨0x40, true, 0⟩
  | .packEnd => ⟨0x41, false, 0⟩
  | .unpkStart => ⟨0x50, false, 0⟩
  | .unpkByte _ => ⟨0x51, false, 8⟩
  | .unpkEnd => ⟨0x52, false, 0⟩

/-- `i`'s command with its operands taken from the fields `a` and `w` = `x` of a word (R91). -/
def Instr.withOperands (i : Instr) (a : BitVec 10) (x : BitVec 32) : Instr :=
  match i with
  | .leaf _ _ => .leaf a.toNat x
  | .heapInsert _ => .heapInsert a.toNat
  | .nodeJoin _ _ => .nodeJoin a.toNat (x.extractLsb' 0 10).toNat
  | .nodeInfo _ => .nodeInfo a.toNat
  | .nodeKids _ => .nodeKids a.toNat
  | .heapSlot _ => .heapSlot a.toNat
  | .tblDefine _ => .tblDefine a.toNat
  | .tblAppend _ _ => .tblAppend a.toNat (x.getLsbD 0)
  | .tblLen _ => .tblLen a.toNat
  | .tblBit _ _ => .tblBit a.toNat (x.extractLsb' 0 8).toNat
  | .packSym _ => .packSym a.toNat
  | .unpkByte _ => .unpkByte (x.extractLsb' 0 8)
  | .nop => .nop
  | .reset => .reset
  | .status => .status
  | .errcmd => .errcmd
  | .heapPeek => .heapPeek
  | .heapExtract => .heapExtract
  | .merge => .merge
  | .build => .build
  | .assign => .assign
  | .tbClear => .tbClear
  | .tblClear => .tblClear
  | .packEnd => .packEnd
  | .unpkStart => .unpkStart
  | .unpkEnd => .unpkEnd

/-- The row of a layout: `op` in the pattern, and every bit that is no operand bit in the mask (R92, R95). -/
def Layout.row (l : Layout) : Row :=
  ⟨mkWord l.op 0 0, ~~~mkWord 0 (if l.usesA then BitVec.allOnes 10 else 0) (~~~(BitVec.allOnes 32 <<< l.wBits))⟩

/-- A word has this layout: its `op`, and 0 in every bit that is no operand bit (R90, R96). -/
def Layout.Fits (l : Layout) (w : Word) : Prop :=
  opField w = l.op ∧ rsvField w = 0 ∧ (l.usesA = false → aField w = 0) ∧ (wField w).toNat < 2 ^ l.wBits

section Fields

variable (i c : Instr) (w : Word) (a : BitVec 10) (x : BitVec 32)

theorem row_eq_layout_row : i.row = i.layout.row := by
  cases i <;> dsimp only [Instr.row, Instr.layout] <;> decide

@[simp] theorem layout_withOperands : (i.withOperands a x).layout = i.layout := by cases i <;> rfl

@[simp] theorem row_withOperands : (i.withOperands a x).row = i.row := by cases i <;> rfl

/-! ### Rows (R92) -/

theorem extractLsb'_not {lo n : Nat} (h : lo + n ≤ 64) : (~~~w).extractLsb' lo n = ~~~w.extractLsb' lo n := by
  apply BitVec.eq_of_getLsbD_eq
  intro j hj
  have hlt : lo + j < 64 := by omega
  simp [hj, hlt]

theorem opField_not : opField (~~~w) = ~~~opField w := extractLsb'_not w (by decide)
theorem rsvField_not : rsvField (~~~w) = ~~~rsvField w := extractLsb'_not w (by decide)
theorem aField_not : aField (~~~w) = ~~~aField w := extractLsb'_not w (by decide)
theorem wField_not : wField (~~~w) = ~~~wField w := extractLsb'_not w (by decide)

theorem and_allOnes_shiftLeft_eq_zero_iff (n : Nat) : x &&& (BitVec.allOnes 32 <<< n) = 0 ↔ x.toNat < 2 ^ n := by
  refine ⟨fun h => (Machine.toNat_lt_twoPow_iff x n).mpr fun j hj => ?_, Laws.MatchesRow.and_high⟩
  by_cases hlt : j < 32
  · have hsub : j - n < 32 := by omega
    simpa [-BitVec.reduceAllOnes, hlt, Nat.not_lt.mpr hj, hsub] using congrArg (·.getLsbD j) h
  · exact BitVec.getLsbD_of_ge x j (by omega)

theorem word_eq_iff {v w : Word} :
    v = w ↔ opField v = opField w ∧ rsvField v = rsvField w ∧ aField v = aField w ∧ wField v = wField w :=
  ⟨fun h => h ▸ ⟨rfl, rfl, rfl, rfl⟩, fun ⟨hop, hrsv, ha, hw⟩ => word_ext hop hrsv ha hw⟩

/-- A word matches a layout's row exactly when it has the layout (R92). -/
theorem Layout.row_matchesWord_iff (l : Layout) : l.row.matchesWord w ↔ l.Fits w := by
  unfold Row.matchesWord Layout.row Layout.Fits
  rw [word_eq_iff]
  simp only [opField_and, rsvField_and, aField_and, wField_and, opField_not, rsvField_not, aField_not, wField_not,
    opField_mkWord, rsvField_mkWord, aField_mkWord, wField_mkWord, BitVec.not_not, and_allOnes_shiftLeft_eq_zero_iff]
  cases l.usesA <;> simp [-BitVec.reduceAllOnes]

theorem matchesWord_iff : i.row.matchesWord w ↔ i.layout.Fits w := by
  rw [row_eq_layout_row, Layout.row_matchesWord_iff]

/-! ### The decoder -/

/-- The decoder on a word with the `op` of `i`'s command. -/
theorem decode_of_opField {i : Instr} {w : Word} (h : opField w = i.layout.op) :
    decode w = accept w i.layout.usesA i.layout.wBits (i.withOperands (aField w) (wField w)) := by
  unfold decode
  rw [h]
  cases i <;> rfl

/-- A word that decodes has the `op` of the command it decodes to. -/
theorem opField_of_decode {i : Instr} {w : Word} (h : decode w = .ok i) : opField w = i.layout.op := by
  unfold decode at h
  dsimp only at h
  split at h
  case h_27 => cases h
  all_goals
    rename_i hop
    obtain ⟨rfl, -⟩ := (accept_ok_iff w _ _ _ _).mp h
    exact BitVec.eq_of_toNat_eq hop

/-- A word that matches a row decodes to that row's command, with its operands taken from the fields (R91, R92). -/
theorem decode_of_matchesWord {c : Instr} {w : Word} (h : c.row.matchesWord w) :
    decode w = .ok (c.withOperands (aField w) (wField w)) := by
  obtain ⟨hop, hrest⟩ := (matchesWord_iff c w).mp h
  rw [decode_of_opField hop, accept_ok_iff]
  exact ⟨rfl, hrest⟩

/-- Decoding is matching a row and reading the operands off the fields (R91, R92). -/
theorem decode_ok_iff : decode w = .ok i ↔ i.row.matchesWord w ∧ i = i.withOperands (aField w) (wField w) := by
  constructor
  · intro h
    have hop := opField_of_decode h
    rw [decode_of_opField hop, accept_ok_iff] at h
    exact ⟨(matchesWord_iff i w).mpr ⟨hop, h.2⟩, h.1⟩
  · rintro ⟨hmatch, hi⟩
    exact (decode_of_matchesWord hmatch).trans (congrArg Except.ok hi.symm)

variable {i c w}

theorem matchesWord_of_decode (h : decode w = .ok i) : i.row.matchesWord w := ((decode_ok_iff i w).mp h).1

theorem operands_of_decode (h : decode w = .ok i) : i = i.withOperands (aField w) (wField w) := ((decode_ok_iff i w).mp h).2

/-! ### The encoder -/

theorem encode_matchesWord (i : Instr) : i.row.matchesWord (encode i) := by
  open Laws.MatchesRow in
  cases i
  exacts [nop, reset, status, errcmd, leaf _ _, heapPeek, heapExtract, heapInsert _, nodeJoin _ _, nodeInfo _, nodeKids _,
    heapSlot _, merge, build, assign, tbClear, tblClear, tblDefine _, tblAppend _ _, tblLen _, tblBit _ _, packSym _, packEnd,
    unpkStart, unpkByte _, unpkEnd]

/-- An operand in the low bits of `w` is read back as it was put in. -/
theorem extractLsb'_setWidth {n : Nat} (v : BitVec n) (h : n ≤ 32) : (v.setWidth 32).extractLsb' 0 n = v :=
  (BitVec.extractLsb'_setWidth_of_le (by omega)).trans BitVec.extractLsb'_eq_self

/-- A word that fits in `n` bits is its low `n` bits. -/
theorem setWidth_extractLsb' {n : Nat} (h : x.toNat < 2 ^ n) : (x.extractLsb' 0 n).setWidth 32 = x := by
  apply BitVec.eq_of_toNat_eq
  simp [BitVec.extractLsb'_toNat, Nat.mod_eq_of_lt h, Nat.mod_eq_of_lt x.isLt]

theorem eq_zero_of_toNat_lt_one (h : x.toNat < 2 ^ 0) : x = 0 := BitVec.eq_of_toNat_eq (Nat.lt_one_iff.mp h)

theorem ofBool_getLsbD_zero : BitVec.ofBool (x.getLsbD 0) = x.extractLsb' 0 1 :=
  BitVec.setWidth_one.symm.trans (BitVec.setWidth_eq_extractLsb' (by decide))

/-- A well-formed instruction's operands stand unchanged in the fields of its word (R91, R98). -/
theorem withOperands_encode (h : i.WellFormed) : i.withOperands (aField (encode i)) (wField (encode i)) = i := by
  cases i with
  | leaf s _ | heapInsert s | nodeInfo s | nodeKids s | heapSlot s | tblDefine s | tblLen s | packSym s =>
    simp only [encode, Instr.withOperands, aField_mkWord, wField_mkWord, BitVec.toNat_ofNat, Nat.mod_eq_of_lt h]
  | nodeJoin l r =>
    obtain ⟨hl, hr⟩ := h
    simp only [encode, Instr.withOperands, aField_mkWord, wField_mkWord, extractLsb'_setWidth _ (by decide : 10 ≤ 32),
      BitVec.toNat_ofNat, Nat.mod_eq_of_lt hl, Nat.mod_eq_of_lt hr]
  | tblAppend s b => simpa [encode, Instr.withOperands] using h
  | tblBit s j =>
    obtain ⟨hs, hj⟩ := h
    simp only [encode, Instr.withOperands, aField_mkWord, wField_mkWord, extractLsb'_setWidth _ (by decide : 8 ≤ 32),
      BitVec.toNat_ofNat, Nat.mod_eq_of_lt hs, Nat.mod_eq_of_lt hj]
  | unpkByte v => simp only [encode, Instr.withOperands, wField_mkWord, extractLsb'_setWidth v (by decide)]
  | _ => rfl

/-- An instruction taken from a word's fields is well-formed: a field's value fits the field (R91). -/
theorem wellFormed_withOperands : (c.withOperands a x).WellFormed := by
  cases c with
  | nodeJoin _ _ | tblBit _ _ => exact ⟨a.isLt, BitVec.isLt _⟩
  | leaf _ _ | heapInsert _ | nodeInfo _ | nodeKids _ | heapSlot _ | tblDefine _ | tblAppend _ _ | tblLen _ | packSym _ =>
    exact a.isLt
  | _ => trivial

/-- The word of an instruction taken from fields has these fields, when those the command does not use are 0 (R90, R98). -/
theorem encode_withOperands (ha : c.layout.usesA = false → a = 0) (hx : x.toNat < 2 ^ c.layout.wBits) :
    encode (c.withOperands a x) = mkWord c.layout.op a x := by
  cases c with
  | leaf _ _ => simp only [Instr.withOperands, encode, Instr.layout, BitVec.ofNat_toNat, BitVec.setWidth_eq]
  | nodeJoin _ _ | tblBit _ _ =>
    dsimp only [Instr.layout] at hx
    simp only [Instr.withOperands, encode, Instr.layout, BitVec.ofNat_toNat, BitVec.setWidth_eq, setWidth_extractLsb' x hx]
  | tblAppend _ _ =>
    dsimp only [Instr.layout] at hx
    simp only [Instr.withOperands, encode, Instr.layout, BitVec.ofNat_toNat, BitVec.setWidth_eq, ofBool_getLsbD_zero,
      setWidth_extractLsb' x hx]
  | unpkByte _ =>
    dsimp only [Instr.layout] at hx
    simp only [Instr.withOperands, encode, Instr.layout, ha rfl, setWidth_extractLsb' x hx]
  | heapInsert _ | nodeInfo _ | nodeKids _ | heapSlot _ | tblDefine _ | tblLen _ | packSym _ =>
    simp only [Instr.withOperands, encode, Instr.layout, BitVec.ofNat_toNat, BitVec.setWidth_eq, eq_zero_of_toNat_lt_one x hx]
  | _ => simp only [Instr.withOperands, encode, Instr.layout, ha rfl, eq_zero_of_toNat_lt_one x hx]

end Fields

/-- Settles O2: the word matches its row, and its fields give the operands back. -/
theorem decodeOfEncodeIsIdentity : Obligations.DecodeOfEncodeIsIdentity := fun i h =>
  (decode_ok_iff i (encode i)).mpr ⟨encode_matchesWord i, (withOperands_encode h).symm⟩

/-- Settles O3: the word is its `op`, `rsv` = 0 and the two fields the operands were read from. -/
theorem decodedWordIsItsEncoding : Obligations.DecodedWordIsItsEncoding := by
  intro w i h
  have hi := operands_of_decode h
  obtain ⟨hop, hrsv, ha, hx⟩ := (matchesWord_iff i w).mp (matchesWord_of_decode h)
  refine ⟨hi ▸ wellFormed_withOperands _ _, ?_⟩
  rw [hi, encode_withOperands _ _ ha hx, ← hop, mkWord_fields w hrsv]

/-! ### The opcode map (R92, R95) -/

/-- The command of every instruction is in the table. -/
theorem withOperands_zero_mem_tableCommands (i : Instr) : i.withOperands 0 0 ∈ tableCommands := by
  cases i <;> simp [Instr.withOperands, tableCommands]

/-- No two commands of the table have the same `op`. -/
theorem op_injective_tableCommands : ∀ c ∈ tableCommands, ∀ d ∈ tableCommands, c.layout.op = d.layout.op → c = d := by
  decide

/-- A word is illegal exactly when it matches no row. -/
theorem decode_error_iff (w : Word) : (∃ e, decode w = .error e) ↔ ∀ c ∈ tableCommands, ¬ c.row.matchesWord w := by
  constructor
  · rintro ⟨e, he⟩ c - hmatch
    rw [decode_of_matchesWord hmatch] at he
    cases he
  · intro hnone
    cases hdec : decode w with
    | error e => exact ⟨e, rfl⟩
    | ok i =>
      have hmatch := matchesWord_of_decode hdec
      rw [← row_withOperands i 0 0] at hmatch
      exact absurd hmatch (hnone _ (withOperands_zero_mem_tableCommands i))

/-- Settles O4: decoding is matching a row, an instruction has one word, and `op` tells the rows apart. -/
theorem decodingIsMatchUnderMask : Obligations.DecodingIsMatchUnderMask := by
  refine ⟨rfl, by decide, fun v w i hv hw => ?_, fun w => ⟨fun i h => ⟨matchesWord_of_decode h, ?_⟩, fun c _ h => ?_,
    fun c hc d hd hcw hdw => ?_, decode_error_iff w⟩⟩
  · rw [← (decodedWordIsItsEncoding v i hv).2, (decodedWordIsItsEncoding w i hw).2]
  · exact ⟨_, withOperands_zero_mem_tableCommands i, row_withOperands i 0 0⟩
  · exact ⟨_, decode_of_matchesWord h, row_withOperands c _ _⟩
  · have hcop := ((matchesWord_iff c w).mp hcw).1
    have hdop := ((matchesWord_iff d w).mp hdw).1
    exact op_injective_tableCommands c hc d hd (hcop.symm.trans hdop)

/-! ### Operands (R91) -/

theorem toNat_low_wField (w : Word) {n : Nat} (h : n ≤ 32) :
    ((wField w).extractLsb' 0 n).toNat = w.toNat % 2 ^ n := by
  rw [BitVec.extractLsb'_toNat, toNat_wField, Nat.shiftRight_zero, Nat.mod_mod_of_dvd _ (Nat.pow_dvd_pow 2 h)]

theorem getLsbD_zero_wField (w : Word) : (wField w).getLsbD 0 = decide (w.toNat % 2 = 1) := by
  rw [BitVec.getLsbD, Nat.testBit_zero, toNat_wField, Nat.mod_mod_of_dvd _ (by decide)]

/-- Settles O5: the operands of a decoded command are read off the fields `a` and `w`, which are bits of the word. -/
theorem operandsAreWordFields : Obligations.OperandsAreWordFields := by
  intro w
  have ha := toNat_aField w
  refine ⟨fun s c h => ?leaf, fun n h => (Instr.heapInsert.inj (operands_of_decode h)).trans ha, fun l r h => ?nodeJoin,
    fun n h => (Instr.nodeInfo.inj (operands_of_decode h)).trans ha,
    fun n h => (Instr.nodeKids.inj (operands_of_decode h)).trans ha,
    fun k h => (Instr.heapSlot.inj (operands_of_decode h)).trans ha,
    fun s h => (Instr.tblDefine.inj (operands_of_decode h)).trans ha, fun s b h => ?tblAppend,
    fun s h => (Instr.tblLen.inj (operands_of_decode h)).trans ha, fun s j h => ?tblBit,
    fun s h => (Instr.packSym.inj (operands_of_decode h)).trans ha, fun v h => ?unpkByte⟩
  case leaf =>
    obtain ⟨hs, hc⟩ := Instr.leaf.inj (operands_of_decode h)
    exact ⟨hs.trans ha, hc ▸ toNat_wField w⟩
  case nodeJoin =>
    obtain ⟨hl, hr⟩ := Instr.nodeJoin.inj (operands_of_decode h)
    exact ⟨hl.trans ha, hr.trans (toNat_low_wField w (by decide))⟩
  case tblAppend =>
    obtain ⟨hs, hb⟩ := Instr.tblAppend.inj (operands_of_decode h)
    exact ⟨hs.trans ha, hb.trans (getLsbD_zero_wField w)⟩
  case tblBit =>
    obtain ⟨hs, hj⟩ := Instr.tblBit.inj (operands_of_decode h)
    exact ⟨hs.trans ha, hj.trans (toNat_low_wField w (by decide))⟩
  case unpkByte => exact Instr.unpkByte.inj (operands_of_decode h) ▸ toNat_low_wField w (by decide)

/-- Settles O1: each word is written out, so the decoder is run on it. -/
theorem sampleWordsDecode : Obligations.SampleWordsDecode := by
  unfold Obligations.SampleWordsDecode
  decide

end Sys2Proof

namespace Sys2Proof.Machine

section TableLoad

variable {s t : State} {x : Nat} {pre bits : List Bool}

/-! ### Loading a codeword (R99, R175, R176) -/

/-- Issuing a well-formed command to a block that is not faulted ends as its rule ends (R275). -/
theorem issue_of_not_faulted {i : Instr} (hi : i.WellFormed) (herr : s.err = 0) :
    issue s i = complete (encode i) s (ruleOf i s) :=
  issue_eq i (decodeOfEncodeIsIdentity i hi) (exec_of_not_faulted i s (by simp [State.faulted, herr]))

/-- `TBL.DEFINE` of a symbol with no entry (R175). -/
theorem issue_tblDefine (herr : s.err = 0) (hx : x ≤ 256) (hv : s.ctValid x = false) :
    issue s (.tblDefine x) = (s.setEntry x ⟨true, 0, 0⟩).respond ⟨.ok, 0⟩ := by
  rw [issue_of_not_faulted (show x < 2 ^ 10 by omega) herr]
  simp [ruleOf, tblDefineRule, hx, hv]

/-- `TBL.APPEND` to a codeword of fewer than 256 bits (R176). -/
theorem issue_tblAppend (b : Bool) (herr : s.err = 0) (hv : s.ctValid x = true) (hlen : (s.codeOf x).length < 256) :
    issue s (.tblAppend x b) = (s.setEntry x ((s.entry x).append b)).respond ⟨.ok, 0⟩ := by
  have hx := ctValid_lt s hv
  have hroom : (s.entry x).len ≠ BitVec.ofNat 9 Config.lMax := fun h => by simp [State.codeOf, h, Config.lMax] at hlen
  rw [issue_of_not_faulted (show x < 2 ^ 10 by omega) herr]
  simp [ruleOf, tblAppendRule, Nat.le_of_lt_succ hx, hv, hroom]

/-- `t` is not faulted, its entry of `x` has the bits `bits`, and its other entries are those of `s`. -/
structure HasCodeword (s : State) (x : Nat) (bits : List Bool) (t : State) : Prop where
  err    : t.err = 0
  valid  : t.ctValid x = true
  code   : t.codeOf x = bits
  others : ∀ y, y ≠ x → t.entry y = s.entry y

/-- A write of a valid entry, as `TBL.DEFINE` and `TBL.APPEND` answer it. -/
theorem hasCodeword_setEntry {e : CtEntry} (r : Response) (hx : x < 257) (he : e.valid = true) (herr : t.err = 0)
    (hothers : ∀ y, y ≠ x → t.entry y = s.entry y) : HasCodeword s x e.bits ((t.setEntry x e).respond r) where
  err := herr
  valid := (congrArg CtEntry.valid (entry_setEntry_self t x e hx)).trans he
  code := congrArg CtEntry.bits (entry_setEntry_self t x e hx)
  others y hy := (entry_setEntry_ne t x e hy).trans (hothers y hy)

theorem hasCodeword_tblDefine (herr : s.err = 0) (hx : x ≤ 256) (hv : s.ctValid x = false) :
    HasCodeword s x [] (issue s (.tblDefine x)) := by
  rw [issue_tblDefine herr hx hv]
  exact hasCodeword_setEntry (e := ⟨true, 0, 0⟩) _ (Nat.lt_succ_of_le hx) rfl herr fun _ _ => rfl

theorem HasCodeword.tblAppend (h : HasCodeword s x bits t) (b : Bool) (hlen : bits.length < 256) :
    HasCodeword s x (bits ++ [b]) (issue t (.tblAppend x b)) := by
  obtain ⟨herr, hv, rfl, hothers⟩ := h
  rw [issue_tblAppend b herr hv hlen, State.codeOf, ← CtEntry.bits_append _ b (by simpa [State.codeOf] using hlen)]
  exact hasCodeword_setEntry _ (ctValid_lt t hv) hv herr hothers

theorem HasCodeword.tblAppends (h : HasCodeword s x pre t) (hlen : pre.length + bits.length ≤ 256) :
    HasCodeword s x (pre ++ bits) (issueAll t (bits.map (Instr.tblAppend x))) := by
  induction bits generalizing pre t with
  | nil => simpa using h
  | cons b bits ih =>
    rw [List.length_cons] at hlen
    have hnext := ih (h.tblAppend b (by omega)) (by rw [List.length_append, List.length_singleton]; omega)
    rwa [List.append_assoc] at hnext

end TableLoad

/-- Settles O43: the definition gives the empty codeword, and each append adds its bit. -/
theorem tableLoadGivesCodeword : Obligations.TableLoadGivesCodeword := by
  intro s x bits _ herr hx hv hlen
  obtain ⟨herr', hvalid, hcode, hothers⟩ := (hasCodeword_tblDefine herr hx hv).tblAppends (bits := bits) (by simpa using hlen)
  exact ⟨herr', hvalid, hcode, hothers⟩

end Sys2Proof.Machine

/-! Proofs for the family of 40_heap.md: each command's rule case by case, the heap's contract, and the order of ties. -/

namespace Sys2Proof.Machine

section HeapCommands

variable {s t : State} {rd : Word}

/-! ### From a rule's end to the command's (60_exceptions.md R275) -/

/-- A command of a block that is not faulted, its word written out, ends as its rule ends. -/
theorem exec_of_rule {i : Instr} {w : Word} {r : Result} (herr : s.err = 0) (hw : encode i = w) (hr : ruleOf i s = r) :
    exec i s = .next (complete w s r) := by
  rw [exec_of_not_faulted i s (by simp [State.faulted, herr]), hw, hr]

theorem decode_of_encode_eq {i : Instr} {w : Word} (hi : i.WellFormed) (hw : encode i = w) : decode w = .ok i :=
  hw ▸ decodeOfEncodeIsIdentity i hi

/-! ### The fields of a data word (30_encoding.md R94) -/

/-- A field is read back from where it was placed. -/
theorem extractLsb'_place_self {n lo : Nat} (v : BitVec n) (h : lo + n ≤ 64) : (place v lo).extractLsb' lo n = v := by
  apply BitVec.eq_of_getLsbD_eq
  intro j hj
  simp [getLsbD_place v lo _ h, hj]

/-- Bits below and above a placed field are 0. -/
theorem extractLsb'_place_of_disjoint {n lo k m : Nat} (v : BitVec n) (h : lo + n ≤ 64) (hd : k + m ≤ lo ∨ lo + n ≤ k) :
    (place v lo).extractLsb' k m = 0 := by
  apply BitVec.eq_of_getLsbD_eq
  intro j hj
  simp only [BitVec.getLsbD_extractLsb', getLsbD_place v lo _ h, hj, decide_true, Bool.true_and, BitVec.ofNat_eq_ofNat,
    BitVec.getLsbD_zero, Bool.and_eq_false_iff, decide_eq_false_iff_not]
  rcases hd with hbelow | habove
  · exact .inl (by omega)
  · exact .inr (BitVec.getLsbD_of_ge v _ (by omega))

theorem nodeWord_rdNode (i : NodeIdx) (wt : Weight) : NodeWord (rdNode i wt) i wt := by
  unfold NodeWord rdNode
  simp (disch := decide) [BitVec.extractLsb'_or, extractLsb'_place_self, extractLsb'_place_of_disjoint]

/-! ### The heap's reading and taking commands (R125, R126, R128) -/

theorem heapMin_of_cons {m : NodeIdx} {rest : List NodeIdx} (h : s.heap = m :: rest) : s.heapMin = m := by
  simp [State.heapMin, slot, h]

theorem heapPeekRule_of_nil (h : s.heap = []) : heapPeekRule s = .none := if_pos (by simp [State.hsize, h])

theorem heapPeekRule_of_cons {m : NodeIdx} {rest : List NodeIdx} (h : s.heap = m :: rest) :
    heapPeekRule s = .ok (rdNode m (s.weightOf m)) s := by
  rw [heapPeekRule, if_neg (by simp [State.hsize, h]), heapMin_of_cons h]

theorem heapExtractRule_of_nil (h : s.heap = []) : heapExtractRule s = .none := if_pos (by simp [State.hsize, h])

theorem heapExtractRule_of_cons {m : NodeIdx} {rest : List NodeIdx} (h : s.heap = m :: rest) :
    heapExtractRule s =
      .ok (rdNode m (s.weightOf m)) ((s.heapExtract.setOwn m.toNat .detached).setRoot Config.nil) := by
  rw [heapExtractRule, if_neg (by simp [State.hsize, h]), heapMin_of_cons h]

/-- A peek that answers `OK` found a heap with an entry, and changes nothing. -/
theorem heapPeekRule_ok (h : heapPeekRule s = .ok rd t) :
    ∃ m rest, s.heap = m :: rest ∧ rd = rdNode m (s.weightOf m) ∧ t = s := by
  rcases hheap : s.heap with _ | ⟨m, rest⟩
  · rw [heapPeekRule_of_nil hheap] at h; cases h
  · rw [heapPeekRule_of_cons hheap] at h; cases h
    exact ⟨m, rest, rfl, rfl, rfl⟩

/-- An extraction that answers `OK` found a heap with an entry, and leaves the heap of `HeapExtract` (R124). -/
theorem heapExtractRule_ok (h : heapExtractRule s = .ok rd t) :
    ∃ m rest, s.heap = m :: rest ∧ rd = rdNode m (s.weightOf m) ∧
      t = (s.heapExtract.setOwn m.toNat .detached).setRoot Config.nil := by
  rcases hheap : s.heap with _ | ⟨m, rest⟩
  · rw [heapExtractRule_of_nil hheap] at h; cases h
  · rw [heapExtractRule_of_cons hheap] at h; cases h
    exact ⟨m, rest, rfl, rfl, rfl⟩

theorem heapSlotRule_param {k : Nat} (h : 256 < k) : heapSlotRule k s = .fault .param :=
  if_pos (Nat.not_lt.mpr h)

theorem heapSlotRule_none {k : Nat} (hk : k ≤ 256) (h : s.hsize ≤ k) : heapSlotRule k s = .none := by
  rw [heapSlotRule, if_neg (not_not.mpr (Nat.lt_succ_of_le hk)), if_pos h]

theorem heapSlotRule_ok {k : Nat} {m : NodeIdx} (hk : k ≤ 256) (h : s.heap[k]? = some m) :
    heapSlotRule k s = .ok (rdNode m (s.weightOf m)) s := by
  obtain ⟨hlt, rfl⟩ := List.getElem?_eq_some_iff.mp h
  have hin : ¬ k ≥ s.hsize := Nat.not_le.mpr hlt
  rw [heapSlotRule, if_neg (not_not.mpr (Nat.lt_succ_of_le hk)), if_neg hin, slot_eq_getElem _ hlt]

/-! ### `HEAP.INSERT` and `NODE.JOIN` (R127, R129) -/

theorem nodeInRange_of_le {i : Nat} (hi : i ≤ 512) : nodeInRange i := Nat.lt_succ_of_le hi

theorem isDetached_eq_false_iff (i : Nat) : s.isDetached i = false ↔ s.ncount ≤ i ∨ (s.node i).own ≠ .detached := by
  rw [← Bool.not_eq_true, isDetached_iff, not_and_or, Nat.not_lt]

section Insert

variable {i : NodeIdx}

theorem heapInsertRule_param (h : 512 < i.toNat) : heapInsertRule i.toNat s = .fault .param :=
  if_pos (Nat.not_lt.mpr h)

theorem heapInsertRule_ownership (hi : i.toNat ≤ 512) (h : s.ncount ≤ i.toNat ∨ (s.node i.toNat).own ≠ .detached) :
    heapInsertRule i.toNat s = .fault .ownership := by
  rw [heapInsertRule, if_neg (not_not.mpr (nodeInRange_of_le hi)), if_pos ((isDetached_eq_false_iff _).mpr h)]

/-- A detached node goes into a heap that has room. -/
theorem heapInsertRule_detached (hi : i.toNat ≤ 512) (hn : i.toNat < s.ncount) (hown : (s.node i.toNat).own = .detached) :
    heapInsertRule i.toNat s =
      if s.hsize = 257 then .fault .capacity
      else .ok 0 (((s.heapInsert i).setOwn i.toNat .heap).setRoot Config.nil) := by
  rw [heapInsertRule, if_neg (not_not.mpr (nodeInRange_of_le hi)), (isDetached_iff _).mpr ⟨hn, hown⟩,
    if_neg (by decide), BitVec.ofNat_toNat, BitVec.setWidth_eq]

/-- An insertion that answers `OK` leaves the heap of `HeapInsert` (R123). -/
theorem heapInsertRule_ok (h : heapInsertRule i.toNat s = .ok rd t) :
    t = ((s.heapInsert i).setOwn i.toNat .heap).setRoot Config.nil := by
  unfold heapInsertRule at h
  split_ifs at h
  cases h
  rw [BitVec.ofNat_toNat, BitVec.setWidth_eq]

end Insert

section Join

variable {l r : NodeIdx}

theorem nodeJoinRule_param (h : 512 < l.toNat ∨ 512 < r.toNat) : nodeJoinRule l.toNat r.toNat s = .fault .param :=
  if_pos (h.imp Nat.not_lt.mpr Nat.not_lt.mpr)

theorem nodesInRange_of_le (hl : l.toNat ≤ 512) (hr : r.toNat ≤ 512) :
    ¬ (¬ nodeInRange l.toNat ∨ ¬ nodeInRange r.toNat) :=
  not_or.mpr ⟨not_not.mpr (nodeInRange_of_le hl), not_not.mpr (nodeInRange_of_le hr)⟩

theorem nodeJoinRule_ownership (hl : l.toNat ≤ 512) (hr : r.toNat ≤ 512)
    (h : l = r ∨ s.ncount ≤ l.toNat ∨ s.ncount ≤ r.toNat ∨ (s.node l.toNat).own ≠ .detached ∨
      (s.node r.toNat).own ≠ .detached) :
    nodeJoinRule l.toNat r.toNat s = .fault .ownership := by
  have hbad : l.toNat = r.toNat ∨ s.isDetached l.toNat = false ∨ s.isDetached r.toNat = false := by
    rw [BitVec.toNat_inj, isDetached_eq_false_iff, isDetached_eq_false_iff]
    tauto
  rw [nodeJoinRule, if_neg (nodesInRange_of_le hl hr), if_pos hbad]

/-- Two detached nodes are joined when the node store has room and their weights' sum is a weight. -/
theorem nodeJoinRule_detached (hl : l.toNat ≤ 512) (hr : r.toNat ≤ 512) (hlr : l ≠ r) (hln : l.toNat < s.ncount)
    (hrn : r.toNat < s.ncount) (hlown : (s.node l.toNat).own = .detached) (hrown : (s.node r.toNat).own = .detached) :
    nodeJoinRule l.toNat r.toNat s =
      if s.ncount = 513 then .fault .capacity
      else if 2 ^ 32 ≤ weightSum s l r then .fault .weightOverflow
      else .ok (rdNode s.nextIdx (BitVec.ofNat 32 (weightSum s l r)))
        ((s.join l r (BitVec.ofNat 32 (weightSum s l r)) .detached).setRoot Config.nil) := by
  have hgood : ¬ (l.toNat = r.toNat ∨ s.isDetached l.toNat = false ∨ s.isDetached r.toNat = false) := by
    rw [BitVec.toNat_inj, (isDetached_iff _).mpr ⟨hln, hlown⟩, (isDetached_iff _).mpr ⟨hrn, hrown⟩]
    simpa using hlr
  rw [nodeJoinRule, if_neg (nodesInRange_of_le hl hr), if_neg hgood, BitVec.ofNat_toNat, BitVec.ofNat_toNat,
    BitVec.setWidth_eq, BitVec.setWidth_eq]
  rfl

end Join

/-! ### `NODE.INFO` and `NODE.KIDS` (R130, R131) -/

section Reads

variable {i : Nat}

theorem nodeReadRules_param (h : 512 < i) : nodeInfoRule i s = .fault .param ∧ nodeKidsRule i s = .fault .param :=
  ⟨if_pos (Nat.not_lt.mpr h), if_pos (Nat.not_lt.mpr h)⟩

theorem nodeReadRules_none (hi : i ≤ 512) (h : s.ncount ≤ i) : nodeInfoRule i s = .none ∧ nodeKidsRule i s = .none := by
  have hrange : ¬ ¬ nodeInRange i := not_not.mpr (nodeInRange_of_le hi)
  exact ⟨(if_neg hrange).trans (if_pos h), (if_neg hrange).trans (if_pos h)⟩

theorem nodeReadRules_ok {n : Node} (hi : i ≤ 512) (h : s.nodes[i]? = some n) :
    nodeInfoRule i s = .ok (nodeInfoWord n) s ∧ nodeKidsRule i s = .ok (nodeKidsWord n) s := by
  obtain ⟨hlt, rfl⟩ := List.getElem?_eq_some_iff.mp h
  have hrange : ¬ ¬ nodeInRange i := not_not.mpr (nodeInRange_of_le hi)
  have hin : ¬ i ≥ s.ncount := Nat.not_le.mpr hlt
  rw [← node_eq_getElem s hlt]
  exact ⟨(if_neg hrange).trans (if_neg hin), (if_neg hrange).trans (if_neg hin)⟩

/-- Every bit of the data word of `NODE.INFO` (R130). -/
theorem nodeInfoWord_fields (n : Node) :
    (nodeInfoWord n).extractLsb' 0 32 = n.weight ∧ (nodeInfoWord n).extractLsb' 32 9 = n.sym ∧
      (nodeInfoWord n).extractLsb' 44 1 = n.kind.code ∧ (nodeInfoWord n).extractLsb' 48 2 = n.own.code ∧
      (nodeInfoWord n).extractLsb' 41 3 = 0 ∧ (nodeInfoWord n).extractLsb' 45 3 = 0 ∧
      (nodeInfoWord n).extractLsb' 50 14 = 0 := by
  unfold nodeInfoWord
  simp (disch := decide) [BitVec.extractLsb'_or, extractLsb'_place_self, extractLsb'_place_of_disjoint]

/-- Every bit of the data word of `NODE.KIDS` (R131). -/
theorem nodeKidsWord_fields (n : Node) :
    (nodeKidsWord n).extractLsb' 0 10 = n.left ∧ (nodeKidsWord n).extractLsb' 16 10 = n.right ∧
      (nodeKidsWord n).extractLsb' 10 6 = 0 ∧ (nodeKidsWord n).extractLsb' 26 38 = 0 := by
  unfold nodeKidsWord
  simp (disch := decide) [BitVec.extractLsb'_or, extractLsb'_place_self, extractLsb'_place_of_disjoint]

end Reads

end HeapCommands

/-- Settles O22: the rule's checks in their order. -/
theorem heapInsertByCases : Obligations.HeapInsertByCases := by
  intro s i
  have hw : encode (.heapInsert i.toNat) = mkWord 0x13 i 0 :=
    encode_withOperands (c := .heapInsert 0) i 0 nofun (by decide)
  refine ⟨decode_of_encode_eq i.isLt hw, fun herr => ⟨fun h => ?_, fun hi h => ?_, fun hi hn hown hfull => ?_,
    fun hi hn hown hroom => ?_⟩⟩
  · exact exec_of_rule herr hw (heapInsertRule_param h)
  · exact exec_of_rule herr hw (heapInsertRule_ownership hi h)
  · exact exec_of_rule herr hw ((heapInsertRule_detached hi hn hown).trans (if_pos hfull))
  · exact exec_of_rule herr hw ((heapInsertRule_detached hi hn hown).trans (if_neg hroom))

/-- Settles O24: the rule's checks in their order. -/
theorem nodeJoinByCases : Obligations.NodeJoinByCases := by
  intro s l r
  have hr : ((r.setWidth 32).extractLsb' 0 10).toNat = r.toNat := congrArg _ (extractLsb'_setWidth r (by decide))
  have hw : encode (.nodeJoin l.toNat r.toNat) = mkWord 0x14 l (r.setWidth 32) :=
    hr ▸ encode_withOperands (c := .nodeJoin 0 0) l (r.setWidth 32) nofun (Laws.MatchesRow.setWidth_lt r)
  refine ⟨decode_of_encode_eq ⟨l.isLt, r.isLt⟩ hw, fun herr => ⟨fun h => ?_, fun hl hr h => ?_,
    fun hl hr hlr hln hrn hlown hrown => ?_⟩⟩
  · exact exec_of_rule herr hw (nodeJoinRule_param h)
  · exact exec_of_rule herr hw (nodeJoinRule_ownership hl hr h)
  have hrule := nodeJoinRule_detached hl hr hlr hln hrn hlown hrown
  refine ⟨fun hfull => ?_, fun hroom hover => ?_, fun wt hroom hsum => ⟨rdNode s.nextIdx wt, nodeWord_rdNode _ _, ?_⟩⟩
  · exact exec_of_rule herr hw (hrule.trans (if_pos hfull))
  · exact exec_of_rule herr hw (hrule.trans ((if_neg hroom).trans (if_pos hover)))
  · have hfits : ¬ 2 ^ 32 ≤ weightSum s l r := Nat.not_le.mpr (hsum.trans_lt wt.isLt)
    have hwt : BitVec.ofNat 32 (weightSum s l r) = wt := BitVec.eq_of_toNat_eq (by simp [weightSum, State.weightOf, hsum])
    rw [if_neg hroom, if_neg hfits, hwt] at hrule
    exact exec_of_rule herr hw hrule

/-! ### The heap's contract (R120) -/

section Contract

variable {s : State}

/-- `m` is an entry of the heap, and none is lighter. -/
def State.IsHeapMin (s : State) (m : NodeIdx) : Prop := m ∈ s.heap ∧ ∀ j ∈ s.heap, s.weightOf m ≤ s.weightOf j

/-- Slot 0 of a heap in order (R124). -/
theorem isHeapMin_of_cons {m : NodeIdx} {rest : List NodeIdx} (ho : HeapOrdered s.weightOf s.heap) (h : s.heap = m :: rest) :
    s.IsHeapMin m := by
  have hm := heapMin_of_cons h
  exact ⟨hm ▸ heapMin_mem (by simp [h]), fun j hj => hm ▸ heapMin_le s.weightOf s.heap ho j hj⟩

/-- `HeapExtract` (R124) takes slot 0's entry and no other. -/
theorem heapExtract_perm_erase {m : NodeIdx} {rest : List NodeIdx} (h : s.heap = m :: rest) :
    s.heapExtract.heap.Perm (s.heap.erase m) := by
  rw [heapExtract_heap, h, List.erase_cons_head]
  exact (heapPop_perm s.weightOf (m :: rest) (List.cons_ne_nil m rest)).cons_inv

/-- A change of owner changes no weight, so the order of a heap outlasts it. -/
theorem heapOrdered_setOwn {u : State} (j : Nat) (o : Owner) (h : HeapOrdered u.weightOf u.heap) :
    HeapOrdered (u.setOwn j o).weightOf (u.setOwn j o).heap :=
  HeapOrdered.congr h fun k _ => (weightOf_setOwn u j o k).symm

end Contract

/-- Settles O26: what `HeapInsert` and `HeapExtract` do to the list of slots, under weights that no command changes. -/
theorem heapKeepsItsContract : Obligations.HeapKeepsItsContract := by
  intro s hok _ _
  refine ⟨fun i t rd hi hexec hresps => ?_, fun n t hexec hresps => ?_⟩
  · obtain ⟨u, hrule, rfl⟩ := ruleOf_of_answer_ok hexec hresps
    rcases hi with rfl | rfl
    · obtain ⟨m, rest, hheap, rfl, rfl⟩ := heapExtractRule_ok hrule
      obtain ⟨hmem, hle⟩ := isHeapMin_of_cons hok.ordered hheap
      refine ⟨m, hmem, nodeWord_rdNode _ _, hle, ?_, fun _ => ?_, nofun⟩
      · exact heapOrdered_setOwn (u := s.heapExtract) m.toNat .detached (heapPop_ordered s.weightOf s.heap hok.ordered)
      · exact heapExtract_perm_erase hheap
    · obtain ⟨m, rest, hheap, rfl, rfl⟩ := heapPeekRule_ok hrule
      obtain ⟨hmem, hle⟩ := isHeapMin_of_cons hok.ordered hheap
      exact ⟨m, hmem, nodeWord_rdNode _ _, hle, hok.ordered, nofun, fun _ => rfl⟩
  · obtain ⟨u, hrule, rfl⟩ := ruleOf_of_answer_ok hexec hresps
    obtain rfl := heapInsertRule_ok hrule
    exact ⟨heapPush_perm s.weightOf s.heap n,
      heapOrdered_setOwn (u := s.heapInsert n) n.toNat .heap (heapPush_ordered s.weightOf s.heap n hok.ordered)⟩

/-! ### Ties (R132) -/

section Ties

variable (wt : NodeIdx → Weight)

/-- Among equal weights no child is strictly lighter, so nothing sinks (R124). -/
theorem siftDown_of_equal_weights (fuel : Nat) (h : List NodeIdx) (k : Nat) (hk : k < h.length)
    (heq : ∀ i ∈ h, ∀ j ∈ h, wt i = wt j) : siftDown wt fuel h k = h := by
  cases fuel with
  | zero => rfl
  | succ fuel =>
    rw [siftDown]
    rcases lighterChild_spec wt h k with ⟨hstay, -⟩ | ⟨hc, -, -, hlt, -⟩
    · exact if_pos hstay
    · rw [heq _ (slot_mem h hc) _ (slot_mem h hk)] at hlt
      exact absurd hlt (BitVec.lt_irrefl _)

/-- An entry not lighter than its parent stays (R123). -/
theorem siftUp_of_parent_le (fuel : Nat) (h : List NodeIdx) (k : Nat)
    (hle : wt (slot h (parentSlot k)) ≤ wt (slot h k)) : siftUp wt fuel h k = h := by
  cases fuel with
  | zero => rfl
  | succ fuel =>
    rw [siftUp]
    split
    · rfl
    · exact if_neg (BitVec.not_lt.mpr hle)

/-- A new entry stays in the last slot unless its parent is strictly heavier (R123). -/
theorem heapPush_of_parent_le (h : List NodeIdx) (i : NodeIdx)
    (hle : ∀ p, h[parentSlot h.length]? = some p → wt p ≤ wt i) : heapPush wt h i = h ++ [i] := by
  rcases h.length.eq_zero_or_pos with hzero | hpos
  · rw [heapPush, hzero, siftUp]
  · have hp : parentSlot h.length < h.length := by unfold parentSlot; omega
    apply siftUp_of_parent_le
    rw [slot_append_length, slot_append_left h _ hp, slot_eq_getElem h hp]
    exact hle _ (List.getElem?_eq_getElem hp)

/-- Before anything sinks, an extraction puts the last slot's entry in slot 0 (R124). -/
theorem heapPop_cons_append (a b : NodeIdx) (mid : List NodeIdx) :
    heapPop wt (a :: mid ++ [b]) = siftDown wt (mid.length + 2) (b :: mid) 0 := by
  rw [heapPop, List.dropLast_concat]
  simp [slot]

end Ties

/-- Settles O27: the sift loops move an entry only past a strictly heavier one. -/
theorem tiesKeepStructuralOrder : Obligations.TiesKeepStructuralOrder := by
  refine ⟨heapPush_of_parent_le, fun wt a b mid heq => ?_⟩
  rw [heapPop_cons_append]
  exact siftDown_of_equal_weights wt _ _ 0 (Nat.succ_pos _) heq

/-- Settles O20: a heap list is empty or has a slot 0. -/
theorem heapPeekNamesSlotZero : Obligations.HeapPeekNamesSlotZero := by
  have hw : encode .heapPeek = mkWord 0x11 0 0 := rfl
  refine ⟨decode_of_encode_eq trivial hw, fun s herr => ⟨fun hnil => ?_, fun m rest hcons => ?_⟩⟩
  · exact exec_of_rule herr hw (heapPeekRule_of_nil hnil)
  · exact ⟨_, nodeWord_rdNode _ _, exec_of_rule herr hw (heapPeekRule_of_cons hcons)⟩

/-- Settles O21: a heap list is empty or has a slot 0, whose node `HeapExtract` takes. -/
theorem heapExtractTakesSlotZero : Obligations.HeapExtractTakesSlotZero := by
  have hw : encode .heapExtract = mkWord 0x12 0 0 := rfl
  refine ⟨decode_of_encode_eq trivial hw, fun s herr => ⟨fun hnil => ?_, fun m rest hcons => ?_⟩⟩
  · exact exec_of_rule herr hw (heapExtractRule_of_nil hnil)
  · exact ⟨_, nodeWord_rdNode _ _, exec_of_rule herr hw (heapExtractRule_of_cons hcons)⟩

/-- Settles O23: the rule's checks in their order; with a non-empty heap both commands read slot 0. -/
theorem heapSlotByCases : Obligations.HeapSlotByCases := by
  intro s k
  have hw : encode (.heapSlot k.toNat) = mkWord 0x17 k 0 :=
    encode_withOperands (c := .heapSlot 0) k 0 nofun (by decide)
  refine ⟨decode_of_encode_eq k.isLt hw, fun herr => ⟨fun h => ?_, fun hk h => ?_, fun m hk h => ?_, fun hne => ?_⟩⟩
  · exact exec_of_rule herr hw (heapSlotRule_param h)
  · exact exec_of_rule herr hw (heapSlotRule_none hk h)
  · exact ⟨_, nodeWord_rdNode _ _, exec_of_rule herr hw (heapSlotRule_ok hk h)⟩
  · obtain ⟨m, rest, hcons⟩ := List.exists_cons_of_ne_nil hne
    have hslot := heapSlotRule_ok (s := s) (k := 0) (m := m) (by decide) (by rw [hcons]; rfl)
    have hpeek := heapPeekRule_of_cons hcons
    rw [exec_of_rule (i := .heapSlot 0) herr rfl hslot, exec_of_rule (i := .heapPeek) herr rfl hpeek]
    rfl

/-- Settles O25: both rules make the same checks, and then answer the node's fields, each placed in bits of its own. -/
theorem nodeReadsByCases : Obligations.NodeReadsByCases := by
  intro s i
  have hinfo : encode (.nodeInfo i.toNat) = mkWord 0x15 i 0 :=
    encode_withOperands (c := .nodeInfo 0) i 0 nofun (by decide)
  have hkids : encode (.nodeKids i.toNat) = mkWord 0x16 i 0 :=
    encode_withOperands (c := .nodeKids 0) i 0 nofun (by decide)
  refine ⟨decode_of_encode_eq i.isLt hinfo, decode_of_encode_eq i.isLt hkids, fun herr => ⟨fun h => ?_, fun hi h => ?_,
    fun n hi h => ?_⟩⟩
  · exact (nodeReadRules_param h).imp (exec_of_rule herr hinfo) (exec_of_rule herr hkids)
  · exact (nodeReadRules_none hi h).imp (exec_of_rule herr hinfo) (exec_of_rule herr hkids)
  · obtain ⟨hinfoRule, hkidsRule⟩ := nodeReadRules_ok hi h
    exact ⟨⟨_, exec_of_rule herr hinfo hinfoRule, nodeInfoWord_fields n⟩,
      ⟨_, exec_of_rule herr hkids hkidsRule, nodeKidsWord_fields n⟩⟩

end Sys2Proof.Machine

/-! Proofs for the family of 41_tree_build.md: the rules of the tree builder's commands case by case, `MERGE` as the sequence
of the heap's commands, and what the loop of `BUILD` keeps of the trees in the heap. -/

namespace Sys2Proof.Machine

section Rules

variable {s : State}

/-! ### `LEAF` (R151) -/

section Leaf

variable {x : Nat} {c : Weight}

theorem leafRule_param (h : 256 < x ∨ c = 0 ∨ s.leafSeen x = true) : leafRule x c s = .fault .param := by
  by_cases hx : symInRange x
  · by_cases hc : c = 0
    · rw [leafRule, if_neg (not_not.mpr hx), if_pos hc]
    · have hseen := (h.resolve_left (Nat.not_lt.mpr hx)).resolve_left hc
      rw [leafRule, if_neg (not_not.mpr hx), if_neg hc, if_pos hseen]
  · exact if_pos hx

/-- The leaf of a symbol not seen yet is made when the node store and the heap have room. -/
theorem leafRule_of_not_seen (hx : x ≤ 256) (hc : c ≠ 0) (hseen : s.leafSeen x = false) :
    leafRule x c s =
      if s.ncount = 513 ∨ s.hsize = 257 then .fault .capacity
      else .ok (rdNode s.nextIdx c)
        ((((s.allocNode (leafNode x c)).setLeafSeen x).heapInsert s.nextIdx).setRoot Config.nil) := by
  rw [leafRule, if_neg (not_not.mpr hx), if_neg hc, hseen, if_neg (by decide)]

end Leaf

/-! ### `MERGE` (R152, R153) -/

theorem heap_ne_nil_of_two (h2 : 2 ≤ s.hsize) : s.heap ≠ [] :=
  List.ne_nil_of_length_pos (Nat.lt_of_lt_of_le Nat.zero_lt_two h2)

/-- One extraction leaves one of two entries. -/
theorem heapExtract_heap_ne_nil (h2 : 2 ≤ s.hsize) : s.heapExtract.heap ≠ [] := by
  apply List.ne_nil_of_length_pos
  rw [heapExtract_heap, length_heapPop]
  exact Nat.sub_pos_of_lt h2

/-- What a merge step takes and what it leaves in the heap. -/
theorem heap_perm_of_two (h2 : 2 ≤ s.hsize) : s.heap.Perm (s.mergeFst :: s.mergeSnd :: s.heapExtract.heapExtract.heap) := by
  have hfst := heapPop_perm s.weightOf s.heap (heap_ne_nil_of_two h2)
  have hsnd := heapPop_perm s.heapExtract.weightOf s.heapExtract.heap (heapExtract_heap_ne_nil h2)
  exact hfst.symm.trans (hsnd.symm.cons s.mergeFst)

/-- A merge step takes two distinct allocated nodes (R152). -/
theorem merge_operands (hh : HeapOk s) (h2 : 2 ≤ s.hsize) :
    s.mergeFst ≠ s.mergeSnd ∧ s.mergeFst.toNat < s.ncount ∧ s.mergeSnd.toNat < s.ncount := by
  have hperm := heap_perm_of_two h2
  obtain ⟨hnotin, -⟩ := List.nodup_cons.mp (hperm.nodup_iff.mp hh.nodup)
  have hlt : ∀ i ∈ s.heap, i.toNat < s.ncount := fun i hi => (hh.owned i hi).1
  exact ⟨fun heq => hnotin (by simp [heq]), hlt _ (hperm.mem_iff.mpr (by simp)), hlt _ (hperm.mem_iff.mpr (by simp))⟩

theorem mergeRule_none (h : s.hsize < 2) : mergeRule s = .none := if_pos h

/-- A merge step weighs its new node as the exact sum of the two it takes. -/
theorem merged_weightOf_nextIdx (h : s.ncount < 1024) : s.merged.weightOf s.nextIdx = BitVec.ofNat 32 s.mergeSum :=
  weightOf_join_new s.heapExtract.heapExtract _ _ h

/-- With two entries `MERGE` ends as its merge step does. -/
theorem mergeRule_of_two (h2 : 2 ≤ s.hsize) :
    mergeRule s =
      if s.ncount = 513 then .fault .capacity
      else if 2 ^ 32 ≤ s.mergeSum then .fault .weightOverflow
      else .ok (rdNode s.nextIdx (s.merged.weightOf s.nextIdx)) (s.merged.setRoot Config.nil) := by
  rw [mergeRule, if_neg (Nat.not_lt.mpr h2), mergeStep_eq]
  split_ifs <;> rfl

/-- Everything `MERGE` has checked and done when it answers `OK` (R152, R153). -/
theorem mergeRule_ok {t : State} {rd : Word} (h : mergeRule s = .ok rd t) :
    2 ≤ s.hsize ∧ s.ncount ≠ 513 ∧ s.mergeSum < 2 ^ 32 ∧ t = s.merged.setRoot Config.nil := by
  by_cases h2 : 2 ≤ s.hsize
  · rw [mergeRule_of_two h2] at h
    split_ifs at h with hn hsum
    cases h
    exact ⟨h2, hn, Nat.not_le.mp hsum, rfl⟩
  · rw [mergeRule_none (Nat.not_le.mp h2)] at h
    cases h

/-- The first of the two minima is not the heavier (R152). -/
theorem weightOf_mergeFst_le (ho : HeapOrdered s.weightOf s.heap) (h2 : 2 ≤ s.hsize) :
    s.weightOf s.mergeFst ≤ s.weightOf s.mergeSnd :=
  heapMin_le s.weightOf s.heap ho _ (mergeSnd_mem h2)

/-! ### `TB.CLEAR` (R155) -/

theorem leafSeen_clearLeafSeen {x : Nat} (hx : x < 257) : s.clearLeafSeen.leafSeen x = false := by
  simp [State.leafSeen, State.clearLeafSeen, hx]

end Rules

/-- Settles O28: the rule's checks in their order. -/
theorem leafByCases : Obligations.LeafByCases := by
  intro s x c
  have hw : encode (.leaf x.toNat c) = mkWord 0x10 x c :=
    encode_withOperands (c := .leaf 0 0) x c nofun c.isLt
  refine ⟨decode_of_encode_eq x.isLt hw, fun herr => ⟨fun h => ?_, fun hx hc hseen => ?_⟩⟩
  · exact exec_of_rule herr hw (leafRule_param h)
  have hrule := leafRule_of_not_seen hx hc hseen
  refine ⟨fun hfull => ?_, fun hn hz => ⟨_, nodeWord_rdNode _ _, ?_⟩⟩
  · exact exec_of_rule herr hw (hrule.trans (if_pos hfull))
  · rw [if_neg (not_or.mpr ⟨hn, hz⟩), leafNode, BitVec.ofNat_toNat] at hrule
    exact exec_of_rule herr hw hrule

/-- Settles O29: with two entries the command ends as its merge step does, checks in their order. -/
theorem mergeByCases : Obligations.MergeByCases := by
  have hw : encode .merge = mkWord 0x20 0 0 := rfl
  refine ⟨decode_of_encode_eq trivial hw, fun s herr => ⟨fun h => ?_, ?_⟩⟩
  · exact exec_of_rule herr hw (mergeRule_none h)
  rintro a b h2 rfl rfl
  have hrule := mergeRule_of_two h2
  refine ⟨fun ho => weightOf_mergeFst_le ho h2, fun hfull => ?_, fun hroom hover => ?_, ?_⟩
  · exact exec_of_rule herr hw (hrule.trans (if_pos hfull))
  · exact exec_of_rule herr hw (hrule.trans ((if_neg hroom).trans (if_pos hover)))
  · rintro wt two hn hsum rfl
    have hmergeSum : s.mergeSum = wt.toNat := hsum
    have hwt : BitVec.ofNat 32 s.mergeSum = wt := by rw [hmergeSum, BitVec.ofNat_toNat, BitVec.setWidth_eq]
    have hfits : ¬ 2 ^ 32 ≤ s.mergeSum := Nat.not_le.mpr (hmergeSum ▸ wt.isLt)
    rw [if_neg hn.ne, if_neg hfits, merged_weightOf_nextIdx (by omega), State.merged, hwt] at hrule
    exact ⟨_, nodeWord_rdNode _ _, exec_of_rule herr hw hrule⟩

/-- Settles O32: the rule checks nothing, and writes the four fields that `TB.CLEAR` names. -/
theorem tbClearEmptiesTreeBuilder : Obligations.TbClearEmptiesTreeBuilder := by
  have hw : encode .tbClear = mkWord 0x23 0 0 := rfl
  refine ⟨decode_of_encode_eq trivial hw, fun s herr => ⟨_, exec_of_rule herr hw rfl, rfl, rfl, rfl, fun x hx => ?_, rfl⟩⟩
  exact leafSeen_clearLeafSeen (s := s) hx

/-! ### `MERGE` as the commands of the heap (R156) -/

section Primitives

variable {s t : State}

/-- A node store is known by its length and its allocated entries. -/
theorem nodes_ext (hn : t.ncount = s.ncount) (h : ∀ i < s.ncount, t.node i = s.node i) : t.nodes = s.nodes := by
  rw [nodes_eq_map_node t, nodes_eq_map_node s, hn]
  exact List.map_congr_left fun i hi => h i (List.mem_range.mp hi)

/-- A change of owner changes no weight, so it may stand before or after an extraction. -/
theorem heapExtract_setOwn (s : State) (i : Nat) (o : Owner) :
    (s.setOwn i o).heapExtract = s.heapExtract.setOwn i o := by
  have hwt : (s.setOwn i o).weightOf = s.weightOf := funext (weightOf_setOwn s i o)
  unfold State.heapExtract
  rw [hwt]
  rfl

/-- A change of owner changes no weight, so it may stand before or after an insertion. -/
theorem heapInsert_setOwn (s : State) (x : NodeIdx) (i : Nat) (o : Owner) :
    (s.setOwn i o).heapInsert x = (s.heapInsert x).setOwn i o := by
  have hwt : (s.setOwn i o).weightOf = s.weightOf := funext (weightOf_setOwn s i o)
  unfold State.heapInsert
  rw [hwt]
  rfl

/-- Two nodes given one owner. -/
theorem node_setOwn_setOwn {a b : Nat} (o : Owner) (ha : a < s.ncount) (hb : b < s.ncount) (i : Nat) :
    ((s.setOwn a o).setOwn b o).node i = if i = a ∨ i = b then (s.node i).withOwn o else s.node i := by
  rw [node_setOwn (s.setOwn a o) b o i (by simpa using hb), node_setOwn s a o i ha]
  by_cases hib : i = b
  · simp only [hib, or_true, if_true]
    split <;> rfl
  · simp only [hib, if_false, or_false]

/-- Detaching two nodes, joining them and giving the new node to the heap leaves what a join owned by the heap leaves. -/
theorem join_detached_setOwn_heap {a b : NodeIdx} (wt : Weight) (ha : a.toNat < s.ncount) (hb : b.toNat < s.ncount) :
    (((s.setOwn a.toNat .detached).setOwn b.toNat .detached).join a b wt .detached).setOwn s.ncount .heap =
      s.join a b wt .heap := by
  set u := (s.setOwn a.toNat .detached).setOwn b.toNat .detached with hu
  have hn : u.ncount = s.ncount := by simp [hu]
  have hnew : s.ncount < (u.join a b wt .detached).ncount := by simp [hn]
  have hnodes : ((u.join a b wt .detached).setOwn s.ncount .heap).nodes = (s.join a b wt .heap).nodes := by
    refine nodes_ext (by simp [hn]) fun i hi => ?_
    rw [join_ncount] at hi
    rw [node_setOwn _ _ _ _ hnew, node_join u _ _ (hn ▸ ha) (hn ▸ hb) i (by omega), hn, hu,
      node_setOwn_setOwn _ ha hb, node_join s _ _ ha hb i (by omega)]
    by_cases hi : i = s.ncount
    · simp only [hi, if_pos]; rfl
    · simp only [hi, if_false]; split <;> rfl
  exact congrArg s.setNodes hnodes

/-- Issuing a well-formed command whose rule answers `OK` to a block that is not faulted (R275). -/
theorem issue_of_rule_ok {i : Instr} {rd : Word} (hi : i.WellFormed) (herr : s.err = 0) (hrule : ruleOf i s = .ok rd t) :
    issue s i = t.respond ⟨.ok, rd⟩ := by
  rw [issue_of_not_faulted hi herr, hrule, complete_ok]

/-- The state that `HEAP.EXTRACT` leaves (R126). -/
def State.takeMin (s : State) : State := (s.heapExtract.setOwn s.heapMin.toNat .detached).setRoot Config.nil

theorem issue_heapExtract (herr : s.err = 0) (hne : s.heap ≠ []) :
    ∃ rd, issue s .heapExtract = s.takeMin.respond ⟨.ok, rd⟩ := by
  obtain ⟨m, rest, hcons⟩ := List.exists_cons_of_ne_nil hne
  have hrule := heapExtractRule_of_cons hcons
  rw [← heapMin_of_cons hcons] at hrule
  exact ⟨_, issue_of_rule_ok trivial herr hrule⟩

theorem issue_nodeJoin {l r : NodeIdx} (herr : s.err = 0) (hlr : l ≠ r) (hl : l.toNat < s.ncount) (hr : r.toNat < s.ncount)
    (hlown : (s.node l.toNat).own = .detached) (hrown : (s.node r.toNat).own = .detached) (hn : s.ncount < 513)
    (hsum : weightSum s l r < 2 ^ 32) :
    ∃ rd, issue s (.nodeJoin l.toNat r.toNat) =
      ((s.join l r (BitVec.ofNat 32 (weightSum s l r)) .detached).setRoot Config.nil).respond ⟨.ok, rd⟩ := by
  have hrule := nodeJoinRule_detached (by omega) (by omega) hlr hl hr hlown hrown
  rw [if_neg hn.ne, if_neg (Nat.not_le.mpr hsum)] at hrule
  exact ⟨_, issue_of_rule_ok ⟨l.isLt, r.isLt⟩ herr hrule⟩

theorem issue_heapInsert {i : NodeIdx} (herr : s.err = 0) (hi : i.toNat ≤ 512) (hn : i.toNat < s.ncount)
    (hown : (s.node i.toNat).own = .detached) (hroom : s.hsize ≠ 257) :
    issue s (.heapInsert i.toNat) = (((s.heapInsert i).setOwn i.toNat .heap).setRoot Config.nil).respond ⟨.ok, 0⟩ :=
  issue_of_rule_ok i.isLt herr ((heapInsertRule_detached hi hn hown).trans (if_neg hroom))

/-- A command that answers `OK` and is refused while faulted found a block that was not (R278). -/
theorem err_of_answer_ok {i : Instr} {rd : Word} (hi : i.runsFaulted = false) (h : exec i s = .next t)
    (hr : t.resps = s.resps ++ [⟨.ok, rd⟩]) : s.err = 0 := by
  cases hf : s.faulted with
  | false => simpa [State.faulted] using hf
  | true =>
    rw [exec_of_faulted i s hf hi] at h
    cases h
    simp [refuse] at hr

/-- The state that two extractions in turn leave (R156). -/
def State.twoTaken (s : State) : State :=
  (s.heapExtract.heapExtract.setOwn s.mergeFst.toNat .detached).setOwn s.mergeSnd.toNat .detached

theorem takeMin_takeMin (s : State) : s.takeMin.takeMin = s.twoTaken.setRoot Config.nil := by
  have hcomm := heapExtract_setOwn s.heapExtract s.mergeFst.toNat .detached
  exact congrArg (fun u : State => ((u.setRoot Config.nil).setOwn s.mergeSnd.toNat .detached).setRoot Config.nil) hcomm

theorem twoTaken_own (hh : HeapOk s) (h2 : 2 ≤ s.hsize) :
    (s.twoTaken.node s.mergeFst.toNat).own = .detached ∧ (s.twoTaken.node s.mergeSnd.toNat).own = .detached := by
  obtain ⟨-, ha, hb⟩ := merge_operands hh h2
  have hnode := node_setOwn_setOwn (s := s.heapExtract.heapExtract) .detached ha hb
  exact ⟨by rw [State.twoTaken, hnode, if_pos (.inl rfl)]; rfl, by rw [State.twoTaken, hnode, if_pos (.inr rfl)]; rfl⟩

theorem ncount_twoTaken (s : State) : s.twoTaken.ncount = s.ncount :=
  (ncount_setOwn _ _ _).trans (ncount_setOwn _ _ _)

theorem weightSum_twoTaken (s : State) : weightSum s.twoTaken s.mergeFst s.mergeSnd = s.mergeSum := by
  unfold weightSum State.twoTaken
  rw [weightOf_setOwn, weightOf_setOwn, weightOf_setOwn, weightOf_setOwn]
  rfl

theorem hsize_twoTaken (s : State) : s.twoTaken.hsize = s.hsize - 2 := by
  show (heapPop _ (heapPop _ s.heap)).length = _
  rw [length_heapPop, length_heapPop, Nat.sub_sub]
  rfl

/-- Joining the two nodes taken and inserting the new one leaves what a merge step leaves. -/
theorem twoTaken_join_heapInsert (hh : HeapOk s) (h2 : 2 ≤ s.hsize) :
    ((s.twoTaken.join s.mergeFst s.mergeSnd (BitVec.ofNat 32 s.mergeSum) .detached).heapInsert s.nextIdx).setOwn
      s.ncount .heap = s.merged := by
  obtain ⟨-, ha, hb⟩ := merge_operands hh h2
  rw [← heapInsert_setOwn]
  exact congrArg (·.heapInsert s.nextIdx)
    (join_detached_setOwn_heap (s := s.heapExtract.heapExtract) (BitVec.ofNat 32 s.mergeSum) ha hb)

/-- `HEAP.EXTRACT` twice, with two entries in the heap. -/
theorem issueAll_extract_extract (herr : s.err = 0) (h2 : 2 ≤ s.hsize) :
    ∃ r₁ r₂, issueAll s [.heapExtract, .heapExtract] = ((s.twoTaken.setRoot Config.nil).respond r₁).respond r₂ := by
  have hne₁ : s.takeMin.heap ≠ [] := heapExtract_heap_ne_nil h2
  obtain ⟨rd₁, h₁⟩ := issue_heapExtract herr (heap_ne_nil_of_two h2)
  obtain ⟨rd₂, h₂⟩ := issue_heapExtract (s := s.takeMin.respond ⟨.ok, rd₁⟩) herr hne₁
  refine ⟨⟨.ok, rd₁⟩, ⟨.ok, rd₂⟩, ?_⟩
  rw [issueAll_cons, h₁, issueAll_cons, h₂, issueAll_nil, ← takeMin_takeMin]
  rfl

/-- `NODE.JOIN` and `HEAP.INSERT` of the node it made. -/
theorem issueAll_join_insert {a b : NodeIdx} (herr : s.err = 0) (hab : a ≠ b) (ha : a.toNat < s.ncount)
    (hb : b.toNat < s.ncount) (haown : (s.node a.toNat).own = .detached) (hbown : (s.node b.toNat).own = .detached)
    (hn : s.ncount < 513) (hsum : weightSum s a b < 2 ^ 32) (hroom : s.hsize ≠ 257) :
    ∃ r₁ r₂, issueAll s [.nodeJoin a.toNat b.toNat, .heapInsert s.ncount] =
      (((((s.join a b (BitVec.ofNat 32 (weightSum s a b)) .detached).heapInsert s.nextIdx).setOwn s.ncount .heap).setRoot
        Config.nil).respond r₁).respond r₂ := by
  obtain ⟨rd, hjoin⟩ := issue_nodeJoin herr hab ha hb haown hbown hn hsum
  set u := ((s.join a b (BitVec.ofNat 32 (weightSum s a b)) .detached).setRoot Config.nil).respond ⟨.ok, rd⟩
  have hi : s.nextIdx.toNat = s.ncount := toNat_nextIdx s (by omega)
  have hun : u.ncount = s.ncount + 1 := join_ncount s _ _
  have hunode : u.node s.ncount = joinNode a b (BitVec.ofNat 32 (weightSum s a b)) .detached :=
    (node_join s _ _ ha hb s.ncount le_rfl).trans (if_pos rfl)
  have hinsert := issue_heapInsert (s := u) (i := s.nextIdx) herr (by omega) (by omega) (by rw [hi, hunode]; rfl) hroom
  rw [hi] at hinsert
  refine ⟨⟨.ok, rd⟩, ⟨.ok, 0⟩, ?_⟩
  rw [issueAll_cons, hjoin, issueAll_cons, hinsert, issueAll_nil]
  rfl

theorem issueAll_primitives (herr : s.err = 0) (hh : HeapOk s) (h2 : 2 ≤ s.hsize) (hz : s.hsize ≤ 257) (hn : s.ncount < 513)
    (hsum : s.mergeSum < 2 ^ 32) :
    ∃ r₁ r₂ r₃ r₄, issueAll s [.heapExtract, .heapExtract, .nodeJoin s.mergeFst.toNat s.mergeSnd.toNat,
      .heapInsert s.ncount] =
        ((((s.merged.setRoot Config.nil).respond r₁).respond r₂).respond r₃).respond r₄ := by
  obtain ⟨hab, ha, hb⟩ := merge_operands hh h2
  obtain ⟨r₁, r₂, htaken⟩ := issueAll_extract_extract herr h2
  set u := ((s.twoTaken.setRoot Config.nil).respond r₁).respond r₂
  have hun : u.ncount = s.ncount := ncount_twoTaken s
  have huz : u.hsize = s.hsize - 2 := hsize_twoTaken s
  have husum : weightSum u s.mergeFst s.mergeSnd = s.mergeSum := weightSum_twoTaken s
  obtain ⟨haown, hbown⟩ := twoTaken_own hh h2
  obtain ⟨r₃, r₄, hmade⟩ := issueAll_join_insert (s := u) herr hab (hun ▸ ha) (hun ▸ hb) haown hbown (hun ▸ hn)
    (husum ▸ hsum) (by omega)
  have hunext : u.nextIdx = s.nextIdx := congrArg (BitVec.ofNat 10) hun
  rw [husum, hun, hunext] at hmade
  refine ⟨r₁, r₂, r₃, r₄, ?_⟩
  rw [← twoTaken_join_heapInsert hh h2]
  calc issueAll s ([.heapExtract, .heapExtract] ++ [.nodeJoin s.mergeFst.toNat s.mergeSnd.toNat, .heapInsert s.ncount])
    _ = issueAll u [.nodeJoin s.mergeFst.toNat s.mergeSnd.toNat, .heapInsert s.ncount] := by
      rw [issueAll_append, htaken]
    _ = _ := hmade

end Primitives

/-- Settles O33: changes of owner pass extractions and insertions by, and the last owner of each node counts. -/
theorem mergeEqualsPrimitives : Obligations.MergeEqualsPrimitives := by
  intro s t rd h hexec hresps
  have herr := err_of_answer_ok rfl hexec hresps
  obtain ⟨u, hrule, rfl⟩ := ruleOf_of_answer_ok hexec hresps
  obtain ⟨h2, hn, hsum, rfl⟩ := mergeRule_ok hrule
  obtain ⟨r₁, r₂, r₃, r₄, hissue⟩ := issueAll_primitives herr h.heap h2 h.hsize_le (h.ncount_le.lt_of_ne hn) hsum
  exact hissue ▸ rfl

section Paths

variable {s t : State} {i j : NodeIdx} {p q : List Bool} {x : Nat}

/-! ### Paths in a tree, step by step (42_codeword_table.md R170) -/

/-- The child that a path's step leads to: 0 = left, 1 = right. -/
def State.kid (s : State) (i : NodeIdx) (b : Bool) : NodeIdx :=
  if b then (s.node i.toNat).right else (s.node i.toNat).left

theorem treePath_nil_iff : TreePath s i [] j ↔ i = j := by
  refine ⟨fun h => ?_, fun h => h ▸ .here i⟩
  cases h
  rfl

theorem treePath_cons_iff {b : Bool} :
    TreePath s i (b :: p) j ↔ (s.node i.toNat).kind = .internal ∧ TreePath s (s.kid i b) p j := by
  constructor
  · intro h
    cases h with
    | left hk hp => exact ⟨hk, hp⟩
    | right hk hp => exact ⟨hk, hp⟩
  · rintro ⟨hk, hp⟩
    cases b with
    | false => exact .left hk hp
    | true => exact .right hk hp

theorem treePath_append_iff : TreePath s i (p ++ q) j ↔ ∃ k, TreePath s i p k ∧ TreePath s k q j := by
  induction p generalizing i with
  | nil => simp [treePath_nil_iff]
  | cons b p ih => simp only [List.cons_append, treePath_cons_iff, ih, and_assoc, exists_and_left]

theorem treePath_concat_iff {b : Bool} :
    TreePath s i (p ++ [b]) j ↔ ∃ k, TreePath s i p k ∧ (s.node k.toNat).kind = .internal ∧ s.kid k b = j := by
  simp only [treePath_append_iff, treePath_cons_iff, treePath_nil_iff]

theorem leafAt_nil_iff : LeafAt s i [] x ↔ (s.node i.toNat).kind = .leaf ∧ (s.node i.toNat).sym.toNat = x := by
  simp [LeafAt, treePath_nil_iff]

theorem leafAt_cons_iff {b : Bool} :
    LeafAt s i (b :: p) x ↔ (s.node i.toNat).kind = .internal ∧ LeafAt s (s.kid i b) p x := by
  simp only [LeafAt, treePath_cons_iff, and_assoc, exists_and_left]

/-! ### Paths in a tree that meets its invariant (R43) -/

/-- Children come before their parent (R43). -/
theorem kid_lt (ht : TreeOk s) (hi : i.toNat < s.ncount) (hk : (s.node i.toNat).kind = .internal) (b : Bool) :
    (s.kid i b).toNat < i.toNat := by
  obtain ⟨-, hleft, hright, -⟩ := ht.internal _ hi hk
  cases b with
  | false => exact hleft
  | true => exact hright

/-- Each step of a path goes down in the node store. -/
theorem treePath_length_le (ht : TreeOk s) (hi : i.toNat < s.ncount) (h : TreePath s i p j) :
    j.toNat + p.length ≤ i.toNat := by
  induction p generalizing i with
  | nil => rw [treePath_nil_iff.mp h, List.length_nil, Nat.add_zero]
  | cons b p ih =>
    obtain ⟨hk, hp⟩ := treePath_cons_iff.mp h
    have hlt := kid_lt ht hi hk b
    have hle := ih (by omega) hp
    rw [List.length_cons]
    omega

/-- A node is a child of one parent, and on one side of it (R26, R43). -/
theorem kid_injective (ht : TreeOk s) {k l : NodeIdx} {b c : Bool} (hk : k.toNat < s.ncount) (hl : l.toNat < s.ncount)
    (hkint : (s.node k.toNat).kind = .internal) (hlint : (s.node l.toNat).kind = .internal) (h : s.kid k b = s.kid l c) :
    k = l ∧ b = c := by
  have hkid : ∀ m d, s.isKid m.toNat (s.kid m d).toNat := fun m d => by
    cases d with
    | false => exact .inl rfl
    | true => exact .inr rfl
  have hlt := kid_lt ht hk hkint b
  obtain rfl : k = l := BitVec.eq_of_toNat_eq
    (ht.oneParent _ hk _ hl hkint hlint _ (hlt.trans hk) (hkid k b) (h ▸ hkid l c))
  obtain ⟨-, -, -, hne, -⟩ := ht.internal _ hk hkint
  refine ⟨rfl, ?_⟩
  cases b <;> cases c
  · rfl
  · exact absurd h hne
  · exact absurd h.symm hne
  · rfl

/-- One path at most leads from a node to another: read from its end, since every node has one parent. -/
theorem treePath_unique (ht : TreeOk s) (hi : i.toNat < s.ncount) (hp : TreePath s i p j) (hq : TreePath s i q j) :
    p = q := by
  induction p using List.reverseRecOn generalizing j q with
  | nil =>
    have hle := treePath_length_le ht hi hq
    rw [← treePath_nil_iff.mp hp] at hle
    exact (List.eq_nil_of_length_eq_zero (by omega)).symm
  | append_singleton p b ih =>
    rcases List.eq_nil_or_concat q with rfl | ⟨q, c, rfl⟩
    · have hle := treePath_length_le ht hi hp
      rw [← treePath_nil_iff.mp hq, List.length_append, List.length_singleton] at hle
      omega
    · obtain ⟨k, hpk, hkint, rfl⟩ := treePath_concat_iff.mp hp
      obtain ⟨l, hql, hlint, hkid⟩ := treePath_concat_iff.mp (by simpa using hq)
      have hk := treePath_length_le ht hi hpk
      have hl := treePath_length_le ht hi hql
      obtain ⟨rfl, rfl⟩ := kid_injective ht (by omega) (by omega) hkint hlint hkid.symm
      rw [ih hpk hql, List.concat_eq_append]

/-- A tree has one leaf of a symbol at most, at the end of one path (R29, R43). -/
theorem leafAt_unique (ht : TreeOk s) (hi : i.toNat < s.ncount) (hp : LeafAt s i p x) (hq : LeafAt s i q x) : p = q := by
  obtain ⟨j, hpj, hjleaf, hjsym⟩ := hp
  obtain ⟨k, hqk, hkleaf, hksym⟩ := hq
  have hj := treePath_length_le ht hi hpj
  have hk := treePath_length_le ht hi hqk
  obtain rfl : j = k := BitVec.eq_of_toNat_eq
    (ht.leafOnce _ (by omega) _ (by omega) hjleaf hkleaf (BitVec.eq_of_toNat_eq (hjsym.trans hksym.symm)))
  exact treePath_unique ht hi hpj hqk

/-! ### The leaves under a node -/

/-- The tree under node `i` has a leaf of symbol `x`. -/
def State.HasLeaf (s : State) (i : NodeIdx) (x : Nat) : Prop := ∃ p, LeafAt s i p x

/-- The leaves under an internal node are those under its children. -/
theorem hasLeaf_internal_iff (hk : (s.node i.toNat).kind = .internal) :
    s.HasLeaf i x ↔ s.HasLeaf (s.node i.toNat).left x ∨ s.HasLeaf (s.node i.toNat).right x := by
  constructor
  · rintro ⟨p, hp⟩
    cases p with
    | nil => rw [leafAt_nil_iff, hk] at hp; cases hp.1
    | cons b p =>
      obtain ⟨-, hp⟩ := leafAt_cons_iff.mp hp
      cases b with
      | false => exact .inl ⟨p, hp⟩
      | true => exact .inr ⟨p, hp⟩
  · rintro (⟨p, hp⟩ | ⟨p, hp⟩)
    · exact ⟨false :: p, leafAt_cons_iff.mpr ⟨hk, hp⟩⟩
    · exact ⟨true :: p, leafAt_cons_iff.mpr ⟨hk, hp⟩⟩

/-- A command that keeps the nodes keeps the trees: no field but `own` changes (R24). -/
theorem leafAt_iff_of_nodesKept {c : Instr} (ht : TreeOk s) (hkept : NodesKept c s t) (hi : i.toNat < s.ncount) :
    LeafAt t i p x ↔ LeafAt s i p x := by
  induction p generalizing i with
  | nil =>
    obtain ⟨-, o, hnode, -⟩ := hkept _ hi
    rw [leafAt_nil_iff, leafAt_nil_iff, hnode, withOwn_kind, withOwn_sym]
  | cons b p ih =>
    obtain ⟨-, o, hnode, -⟩ := hkept _ hi
    have hkid : t.kid i b = s.kid i b := by unfold State.kid; rw [hnode]; rfl
    rw [leafAt_cons_iff, leafAt_cons_iff, hnode, withOwn_kind, hkid]
    exact and_congr_right fun hk => ih ((kid_lt ht hi hk b).trans hi)

theorem hasLeaf_iff_of_nodesKept {c : Instr} (ht : TreeOk s) (hkept : NodesKept c s t) (hi : i.toNat < s.ncount) :
    t.HasLeaf i x ↔ s.HasLeaf i x :=
  exists_congr fun _ => leafAt_iff_of_nodesKept ht hkept hi

end Paths

section Build

variable {s t : State} {x : Nat}

/-! ### One merge step (R152, R157) -/

/-- A merge step puts its new node beside what it left. -/
theorem merged_heap_perm (s : State) : s.merged.heap.Perm (s.nextIdx :: s.heapExtract.heapExtract.heap) :=
  heapPush_perm _ _ _

theorem merged_weightOf {i : NodeIdx} (hi : i.toNat < s.ncount) : s.merged.weightOf i = s.weightOf i :=
  weightOf_join s.heapExtract.heapExtract _ _ i hi

theorem merged_node_nextIdx (hh : HeapOk s) (h2 : 2 ≤ s.hsize) (hn : s.ncount < 513) :
    s.merged.node s.nextIdx.toNat = joinNode s.mergeFst s.mergeSnd (BitVec.ofNat 32 s.mergeSum) .heap := by
  obtain ⟨-, ha, hb⟩ := merge_operands hh h2
  rw [toNat_nextIdx s (by omega)]
  exact (node_join s.heapExtract.heapExtract _ _ ha hb s.ncount le_rfl).trans (if_pos rfl)

/-- The entries that a merge step leaves in the heap are allocated. -/
theorem lt_ncount_of_mem_rest (hh : HeapOk s) (h2 : 2 ≤ s.hsize) {i : NodeIdx}
    (hi : i ∈ s.heapExtract.heapExtract.heap) : i.toNat < s.ncount :=
  (hh.owned i ((heap_perm_of_two h2).mem_iff.mpr (List.mem_cons_of_mem _ (List.mem_cons_of_mem _ hi)))).1

theorem totalWeight_cons (s : State) (i : NodeIdx) (l : List NodeIdx) :
    totalWeight s (i :: l) = (s.weightOf i).toNat + totalWeight s l := rfl

theorem totalWeight_perm {l l' : List NodeIdx} (h : l.Perm l') : totalWeight s l = totalWeight s l' :=
  (h.map _).sum_nat

theorem totalWeight_congr {l : List NodeIdx} (h : ∀ i ∈ l, t.weightOf i = s.weightOf i) :
    totalWeight t l = totalWeight s l :=
  congrArg List.sum (List.map_congr_left fun i hi => congrArg BitVec.toNat (h i hi))

/-- The heap weighs what a merge step takes and what it leaves. -/
theorem totalWeight_of_two (h2 : 2 ≤ s.hsize) :
    totalWeight s s.heap = s.mergeSum + totalWeight s s.heapExtract.heapExtract.heap := by
  rw [totalWeight_perm (heap_perm_of_two h2), totalWeight_cons, totalWeight_cons, ← Nat.add_assoc]
  rfl

/-- A merge step keeps the weight of the heap (R157). -/
theorem merged_totalWeight (hh : HeapOk s) (h2 : 2 ≤ s.hsize) (hn : s.ncount < 513) (hsum : s.mergeSum < 2 ^ 32) :
    totalWeight s.merged s.merged.heap = totalWeight s s.heap := by
  rw [totalWeight_perm (merged_heap_perm s), totalWeight_cons, merged_weightOf_nextIdx (by omega), BitVec.toNat_ofNat,
    Nat.mod_eq_of_lt hsum, totalWeight_congr fun i hi => merged_weightOf (lt_ncount_of_mem_rest hh h2 hi),
    totalWeight_of_two h2]

/-- A tree in the heap has a leaf of symbol `x`. -/
def State.HeapHasLeaf (s : State) (x : Nat) : Prop := ∃ i ∈ s.heap, s.HasLeaf i x

/-- A merge step keeps the leaves of the trees in the heap (R157). -/
theorem merged_heapHasLeaf_iff (hh : HeapOk s) (ht : TreeOk s) (h2 : 2 ≤ s.hsize) (hn : s.ncount < 513) :
    s.merged.HeapHasLeaf x ↔ s.HeapHasLeaf x := by
  obtain ⟨-, ha, hb⟩ := merge_operands hh h2
  have hold : ∀ i : NodeIdx, i.toNat < s.ncount → (s.merged.HasLeaf i x ↔ s.HasLeaf i x) := fun i hi =>
    hasLeaf_iff_of_nodesKept ht (nodesKept_merged (.inr rfl) hh h2) hi
  have hnode := merged_node_nextIdx hh h2 hn
  have hnew : s.merged.HasLeaf s.nextIdx x ↔ s.HasLeaf s.mergeFst x ∨ s.HasLeaf s.mergeSnd x := by
    rw [hasLeaf_internal_iff (by rw [hnode]; rfl), hnode, ← hold _ ha, ← hold _ hb]
    rfl
  have hrest : (∃ i ∈ s.heapExtract.heapExtract.heap, s.merged.HasLeaf i x) ↔
      ∃ i ∈ s.heapExtract.heapExtract.heap, s.HasLeaf i x :=
    exists_congr fun i => and_congr_right fun hi => hold i (lt_ncount_of_mem_rest hh h2 hi)
  simp only [State.HeapHasLeaf, (merged_heap_perm s).mem_iff, (heap_perm_of_two h2).mem_iff, List.exists_mem_cons_iff, hnew,
    hrest, or_assoc]

/-! ### The loop of `BUILD` (R154, R158) -/

/-- What the loop of `BUILD`, begun in `s`, has kept when it stands in `t` (R157). -/
structure Joined (s t : State) : Prop where
  heap   : HeapOk t
  tree   : TreeOk t
  weight : totalWeight t t.heap = totalWeight s s.heap
  count  : t.ncount + t.hsize = s.ncount + s.hsize
  leaves : ∀ x, t.HeapHasLeaf x ↔ s.HeapHasLeaf x

theorem Joined.refl (hh : HeapOk s) (ht : TreeOk s) : Joined s s := ⟨hh, ht, rfl, rfl, fun _ => Iff.rfl⟩

theorem Joined.merged (h : Joined s t) (h2 : 2 ≤ t.hsize) (hsum : t.mergeSum < 2 ^ 32) : Joined s t.merged := by
  have hn := ncount_lt_of_two_entries h.heap h.tree h2
  obtain ⟨hh, ht⟩ := merged_ok hn h.heap h.tree h2 hsum
  refine ⟨hh, ht, (merged_totalWeight h.heap h2 hn hsum).trans h.weight, ?_, fun x => ?_⟩
  · rw [merged_ncount, merged_hsize h2, ← h.count]
    omega
  · exact (merged_heapHasLeaf_iff h.heap h.tree h2 hn).trans (h.leaves x)

theorem mergeLoop_joined {fuel : Nat} (hh : HeapOk s) (ht : TreeOk s) (h : mergeLoop fuel s = .ok t) : Joined s t :=
  mergeLoop_keeps (P := Joined s) fuel (fun _ hu h2 _ hsum => hu.merged h2 hsum) (.refl hh ht) h

theorem mergeLoop_of_hsize_le_one (fuel : Nat) (h : s.hsize ≤ 1) : mergeLoop fuel s = .ok s := by
  cases fuel with
  | zero => rfl
  | succ fuel => exact if_neg (Nat.not_lt.mpr h)

/-- With two entries the loop takes a merge step, or raises its fault. -/
theorem mergeLoop_succ_of_two (fuel : Nat) (hh : HeapOk s) (ht : TreeOk s) (h2 : 2 ≤ s.hsize) :
    mergeLoop (fuel + 1) s = if 2 ^ 32 ≤ s.mergeSum then .error .weightOverflow else mergeLoop fuel s.merged := by
  rw [mergeLoop, if_pos (show s.hsize > 1 from h2), mergeStep_eq, if_neg (ncount_lt_of_two_entries hh ht h2).ne]
  by_cases hsum : 2 ^ 32 ≤ s.mergeSum
  · rw [if_pos hsum, if_pos hsum]
  · rw [if_neg hsum, if_neg hsum]

/-- How the loop ends: it overflows on a heap of `2^32` or more, or leaves one entry (R158). -/
theorem mergeLoop_outcome (fuel : Nat) (hh : HeapOk s) (ht : TreeOk s) (hpos : 1 ≤ s.hsize) (hfuel : s.hsize ≤ fuel + 1) :
    (mergeLoop fuel s = .error .weightOverflow ∧ 2 ^ 32 ≤ totalWeight s s.heap) ∨
    ∃ t, mergeLoop fuel s = .ok t ∧ t.hsize = 1 := by
  induction fuel generalizing s with
  | zero => exact .inr ⟨s, rfl, by omega⟩
  | succ fuel ih =>
    by_cases h2 : 2 ≤ s.hsize
    · have hn := ncount_lt_of_two_entries hh ht h2
      rw [mergeLoop_succ_of_two fuel hh ht h2]
      by_cases hsum : 2 ^ 32 ≤ s.mergeSum
      · rw [if_pos hsum, totalWeight_of_two h2]
        exact .inl ⟨rfl, hsum.trans (Nat.le_add_right _ _)⟩
      · have hsum' := Nat.not_le.mp hsum
        obtain ⟨hh', ht'⟩ := merged_ok hn hh ht h2 hsum'
        have hz := merged_hsize h2
        rw [if_neg hsum, ← merged_totalWeight hh h2 hn hsum']
        exact ih hh' ht' (by omega) (by omega)
    · exact .inr ⟨s, mergeLoop_of_hsize_le_one _ (by omega), by omega⟩

/-! ### `BUILD` (R154) -/

/-- The state that `BUILD` leaves when its loop has left the one entry `r`. -/
def State.rootAt (t : State) (r : NodeIdx) : State := ((t.setHeap []).setOwn r.toNat .detached).setRoot r

theorem weightOf_rootAt (t : State) (r i : NodeIdx) : (t.rootAt r).weightOf i = t.weightOf i :=
  weightOf_setOwn (t.setHeap []) r.toNat .detached i

theorem ncount_rootAt (t : State) (r : NodeIdx) : (t.rootAt r).ncount = t.ncount :=
  ncount_setOwn (t.setHeap []) r.toNat .detached

theorem own_rootAt {r : NodeIdx} (hr : r.toNat < t.ncount) : ((t.rootAt r).node r.toNat).own = .detached :=
  congrArg Node.own ((node_setOwn (t.setHeap []) r.toNat .detached r.toNat hr).trans (if_pos rfl))

/-- Making a root of a heap entry changes its owner only (R26). -/
theorem nodesKept_rootAt {r : NodeIdx} (hr : r.toNat < t.ncount) (hown : (t.node r.toNat).own = .heap) :
    NodesKept .build t (t.rootAt r) :=
  (nodesKept_setOwn hr (by rw [hown]; exact .extract (.inr rfl))).congr rfl

theorem buildRule_of_nil (h : s.heap = []) : buildRule s = .none := if_pos (by simp [State.hsize, h])

theorem buildRule_of_error {c : FaultCode} (hpos : 1 ≤ s.hsize) (h : mergeLoop s.hsize s = .error c) :
    buildRule s = .fault c := by
  rw [buildRule, if_neg (Nat.ne_of_gt hpos), h]

/-- The loop leaves one entry, which becomes the root. -/
theorem buildRule_of_ok {r : NodeIdx} (hpos : 1 ≤ s.hsize) (h : mergeLoop s.hsize s = .ok t) (hr : t.heap = [r]) :
    buildRule s = .ok (rdNode r (t.weightOf r)) (t.rootAt r) := by
  have hextract : t.heapExtract = t.setHeap [] := by
    unfold State.heapExtract
    rw [List.eq_nil_of_length_eq_zero ((length_heapPop _ t.heap).trans (by rw [hr]; rfl))]
  rw [buildRule, if_neg (Nat.ne_of_gt hpos), h]
  dsimp only
  rw [heapMin_of_cons hr, hextract]
  rfl

/-- Everything `BUILD` can answer to a heap that is not empty: it overflows on a heap of `2^32` or more, or makes a root of
the one entry that its loop leaves (R154, R158). -/
theorem buildRule_outcome (hh : HeapOk s) (ht : TreeOk s) (hpos : 1 ≤ s.hsize) :
    (buildRule s = .fault .weightOverflow ∧ 2 ^ 32 ≤ totalWeight s s.heap) ∨
    ∃ t r, buildRule s = .ok (rdNode r (t.weightOf r)) (t.rootAt r) ∧ t.heap = [r] ∧ Joined s t := by
  rcases mergeLoop_outcome s.hsize hh ht hpos (Nat.le_succ _) with ⟨herror, hheavy⟩ | ⟨t, hok, hone⟩
  · exact .inl ⟨buildRule_of_error hpos herror, hheavy⟩
  · obtain ⟨r, hr⟩ := List.length_eq_one_iff.mp hone
    exact .inr ⟨t, r, buildRule_of_ok hpos hok hr, hr, mergeLoop_joined hh ht hok⟩

/-- The one entry left weighs what the heap weighed (R157). -/
theorem Joined.weightOf_root {r : NodeIdx} (h : Joined s t) (hr : t.heap = [r]) :
    (t.weightOf r).toNat = totalWeight s s.heap := by
  rw [← h.weight, hr]
  rfl

/-- A `BUILD` that answers `OK` has made a root of the one entry that its loop left. -/
theorem buildRule_ok {u : State} {rd : Word} (hh : HeapOk s) (ht : TreeOk s) (h : buildRule s = .ok rd u) :
    ∃ t r, u = t.rootAt r ∧ t.heap = [r] ∧ Joined s t := by
  have hpos : 1 ≤ s.hsize := by
    by_contra hzero
    rw [buildRule_of_nil (List.eq_nil_of_length_eq_zero (by unfold State.hsize at hzero; omega))] at h
    cases h
  rcases buildRule_outcome hh ht hpos with ⟨hfault, -⟩ | ⟨t, r, hok, hr, hjoined⟩
  · rw [hfault] at h; cases h
  · rw [hok] at h; cases h
    exact ⟨t, r, rfl, hr, hjoined⟩

/-- The leaves under the root are those of the trees that were in the heap (R157). -/
theorem Joined.hasLeaf_root_iff {u : State} {r : NodeIdx} (h : Joined s t) (hr : t.heap = [r])
    (hu : u.nodes = (t.rootAt r).nodes) : u.HasLeaf r x ↔ s.HeapHasLeaf x := by
  obtain ⟨hlt, hown⟩ := h.heap.owned r (by simp [hr])
  rw [hasLeaf_iff_of_nodesKept h.tree ((nodesKept_rootAt hlt hown).congr hu) hlt, ← h.leaves x]
  simp [State.HeapHasLeaf, hr]

/-- A change of the tree builder that keeps `leafseen`, and a response: what else of the state is as it was (R20). -/
theorem respond_eq_of_rest_eq (r : Response) (hrest : t.rest = s.rest) (hseen : t.leafseen = s.leafseen) :
    t.respond r = { s with nodes := t.nodes, heap := t.heap, root := t.root, resps := (t.respond r).resps } := by
  cases s
  cases t
  simp_all [State.rest, State.respond]

end Build

/-- Settles O30: the loop keeps the weight of the heap, and one weight is less than `2^32`. -/
theorem buildOutcomes : Obligations.BuildOutcomes := by
  have hw : encode .build = mkWord 0x21 0 0 := rfl
  refine ⟨decode_of_encode_eq trivial hw, fun s h herr => ⟨fun hnil => ?_, fun r hr => ?_, fun h2 hheavy => ?_,
    fun h2 hlight => ?_⟩⟩
  · exact exec_of_rule herr hw (buildRule_of_nil hnil)
  · have hone : s.hsize = 1 := congrArg List.length hr
    have hloop := mergeLoop_of_hsize_le_one s.hsize hone.le
    exact ⟨_, nodeWord_rdNode _ _, exec_of_rule herr hw (buildRule_of_ok hone.ge hloop hr)⟩
  · rcases buildRule_outcome h.heap h.tree (by omega) with ⟨hfault, -⟩ | ⟨t, r, -, hr, hjoined⟩
    · exact exec_of_rule herr hw hfault
    · exact absurd hheavy (Nat.not_le.mpr (hjoined.weightOf_root hr ▸ (t.weightOf r).isLt))
  · rcases buildRule_outcome h.heap h.tree (by omega) with ⟨-, hheavy⟩ | ⟨t, r, hok, -, -⟩
    · exact absurd hheavy (Nat.not_le.mpr hlight)
    · refine ⟨t.rootAt r, _, exec_of_rule herr hw hok, ?_, rfl⟩
      exact weightOf_rootAt t r r ▸ nodeWord_rdNode _ _

/-- Settles O31: each merge step keeps the weight and the leaves of the heap, and the last entry becomes the root. -/
theorem buildJoinsTheHeap : Obligations.BuildJoinsTheHeap := by
  intro s t rd h hexec hresps
  have ht := (exec_keeps_inv h hexec).tree
  obtain ⟨u, hrule, rfl⟩ := ruleOf_of_answer_ok hexec hresps
  have hrest := buildRule_rest hrule
  have hseen := ruleOf_keeps_leafseen (i := .build) hrule nofun rfl
  obtain ⟨v, r, rfl, hr, hjoined⟩ := buildRule_ok h.heap h.tree hrule
  have hlt : r.toNat < v.ncount := (hjoined.heap.owned r (by simp [hr])).1
  have hltRoot : r.toNat < (v.rootAt r).ncount := hlt.trans_eq (ncount_rootAt v r).symm
  refine ⟨hltRoot, own_rootAt hlt, ?_, ?_, fun x => hjoined.hasLeaf_root_iff hr rfl, fun x p q => leafAt_unique ht hltRoot,
    respond_eq_of_rest_eq _ hrest hseen⟩
  · exact (congrArg BitVec.toNat (weightOf_rootAt v r r)).trans (hjoined.weightOf_root hr)
  · have hone : v.hsize = 1 := congrArg List.length hr
    rw [← hjoined.count, hone]
    exact congrArg (· + 1) (ncount_rootAt v r)

end Sys2Proof.Machine

/-! Proofs for the family of 42_codeword_table.md: the rules of the table's ports case by case, what the visit of `ASSIGN`
writes for the subtree it is given, and what that makes of the table. -/

namespace Sys2Proof.Machine

section Ports

variable {s : State} {x j : Nat} {b : Bool}

theorem symInRange_of_ctValid (hv : s.ctValid x = true) : symInRange x := Nat.le_of_lt_succ (ctValid_lt s hv)

/-! ### The write port (R175, R176) -/

theorem tblDefineRule_param (h : 256 < x) : tblDefineRule x s = .fault .param := if_pos (Nat.not_le.mpr h)

theorem tblDefineRule_formatError (hv : s.ctValid x = true) : tblDefineRule x s = .fault .formatError := by
  rw [tblDefineRule, if_neg (not_not.mpr (symInRange_of_ctValid hv)), if_pos hv]

theorem tblDefineRule_ok (hx : x ≤ 256) (hv : s.ctValid x = false) :
    tblDefineRule x s = .ok 0 (s.setEntry x ⟨true, 0, 0⟩) := by
  rw [tblDefineRule, if_neg (not_not.mpr hx), hv, if_neg (by decide)]

/-- The length of a codeword is 256 when its field says so (R32, R33). -/
theorem len_eq_lMax_iff : (s.entry x).len = BitVec.ofNat 9 Config.lMax ↔ (s.codeOf x).length = 256 := by
  rw [State.codeOf, length_bits, ← BitVec.toNat_inj]
  rfl

theorem tblAppendRule_param (h : 256 < x) : tblAppendRule x b s = .fault .param := if_pos (Nat.not_le.mpr h)

theorem tblAppendRule_sequence (hx : x ≤ 256) (hv : s.ctValid x = false) : tblAppendRule x b s = .fault .sequence := by
  rw [tblAppendRule, if_neg (not_not.mpr hx), if_pos hv]

/-- A bit for a symbol with an entry joins its codeword when there is room for it. -/
theorem tblAppendRule_of_valid (hv : s.ctValid x = true) :
    tblAppendRule x b s =
      if (s.codeOf x).length = 256 then .fault .capacity else .ok 0 (s.setEntry x ((s.entry x).append b)) := by
  rw [tblAppendRule, if_neg (not_not.mpr (symInRange_of_ctValid hv)), hv, if_neg (by decide)]
  simp only [len_eq_lMax_iff]

/-- Appending a bit keeps the table canonical (R32). -/
theorem memory_wf_append (h : Memory.wf s = true) (hv : s.ctValid x = true) (hroom : (s.codeOf x).length ≠ 256) :
    Memory.wf (s.setEntry x ((s.entry x).append b)) = true := by
  obtain ⟨-, -, hentries⟩ := (memory_wf_iff s).mp h
  exact memory_wf_setEntry x _ (CtEntry.append_wf _ b (hentries x) hv (mt len_eq_lMax_iff.mp hroom)) h

/-! ### The read port (R177, R178) -/

theorem tableReadRules_param (h : 256 < x) : tblLenRule x s = .fault .param ∧ tblBitRule x j s = .fault .param :=
  ⟨if_pos (Nat.not_le.mpr h), if_pos (Nat.not_le.mpr h)⟩

theorem tblLenRule_none (hx : x ≤ 256) (hv : s.ctValid x = false) : tblLenRule x s = .none := by
  rw [tblLenRule, if_neg (not_not.mpr hx), if_pos hv]

theorem tblLenRule_ok (hv : s.ctValid x = true) :
    tblLenRule x s = .ok (place (s.entry x).len 0 ||| place 1#1 16) s := by
  rw [tblLenRule, if_neg (not_not.mpr (symInRange_of_ctValid hv)), hv, if_neg (by decide)]

/-- Every bit of the data word of `TBL.LEN`. -/
theorem tblLenWord_fields (len : BitVec 9) :
    (place len 0 ||| place 1#1 16).extractLsb' 0 9 = len ∧ (place len 0 ||| place 1#1 16).getLsbD 16 = true ∧
      (place len 0 ||| place 1#1 16).extractLsb' 9 7 = 0 ∧ (place len 0 ||| place 1#1 16).extractLsb' 17 47 = 0 := by
  simp (disch := decide) [BitVec.extractLsb'_or, extractLsb'_place_self, extractLsb'_place_of_disjoint]

theorem tblBitRule_none (hx : x ≤ 256) (h : s.ctValid x = false ∨ (s.codeOf x).length ≤ j) :
    tblBitRule x j s = .none := by
  rw [State.codeOf, length_bits] at h
  rw [tblBitRule, if_neg (not_not.mpr hx), if_pos h]

theorem tblBitRule_ok (hv : s.ctValid x = true) (h : (s.codeOf x)[j]? = some b) :
    tblBitRule x j s = .ok (if b then 1 else 0) s := by
  obtain ⟨hj, rfl⟩ := List.getElem?_eq_some_iff.mp h
  have hin : ¬ (s.ctValid x = false ∨ j ≥ (s.entry x).len.toNat) := by
    rw [State.codeOf, length_bits] at hj
    simp [hv, hj]
  rw [tblBitRule, if_neg (not_not.mpr (symInRange_of_ctValid hv)), if_neg hin]
  simp only [State.codeOf, CtEntry.bits, List.getElem_map, List.getElem_range]
  cases (s.entry x).code.getLsbD j <;> rfl

end Ports

/-- Settles O41: the rule's checks in their order; where they pass, the bit joins the codeword. -/
theorem tblAppendByCases : Obligations.TblAppendByCases := by
  intro s x b
  have hw : encode (.tblAppend x.toNat b) = mkWord 0x32 x ((BitVec.ofBool b).setWidth 32) := by
    rw [encode, BitVec.ofNat_toNat, BitVec.setWidth_eq]
  refine ⟨decode_of_encode_eq x.isLt hw, fun hwf herr => ⟨fun h => ?_, fun hx hv => ?_, fun hv hfull => ?_,
    fun hv hroom => ?_⟩⟩
  · exact exec_of_rule herr hw (tblAppendRule_param h)
  · exact exec_of_rule herr hw (tblAppendRule_sequence hx hv)
  · exact exec_of_rule herr hw ((tblAppendRule_of_valid hv).trans (if_pos hfull))
  · have hrule := (tblAppendRule_of_valid (b := b) hv).trans (if_neg hroom.ne)
    have hbits := CtEntry.bits_append (s.entry x.toNat) b (by rwa [← length_bits])
    obtain ⟨-, hvalid, hcode, hothers⟩ := hasCodeword_setEntry (e := (s.entry x.toNat).append b) ⟨.ok, 0⟩
      (ctValid_lt s hv) hv herr fun _ _ => rfl
    exact ⟨_, exec_of_rule herr hw hrule, rfl, memory_wf_append hwf hv hroom.ne, hvalid, hcode.trans hbits, hothers⟩

/-- Settles O39: the rule checks nothing, and empties every entry. -/
theorem tblClearEmptiesTable : Obligations.TblClearEmptiesTable := by
  have hw : encode .tblClear = mkWord 0x30 0 0 := rfl
  exact ⟨decode_of_encode_eq trivial hw, fun s herr =>
    ⟨_, exec_of_rule herr hw rfl, fun x _ => entry_clearTable s x, rfl⟩⟩

/-- Settles O40: the rule's checks in their order. -/
theorem tblDefineByCases : Obligations.TblDefineByCases := by
  intro s x
  have hw : encode (.tblDefine x.toNat) = mkWord 0x31 x 0 :=
    encode_withOperands (c := .tblDefine 0) x 0 nofun (by decide)
  refine ⟨decode_of_encode_eq x.isLt hw, fun herr => ⟨fun h => ?_, fun hv => ?_, fun hx hv => ?_⟩⟩
  · exact exec_of_rule herr hw (tblDefineRule_param h)
  · exact exec_of_rule herr hw (tblDefineRule_formatError hv)
  · exact ⟨_, exec_of_rule herr hw (tblDefineRule_ok hx hv), rfl, entry_setEntry_self s _ _ (Nat.lt_succ_of_le hx),
      fun _ => entry_setEntry_ne s _ _⟩

/-- Settles O42: both rules make the same checks, and then answer a field of the entry. -/
theorem tableReadsByCases : Obligations.TableReadsByCases := by
  intro s x j
  have hlen : encode (.tblLen x.toNat) = mkWord 0x33 x 0 :=
    encode_withOperands (c := .tblLen 0) x 0 nofun (by decide)
  have hbit : encode (.tblBit x.toNat j.toNat) = mkWord 0x34 x (j.setWidth 32) := by
    simp only [encode, BitVec.ofNat_toNat, BitVec.setWidth_eq]
  refine ⟨decode_of_encode_eq x.isLt hlen, decode_of_encode_eq ⟨x.isLt, j.isLt⟩ hbit, fun herr => ⟨fun h => ?_,
    fun hx hv => ?_, fun hx h => ?_, fun hv => ?_, fun b hv h => ?_⟩⟩
  · exact tableReadRules_param h |>.imp (exec_of_rule herr hlen) (exec_of_rule herr hbit)
  · exact exec_of_rule herr hlen (tblLenRule_none hx hv)
  · exact exec_of_rule herr hbit (tblBitRule_none hx h)
  · exact ⟨_, exec_of_rule herr hlen (tblLenRule_ok hv), tblLenWord_fields _⟩
  · exact exec_of_rule herr hbit (tblBitRule_ok hv h)

section Assign

variable {s t : State} {i : NodeIdx} {p q pre : List Bool} {x y n fuel len : Nat} {path : BitVec 256}
  {acc mid res : State × Nat}

/-! ### The leaves of a tree (R173) -/

/-- A leaf has no descendants: the path to one leaf does not go on to another. -/
theorem symbol_eq_of_leafAt_append (hp : LeafAt s i p x) (hq : LeafAt s i (p ++ q) y) : x = y := by
  induction p generalizing i with
  | nil =>
    obtain ⟨hleaf, hx⟩ := leafAt_nil_iff.mp hp
    cases q with
    | nil => exact hx.symm.trans (leafAt_nil_iff.mp hq).2
    | cons b q => rw [List.nil_append, leafAt_cons_iff, hleaf] at hq; cases hq.1
  | cons b p ih => exact ih (leafAt_cons_iff.mp hp).2 (leafAt_cons_iff.mp hq).2

/-- Every internal node has both children: every bit sequence leads to a leaf. -/
theorem exists_leafAt_of_bits (ht : TreeOk s) (hi : i.toNat < s.ncount) (f : Nat → Bool) :
    ∃ n x, LeafAt s i ((List.range n).map f) x := by
  induction hd : i.toNat using Nat.strongRecOn generalizing i f with
  | ind d ih =>
    cases hk : (s.node i.toNat).kind with
    | leaf => exact ⟨0, _, leafAt_nil_iff.mpr ⟨hk, rfl⟩⟩
    | internal =>
      have hlt := kid_lt ht hi hk (f 0)
      obtain ⟨n, x, hx⟩ := ih _ (hd ▸ hlt) (hlt.trans hi) (f ∘ Nat.succ) rfl
      refine ⟨n + 1, x, ?_⟩
      rw [List.range_succ_eq_map, List.map_cons, List.map_map]
      exact leafAt_cons_iff.mpr ⟨hk, hx⟩

/-- A leaf under the left child is no leaf under the right one (R29, R43). -/
theorem not_hasLeaf_right (ht : TreeOk s) (hi : i.toNat < s.ncount) (hk : (s.node i.toNat).kind = .internal)
    (h : s.HasLeaf (s.node i.toNat).left x) : ¬ s.HasLeaf (s.node i.toNat).right x := by
  rintro ⟨q, hq⟩
  obtain ⟨p, hp⟩ := h
  have heq : false :: p = true :: q :=
    leafAt_unique ht hi (leafAt_cons_iff.mpr ⟨hk, hp⟩) (leafAt_cons_iff.mpr ⟨hk, hq⟩)
  cases heq

theorem hasLeaf_leaf_iff (hk : (s.node i.toNat).kind = .leaf) : s.HasLeaf i x ↔ (s.node i.toNat).sym.toNat = x := by
  refine ⟨fun ⟨p, hp⟩ => ?_, fun hx => ⟨[], leafAt_nil_iff.mpr ⟨hk, hx⟩⟩⟩
  exact symbol_eq_of_leafAt_append (leafAt_nil_iff.mpr ⟨hk, rfl⟩) hp

/-! ### What a visit writes (R170, R171) -/

/-- How many symbols have an entry. -/
def State.entryCount (s : State) : Nat := (List.range 257).countP s.ctValid

theorem entryCount_clearTable (s : State) : s.clearTable.entryCount = 0 :=
  List.countP_eq_zero.mpr fun x _ => by simp [State.ctValid, CtEntry.empty]

theorem ctValid_setEntry (e : CtEntry) (hx : x < 257) (y : Nat) :
    (s.setEntry x e).ctValid y = if y = x then e.valid else s.ctValid y := by
  simp only [State.ctValid, entry_setEntry, hx, and_true]
  split <;> rfl

/-- An entry for a symbol that has none counts one. -/
theorem entryCount_setEntry {e : CtEntry} (hx : x < 257) (he : e.valid = true) (hnew : s.ctValid x = false) :
    (s.setEntry x e).entryCount = s.entryCount + 1 := by
  have hperm := List.perm_cons_erase (List.mem_range.mpr hx)
  have hothers : ∀ y ∈ (List.range 257).erase x, (s.setEntry x e).ctValid y = s.ctValid y := fun y hy => by
    rw [ctValid_setEntry e hx, if_neg (List.nodup_range.mem_erase_iff.mp hy).1]
  have hself : (s.setEntry x e).ctValid x = true := by rw [ctValid_setEntry e hx, if_pos rfl, he]
  unfold State.entryCount
  rw [hperm.countP_eq, hperm.countP_eq, List.countP_cons_of_pos hself, List.countP_cons_of_neg (by simp [hnew]),
    List.countP_congr fun y hy => by rw [hothers y hy]]

/-- The visit of the subtree under node `i` at the end of the path `pre`: `acc` before it, `res` after it. -/
structure Visited (s : State) (i : NodeIdx) (pre : List Bool) (acc res : State × Nat) : Prop where
  leaf   : ∀ p x, LeafAt s i p x → res.1.ctValid x = true ∧ res.1.codeOf x = pre ++ p
  others : ∀ x, ¬ s.HasLeaf i x → res.1.entry x = acc.1.entry x
  count  : (∀ x, s.HasLeaf i x → acc.1.ctValid x = false) → acc.2 = acc.1.entryCount → res.2 = res.1.entryCount

theorem visited_leaf {e : CtEntry} (ht : TreeOk s) (hi : i.toNat < s.ncount) (hk : (s.node i.toNat).kind = .leaf)
    (he : e.valid = true) : Visited s i e.bits acc (acc.1.setEntry (s.node i.toNat).sym.toNat e, acc.2 + 1) where
  leaf p x hp := by
    have hsym := Nat.lt_succ_of_le (ht.leaf _ hi hk).1
    cases p with
    | nil =>
      obtain ⟨-, rfl⟩ := leafAt_nil_iff.mp hp
      have hentry := entry_setEntry_self acc.1 _ e hsym
      exact ⟨(congrArg CtEntry.valid hentry).trans he, (congrArg CtEntry.bits hentry).trans (List.append_nil _).symm⟩
    | cons b p => rw [leafAt_cons_iff, hk] at hp; cases hp.1
  others x hx := entry_setEntry_ne _ _ _ fun h => hx ((hasLeaf_leaf_iff hk).mpr h.symm)
  count hnew hacc := by
    have hsym := Nat.lt_succ_of_le (ht.leaf _ hi hk).1
    rw [entryCount_setEntry hsym he (hnew _ ((hasLeaf_leaf_iff hk).mpr rfl)), hacc]

theorem Visited.ctValid_iff (h : Visited s i pre acc res) :
    res.1.ctValid x = true ↔ s.HasLeaf i x ∨ acc.1.ctValid x = true := by
  by_cases hx : s.HasLeaf i x
  · obtain ⟨p, hp⟩ := hx
    simp [(h.leaf p x hp).1, show s.HasLeaf i x from ⟨p, hp⟩]
  · simp [State.ctValid, h.others x hx, hx]

/-- A visit of both children, with the bit of each at the end of the path, is a visit of their parent. -/
theorem visited_internal (ht : TreeOk s) (hi : i.toNat < s.ncount) (hk : (s.node i.toNat).kind = .internal)
    (hleft : Visited s (s.node i.toNat).left (pre ++ [false]) acc mid)
    (hright : Visited s (s.node i.toNat).right (pre ++ [true]) mid res) : Visited s i pre acc res where
  leaf p x hp := by
    cases p with
    | nil => rw [leafAt_nil_iff, hk] at hp; cases hp.1
    | cons b p =>
      obtain ⟨-, hp⟩ := leafAt_cons_iff.mp hp
      cases b with
      | false =>
        have hentry := hright.others x (not_hasLeaf_right ht hi hk ⟨p, hp⟩)
        simpa [State.ctValid, State.codeOf, hentry] using hleft.leaf p x hp
      | true => simpa using hright.leaf p x hp
  others x hx := by
    rw [hasLeaf_internal_iff hk, not_or] at hx
    exact (hright.others x hx.2).trans (hleft.others x hx.1)
  count hnew hacc := by
    refine hright.count (fun x hx => ?_) (hleft.count (fun x hx => hnew x ?_) hacc)
    · have hacc := hnew x ((hasLeaf_internal_iff hk).mpr (.inr hx))
      have hnot : ¬ s.HasLeaf (s.node i.toNat).left x := fun h => not_hasLeaf_right ht hi hk h hx
      exact Bool.eq_false_iff.mpr fun hv => by simp [hleft.ctValid_iff.mp hv |>.resolve_left hnot] at hacc
    · exact (hasLeaf_internal_iff hk).mpr (.inl hx)

/-- The bits of a path as `Visit` carries it: in a vector, with its length beside it (R171). -/
def pathBits (path : BitVec 256) (len : Nat) : List Bool := (List.range len).map path.getLsbD

/-- "bit number len stays 0: left" (R171). -/
theorem writeBit_false_of_lt (h : path.toNat < 2 ^ len) : writeBit path len false = path := by
  apply BitVec.eq_of_getLsbD_eq
  intro j _
  rw [getLsbD_writeBit]
  split
  next hj => exact ((toNat_lt_twoPow_iff path len).mp h j hj.1.ge).symm
  next => rfl

theorem visit_of_leaf (hk : (s.node i.toNat).kind = .leaf) :
    visit s (fuel + 1) i path len acc =
      (acc.1.setEntry (s.node i.toNat).sym.toNat ⟨true, BitVec.ofNat 9 len, path⟩, acc.2 + 1) := by
  simp only [visit, hk]

theorem visit_of_internal (hk : (s.node i.toNat).kind = .internal) :
    visit s (fuel + 1) i path len acc =
      visit s fuel (s.kid i true) (writeBit path len true) (len + 1) (visit s fuel (s.kid i false) path (len + 1) acc) := by
  simp only [visit, hk]
  rfl

/-- The fuel outruns the depth, since a child comes before its parent, and the path its 256 bits never, since each step
takes an internal node (R173). -/
theorem visit_visited (ht : TreeOk s) (fuel : Nat) (i : NodeIdx) (path : BitVec 256) (len : Nat) (acc : State × Nat)
    (hfuel : i.toNat < fuel) (hi : i.toNat < s.ncount) (hpath : path.toNat < 2 ^ len)
    (hlen : len + below s (i.toNat + 1) ≤ 256) :
    Visited s i (pathBits path len) acc (visit s fuel i path len acc) := by
  induction fuel generalizing i path len acc with
  | zero => omega
  | succ fuel ih =>
    cases hk : (s.node i.toNat).kind with
    | leaf =>
      have hbits : (⟨true, BitVec.ofNat 9 len, path⟩ : CtEntry).bits = pathBits path len := by
        rw [CtEntry.bits, BitVec.toNat_ofNat, Nat.mod_eq_of_lt (by omega)]
        rfl
      rw [visit_of_leaf hk, ← hbits]
      exact visited_leaf ht hi hk rfl
    | internal =>
      have hbelow := below_succ hi hk
      have hkid : ∀ b acc, Visited s (s.kid i b) (pathBits path len ++ [b]) acc
          (visit s fuel (s.kid i b) (writeBit path len b) (len + 1) acc) := fun b acc => by
        have hlt := kid_lt ht hi hk b
        have hmono : below s ((s.kid i b).toNat + 1) ≤ below s i.toNat := below_mono hlt
        have hvisited := ih (s.kid i b) (writeBit path len b) (len + 1) acc (by omega) (by omega)
          (writeBit_lt _ _ _ hpath) (by omega)
        rwa [pathBits, lowBits_writeBit _ _ _ (by omega)] at hvisited
      have hleft := hkid false acc
      rw [writeBit_false_of_lt hpath] at hleft
      rw [visit_of_internal hk]
      exact visited_internal ht hi hk hleft (hkid true _)

/-! ### What `ASSIGN` leaves (R171, R172) -/

/-- What every codeword begins with: nothing, or the `0` that a lone leaf gets (R172). -/
def State.rootBits (s : State) : List Bool := if (s.node s.root.toNat).kind = .leaf then [false] else []

/-- `ASSIGN` makes of `s` the state `t`, and counts `n` symbols: it visits the tree under `root` with an empty table. -/
def Assigned (s t : State) (n : Nat) : Prop := Visited s s.root s.rootBits (s.clearTable, 0) (t, n)

theorem assignRule_of_nil (hroot : s.root = Config.nil) : assignRule s = .fault .sequence := if_pos hroot

theorem assignRule_of_leaf (hroot : s.root ≠ Config.nil) (hk : (s.node s.root.toNat).kind = .leaf) :
    assignRule s = .ok 1 (s.clearTable.setEntry (s.node s.root.toNat).sym.toNat ⟨true, 1, 0⟩) := by
  simp only [assignRule, if_neg hroot, hk]

theorem assignRule_of_internal (hroot : s.root ≠ Config.nil) (hk : (s.node s.root.toNat).kind = .internal) :
    assignRule s = .ok (place (BitVec.ofNat 9 (visit s s.ncount s.root 0 0 (s.clearTable, 0)).2) 0)
      (visit s s.ncount s.root 0 0 (s.clearTable, 0)).1 := by
  simp only [assignRule, if_neg hroot, hk]

/-- With a tree under `root`, `ASSIGN` clears the table and visits the tree. -/
theorem assignRule_of_root (h : Inv s) (hroot : s.root ≠ Config.nil) :
    ∃ t n, assignRule s = .ok (place (BitVec.ofNat 9 n) 0) t ∧ Assigned s t n := by
  obtain ⟨hi, hown⟩ := h.root.resolve_left hroot
  unfold Assigned State.rootBits
  cases hk : (s.node s.root.toNat).kind with
  | leaf => exact ⟨_, 1, assignRule_of_leaf hroot hk, visited_leaf (e := ⟨true, 1, 0⟩) h.tree hi hk rfl⟩
  | internal =>
    have hinternal := internal_count h.tree hi (by rw [hown]; decide)
    have hbelow := below_le (s := s) (s.root.toNat + 1)
    exact ⟨_, _, assignRule_of_internal hroot hk,
      visit_visited h.tree s.ncount s.root 0 0 (s.clearTable, 0) hi hi Nat.one_pos (by omega)⟩

theorem assignRule_ok {rd : Word} (h : Inv s) (hrule : assignRule s = .ok rd t) :
    s.root.toNat < s.ncount ∧ ∃ n, Assigned s t n := by
  have hroot : s.root ≠ Config.nil := fun hnil => by rw [assignRule_of_nil hnil] at hrule; cases hrule
  obtain ⟨t', n, hok, hassigned⟩ := assignRule_of_root h hroot
  rw [hok] at hrule
  cases hrule
  exact ⟨(h.root.resolve_left hroot).1, n, hassigned⟩

theorem Assigned.ctValid_iff (h : Assigned s t n) : t.ctValid x = true ↔ s.HasLeaf s.root x :=
  Visited.ctValid_iff h |>.trans (or_iff_left (by simp [State.ctValid, CtEntry.empty]))

theorem Assigned.count_eq_entryCount (h : Assigned s t n) : n = t.entryCount :=
  h.count (fun x _ => by simp [State.ctValid, CtEntry.empty]) (entryCount_clearTable s).symm

/-- The codeword of a leaf under an internal root is its path (R171). -/
theorem Assigned.codeOf_of_internal (h : Assigned s t n) (hk : (s.node s.root.toNat).kind = .internal)
    (hp : LeafAt s s.root p x) : t.codeOf x = p := by
  simpa [State.rootBits, hk] using (h.leaf p x hp).2

/-- The codeword of a lone leaf (R172). -/
theorem Assigned.codeOf_of_leaf (h : Assigned s t n) (hk : (s.node s.root.toNat).kind = .leaf)
    (hv : t.ctValid x = true) : t.codeOf x = [false] := by
  have hp := leafAt_nil_iff.mpr ⟨hk, (hasLeaf_leaf_iff hk).mp (h.ctValid_iff.mp hv)⟩
  simpa [State.rootBits, hk] using (h.leaf [] x hp).2

/-- Codewords that begin alike belong to leaves one above the other, so to one leaf (R173). -/
theorem Assigned.prefixFree (h : Assigned s t n) : PrefixFree t := by
  intro x y hx hy hprefix
  obtain ⟨p, hp⟩ := h.ctValid_iff.mp hx
  obtain ⟨q, hq⟩ := h.ctValid_iff.mp hy
  rw [(h.leaf p x hp).2, (h.leaf q y hq).2, List.prefix_append_right_inj] at hprefix
  obtain ⟨r, rfl⟩ := hprefix
  exact symbol_eq_of_leafAt_append hp hq

theorem Assigned.codeOf_ne_nil (h : Assigned s t n) (hv : t.ctValid x = true) : t.codeOf x ≠ [] := by
  cases hk : (s.node s.root.toNat).kind with
  | leaf => rw [h.codeOf_of_leaf hk hv]; exact List.cons_ne_nil _ _
  | internal =>
    obtain ⟨p, hp⟩ := h.ctValid_iff.mp hv
    rw [h.codeOf_of_internal hk hp]
    rintro rfl
    rw [leafAt_nil_iff, hk] at hp
    cases hp.1

/-- Where no codeword begins another, at most one begins a bit sequence. -/
theorem PrefixFree.unique_of_bits (h : PrefixFree t) (f : Nat → Bool)
    (hx : t.ctValid x = true ∧ t.codeOf x = (List.range (t.codeOf x).length).map f)
    (hy : t.ctValid y = true ∧ t.codeOf y = (List.range (t.codeOf y).length).map f) : x = y := by
  have hprefix : ∀ {m n : Nat}, m ≤ n → (List.range m).map f <+: (List.range n).map f := fun hmn => by
    rw [← min_eq_left hmn, ← List.take_range]
    exact (List.take_prefix _ _).map f
  rcases le_total (t.codeOf x).length (t.codeOf y).length with hle | hle
  · exact h x y hx.1 hy.1 (hx.2 ▸ hy.2 ▸ hprefix hle)
  · exact (h y x hy.1 hx.1 (hx.2 ▸ hy.2 ▸ hprefix hle)).symm

/-- The code of a tree of two leaves or more is complete (R173). -/
theorem Assigned.complete (ht : TreeOk s) (hi : s.root.toNat < s.ncount) (h : Assigned s t n)
    (hk : (s.node s.root.toNat).kind = .internal) (f : Nat → Bool) :
    ∃! x, t.ctValid x = true ∧ t.codeOf x = (List.range (t.codeOf x).length).map f := by
  obtain ⟨len, x, hx⟩ := exists_leafAt_of_bits ht hi f
  have hcode := h.codeOf_of_internal hk hx
  have hbegins : t.codeOf x = (List.range (t.codeOf x).length).map f := by rw [hcode]; simp
  exact ⟨x, ⟨(h.leaf _ x hx).1, hbegins⟩, fun y hy => h.prefixFree.unique_of_bits f hy ⟨(h.leaf _ x hx).1, hbegins⟩⟩

end Assign

/-- Settles O37: the table that the visit leaves, by where each leaf stands under `root`. -/
theorem assignWritesLeafPaths : Obligations.AssignWritesLeafPaths := by
  have hw : encode .assign = mkWord 0x22 0 0 := rfl
  refine ⟨decode_of_encode_eq trivial hw, fun s h herr => ⟨fun hnil => ?_, fun hroot => ?_⟩⟩
  · exact exec_of_rule herr hw (assignRule_of_nil hnil)
  obtain ⟨t, n, hrule, hassigned⟩ := assignRule_of_root h hroot
  have hframe : t = { s with ct := t.ct } := by
    obtain ⟨ct, rfl⟩ := assignRule_setCt hrule
    rfl
  have hcount : (BitVec.ofNat 9 n).toNat = t.entryCount := by
    have hle : t.entryCount ≤ 257 := List.countP_le_length.trans_eq List.length_range
    rw [hassigned.count_eq_entryCount, BitVec.toNat_ofNat, Nat.mod_eq_of_lt (by omega)]
  refine ⟨t, _, exec_of_rule herr hw hrule, hframe, ?_, extractLsb'_place_of_disjoint _ (by decide) (.inr (by decide)),
    fun x => hassigned.ctValid_iff, fun x p hp hne => ?_, fun x hp => ?_⟩
  · rw [extractLsb'_place_self _ (by decide)]
    exact hcount
  · obtain ⟨b, p, rfl⟩ := List.exists_cons_of_ne_nil hne
    exact hassigned.codeOf_of_internal (leafAt_cons_iff.mp hp).1 hp
  · exact hassigned.codeOf_of_leaf (leafAt_nil_iff.mp hp).1 (hassigned.leaf [] x hp).1

/-- Settles O38: leaves of a tree have no descendants, and internal nodes have both children. -/
theorem assignedCodeIsPrefixFree : Obligations.AssignedCodeIsPrefixFree := by
  intro s t rd h hexec hresps
  obtain ⟨u, hrule, rfl⟩ := ruleOf_of_answer_ok hexec hresps
  obtain ⟨hi, n, hassigned⟩ := assignRule_ok h hrule
  have hcomplete := hassigned.complete h.tree hi
  refine ⟨fun x => hassigned.ctValid_iff, fun x p q => leafAt_unique h.tree hi, fun x hv => ⟨?_, ?_⟩,
    hassigned.prefixFree, hcomplete, fun hk x => hassigned.codeOf_of_leaf hk⟩
  · exact List.length_pos_iff.mpr (hassigned.codeOf_ne_nil hv)
  · rw [State.codeOf, length_bits]
    exact ((CtEntry.wf_iff _).mp (entry_wf (inv_assign h hrule) x)).2.1

end Sys2Proof.Machine

/-! Proofs for the family of 43_table_codec.md: the readings of a line, the text `Serialize` writes, and what
`Parse` makes of it. -/

namespace Sys2Proof.Machine

section Lines

variable {line pre rest p q : List Byte} {s : State} {x : Nat} {bits : List Bool}

/-! ### A line has one reading (R193) -/

/-- A line begins with at most one of two markers neither of which begins the other. -/
theorem not_isPrefixOf_of_isPrefixOf (hp : p.isPrefixOf line = true) (hpq : ¬ p <+: q) (hqp : ¬ q <+: p) :
    ¬ q.isPrefixOf line = true := fun hq =>
  (List.prefix_or_prefix_of_prefix (List.isPrefixOf_iff_prefix.mp hp) (List.isPrefixOf_iff_prefix.mp hq)).elim hpq hqp

/-- Under the literal reading a marker's second byte, `O` or `R`, starts the codeword. -/
theorem not_allBits_of_isPrefixOf (hp : p.isPrefixOf line = true) (hbits : allBits (p.drop 1) = false) :
    ¬ allBits (line.drop 1) = true := by
  intro h
  have hsub := ((List.isPrefixOf_iff_prefix.mp hp).drop 1).subset
  rw [allBits, List.all_eq_true] at h
  exact Bool.false_ne_true (hbits.symm.trans (List.all_eq_true.mpr fun b hb => h b (hsub hb)))

/-- The readings of a line are the one that the parser finds, or none. -/
theorem lineReadings_eq_toList_parseLine (hbreak : lineBreak ∉ line) : lineReadings line = (parseLine line).toList := by
  unfold lineReadings parseLine
  by_cases heof : markEof.isPrefixOf line = true ∧ allBits (line.drop 3) = true
  · have heol := not_isPrefixOf_of_isPrefixOf (q := markEol) heof.1 (by decide) (by decide)
    have hcr := not_isPrefixOf_of_isPrefixOf (q := markCr) heof.1 (by decide) (by decide)
    have hlit := not_allBits_of_isPrefixOf heof.1 (by decide)
    rw [if_pos heof, if_pos heof, if_neg (mt And.left heol), if_neg (mt And.left hcr), if_neg fun ⟨_, _, _, h⟩ => hlit h]
    rfl
  rw [if_neg heof, if_neg heof]
  by_cases heol : markEol.isPrefixOf line = true ∧ allBits (line.drop 3) = true
  · have hcr := not_isPrefixOf_of_isPrefixOf (q := markCr) heol.1 (by decide) (by decide)
    have hlit := not_allBits_of_isPrefixOf heol.1 (by decide)
    rw [if_pos heol, if_pos heol, if_neg (mt And.left hcr), if_neg fun ⟨_, _, _, h⟩ => hlit h]
    rfl
  rw [if_neg heol, if_neg heol]
  by_cases hcr : markCr.isPrefixOf line = true ∧ allBits (line.drop 2) = true
  · have hlit := not_allBits_of_isPrefixOf hcr.1 (by decide)
    rw [if_pos hcr, if_pos hcr, if_neg fun ⟨_, _, _, h⟩ => hlit h]
    rfl
  rw [if_neg hcr, if_neg hcr]
  cases line with
  | nil => rfl
  | cons b u =>
    have hb : b ≠ lineBreak := fun h => hbreak (h ▸ List.mem_cons_self)
    simp only [List.nil_append, List.head?_cons, List.headD_cons, List.drop_one, List.tail_cons, ne_eq, reduceCtorEq,
      not_false_eq_true, Option.some.injEq, hb, true_and]
    split <;> rfl

theorem parseLine_eq_some (hbreak : lineBreak ∉ line) (h : (x, bits) ∈ lineReadings line) :
    parseLine line = some (x, bits) := by
  rwa [lineReadings_eq_toList_parseLine hbreak, Option.mem_toList] at h

/-! ### The loop of `Parse` (R195) -/

/-- The bytes up to the next line break join the current line. -/
theorem parseLines_append (hbreak : lineBreak ∉ line) :
    parseLines pre (line ++ rest) s = parseLines (pre ++ line) rest s := by
  induction line generalizing pre with
  | nil => simp
  | cons b line ih =>
    rw [List.mem_cons, not_or] at hbreak
    rw [List.cons_append, parseLines, if_neg (Ne.symm hbreak.1), ih hbreak.2, List.append_assoc]
    rfl

/-- A whole line is loaded, and the loop goes on with the rest. -/
theorem parseLines_line (hbreak : lineBreak ∉ line) :
    parseLines [] (line ++ lineBreak :: rest) s = loadLine s line >>= parseLines [] rest := by
  rw [parseLines_append hbreak, List.nil_append, parseLines, if_pos rfl]

theorem loadLine_of_some (h : parseLine line = some (x, bits)) : loadLine s line = callAll s (tblLoad x bits) := by
  rw [loadLine, h]

theorem loadLine_of_none (h : parseLine line = none) : loadLine s line = .error ⟨2, s⟩ := by
  rw [loadLine, h]
  rfl

/-- A last line without its line break. -/
theorem parseLines_unterminated (hbreak : lineBreak ∉ line) (hne : line ≠ []) : parseLines [] line s = .error ⟨2, s⟩ := by
  rw [← List.append_nil line, parseLines_append hbreak, List.nil_append, parseLines, if_neg hne]
  rfl

end Lines

/-- Settles O52: the readings are the parser's answer as a list, which the loop loads or fails on. -/
theorem everyLineHasOneReading : Obligations.EveryLineHasOneReading := by
  intro line hbreak
  have hreadings := lineReadings_eq_toList_parseLine hbreak
  refine ⟨?_, ?_, fun s rest => ⟨fun x bits h => ?_, fun h => ?_, parseLines_unterminated hbreak⟩⟩
  · rw [hreadings]
    exact Option.length_toList_le
  · rw [hreadings, Option.head?_toList]
  · rw [parseLines_line hbreak, loadLine_of_some (parseLine_eq_some hbreak (h ▸ List.mem_singleton_self _))]
  · rw [hreadings, Option.toList_eq_nil_iff] at h
    rw [parseLines_line hbreak, loadLine_of_none h]
    rfl

section Serialize

variable {s t : State} {x j n : Nat}

/-! ### Reading the table leaves the block as it is (R70, R177, R178) -/

theorem SameBlock.err (h : SameBlock s t) : t.err = s.err := (congrArg State.err h).symm

theorem SameBlock.ct (h : SameBlock s t) : t.ct = s.ct := (congrArg State.ct h).symm

theorem SameBlock.ctValid (h : SameBlock s t) (x : Nat) : t.ctValid x = s.ctValid x :=
  congrArg CtEntry.valid (entry_congr h.ct x)

theorem SameBlock.codeOf (h : SameBlock s t) (x : Nat) : t.codeOf x = s.codeOf x :=
  congrArg CtEntry.bits (entry_congr h.ct x)

/-- The record's last response is the one just given. -/
@[simp] theorem lastResp_respond (r : Response) : (s.respond r).lastResp = some r := List.getLast?_concat

/-- A reading command whose rule answers `OK` gives its data word to the host. -/
theorem query_of_rule_ok {i : Instr} {rd : Word} (hi : i.WellFormed) (herr : s.err = 0) (hrule : ruleOf i s = .ok rd s) :
    ∃ t, query s i = .ok (some rd, t) ∧ SameBlock s t := by
  refine ⟨s.respond ⟨.ok, rd⟩, ?_, rfl⟩
  unfold query
  simp only [issue_of_rule_ok hi herr hrule, lastResp_respond]

/-- A reading command whose rule answers `NONE` gives the host nothing. -/
theorem query_of_rule_none {i : Instr} (hi : i.WellFormed) (herr : s.err = 0) (hrule : ruleOf i s = .none) :
    ∃ t, query s i = .ok (none, t) ∧ SameBlock s t := by
  refine ⟨s.respond ⟨.none, 0⟩, ?_, rfl⟩
  unfold query
  simp only [issue_of_not_faulted hi herr, hrule, complete_none, lastResp_respond]

/-! ### What `Serialize` writes (R192, R194) -/

/-- The line of one symbol, or nothing when it has no entry (R192). -/
def State.symLine (s : State) (x : Nat) : List Byte :=
  if s.ctValid x then designator x ++ (s.codeOf x).map bitChar ++ [lineBreak] else []

theorem tableText_eq_flatMap (s : State) : tableText s = (List.range Config.nsym).flatMap s.symLine := rfl

theorem length_codeOf_le (hwf : Memory.wf s = true) (x : Nat) : (s.codeOf x).length ≤ 256 := by
  obtain ⟨-, -, hentries⟩ := (memory_wf_iff s).mp hwf
  rw [State.codeOf, length_bits]
  exact ((CtEntry.wf_iff _).mp (hentries x)).2.1

/-- `TBL.BIT` from index `j` up gives the rest of the codeword. -/
theorem serializeBits_ok (hwf : Memory.wf s = true) (herr : s.err = 0) (hv : s.ctValid x = true)
    (hn : j + n = (s.codeOf x).length) (h : SameBlock s t) :
    ∃ u, serializeBits x n j t = .ok (((s.codeOf x).drop j).map bitChar, u) ∧ SameBlock s u := by
  induction n generalizing j t with
  | zero => exact ⟨t, by rw [serializeBits, List.drop_of_length_le (by omega)]; rfl, h⟩
  | succ n ih =>
    have hj : j < (s.codeOf x).length := by omega
    have hfits : (Instr.tblBit x j).WellFormed :=
      ⟨(ctValid_lt s hv).trans (by decide), hj.trans_le (length_codeOf_le hwf x)⟩
    have hbit : (t.codeOf x)[j]? = some (s.codeOf x)[j] := by rw [h.codeOf, List.getElem?_eq_getElem hj]
    obtain ⟨u, hquery, hu⟩ := query_of_rule_ok hfits (h.err.trans herr) (tblBitRule_ok ((h.ctValid x).trans hv) hbit)
    obtain ⟨v, hrest, hsame⟩ := ih (j := j + 1) (by omega) (h.trans hu)
    refine ⟨v, ?_, hsame⟩
    rw [serializeBits, hquery, List.drop_eq_getElem_cons hj]
    simp only [bind, Except.bind, hrest]
    cases (s.codeOf x)[j] <;> rfl

/-- `TBL.LEN` tells whether the symbol has a line, and how many bits stand in it. -/
theorem serializeSym_ok (hwf : Memory.wf s = true) (herr : s.err = 0) (hx : x < 257) (h : SameBlock s t) :
    ∃ u, serializeSym x t = .ok (s.symLine x, u) ∧ SameBlock s u := by
  have hfits : (Instr.tblLen x).WellFormed := hx.trans (by decide)
  have herr' : t.err = 0 := h.err.trans herr
  rw [State.symLine, ← h.ctValid]
  cases hv : t.ctValid x with
  | false =>
    obtain ⟨u, hquery, hu⟩ := query_of_rule_none hfits herr' (tblLenRule_none (Nat.le_of_lt_succ hx) hv)
    exact ⟨u, by rw [serializeSym, hquery]; rfl, h.trans hu⟩
  | true =>
    obtain ⟨u, hquery, hu⟩ := query_of_rule_ok hfits herr' (tblLenRule_ok hv)
    have hlen : ((place (t.entry x).len 0 ||| place 1#1 16).setWidth 9).toNat = (s.codeOf x).length := by
      rw [BitVec.setWidth_eq_extractLsb' (by decide), (tblLenWord_fields _).1, ← h.codeOf, State.codeOf, length_bits]
    obtain ⟨v, hbits, hsame⟩ := serializeBits_ok hwf herr ((h.ctValid x).symm.trans hv) (Nat.zero_add _) (h.trans hu)
    refine ⟨v, ?_, hsame⟩
    rw [serializeSym, hquery]
    simp only [bind, Except.bind, hlen, hbits]
    rfl

theorem serializeSyms_ok {xs : List Nat} (hwf : Memory.wf s = true) (herr : s.err = 0) (hxs : ∀ x ∈ xs, x < 257)
    (h : SameBlock s t) : ∃ u, serializeSyms xs t = .ok (xs.flatMap s.symLine, u) ∧ SameBlock s u := by
  induction xs generalizing t with
  | nil => exact ⟨t, rfl, h⟩
  | cons x xs ih =>
    obtain ⟨hx, hrest⟩ := List.forall_mem_cons.mp hxs
    obtain ⟨u, hline, hu⟩ := serializeSym_ok hwf herr hx h
    obtain ⟨v, hlines, hv⟩ := ih hrest hu
    refine ⟨v, ?_, hv⟩
    rw [serializeSyms, hline]
    simp only [bind, Except.bind, hlines, List.flatMap_cons]

end Serialize

/-- Settles O53: each symbol's line is read off its entry, and no reading command changes the block. -/
theorem serializeWritesTableText : Obligations.SerializeWritesTableText := by
  intro s hwf herr
  exact serializeSyms_ok hwf herr (fun _ => List.mem_range.mp) rfl

section Parse

variable {s t u : State} {x : Nat} {pre bits : List Bool} {rest : List Byte}

/-! ### A written line parses to what it was written from (R191, R192, R197) -/

@[simp] theorem allBits_map_bitChar (bits : List Bool) : allBits (bits.map bitChar) = true := by
  rw [allBits, List.all_map, List.all_eq_true]
  rintro (_ | _) - <;> rfl

@[simp] theorem charBits_map_bitChar (bits : List Bool) : charBits (bits.map bitChar) = bits := by
  rw [charBits, List.map_map]
  exact (List.map_congr_left (by rintro (_ | _) - <;> rfl)).trans (List.map_id bits)

theorem lineBreak_not_mem_map_bitChar (bits : List Bool) : lineBreak ∉ bits.map bitChar := by
  rw [List.mem_map]
  rintro ⟨_ | _, -, h⟩ <;> exact absurd h (by decide)

/-- A byte symbol that needs no marker is its own designator. -/
theorem designator_literal {b : Byte} (hbreak : b ≠ lineBreak) (hcr : b ≠ carriageReturn) : designator b.toNat = [b] := by
  have heos : b.toNat ≠ Config.eos := b.isLt.ne
  rw [designator, if_neg heos, if_neg (mt BitVec.eq_of_toNat_eq hbreak), if_neg (mt BitVec.eq_of_toNat_eq hcr),
    BitVec.ofNat_toNat, BitVec.setWidth_eq]

/-- The four kinds of designator (R192). -/
theorem designator_cases {p : Nat → List Byte → Prop} (heof : p Config.eos markEof) (heol : p lineBreak.toNat markEol)
    (hcr : p carriageReturn.toNat markCr) (hlit : ∀ b : Byte, b ≠ lineBreak → b ≠ carriageReturn → p b.toNat [b])
    (hx : x < 257) : p x (designator x) := by
  rcases Nat.lt_succ_iff_lt_or_eq.mp hx with hbyte | rfl
  · obtain ⟨b, rfl⟩ : ∃ b : Byte, b.toNat = x := ⟨BitVec.ofNat 8 x, by simpa using hbyte⟩
    by_cases hb : b = lineBreak
    · exact hb ▸ heol
    by_cases hc : b = carriageReturn
    · exact hc ▸ hcr
    exact designator_literal hb hc ▸ hlit b hb hc
  · exact heof

theorem lineBreak_not_mem_designator (hx : x < 257) : lineBreak ∉ designator x :=
  designator_cases (p := fun _ d => lineBreak ∉ d) (by decide) (by decide) (by decide)
    (fun _ hb _ h => hb (List.mem_singleton.mp h).symm) hx

/-- One of the readings of a written line is the symbol and the codeword it was written from. -/
theorem mem_lineReadings_written (bits : List Bool) (hx : x < 257) :
    (x, bits) ∈ lineReadings (designator x ++ bits.map bitChar) := by
  refine designator_cases (p := fun x d => (x, bits) ∈ lineReadings (d ++ bits.map bitChar)) ?_ ?_ ?_ (fun b hb hc => ?_) hx
  · simp [lineReadings, markEof]
  · simp [lineReadings, markEol]
  · simp [lineReadings, markCr]
  · simp [lineReadings, hb, hc]

theorem lineBreak_not_mem_written (bits : List Bool) (hx : x < 257) : lineBreak ∉ designator x ++ bits.map bitChar := by
  rw [List.mem_append, not_or]
  exact ⟨lineBreak_not_mem_designator hx, lineBreak_not_mem_map_bitChar bits⟩

theorem parseLine_written (bits : List Bool) (hx : x < 257) :
    parseLine (designator x ++ bits.map bitChar) = some (x, bits) :=
  parseLine_eq_some (lineBreak_not_mem_written bits hx) (mem_lineReadings_written bits hx)

/-! ### Loading a line (R99, R175, R176) -/

/-- A command that answers `OK` succeeds as a call. -/
theorem call_of_issue {i : Instr} {rd : Word} (h : issue s i = t.respond ⟨.ok, rd⟩) : call s i = .ok (issue s i) :=
  (call_ok_iff i).mpr ⟨rfl, rd, h ▸ lastResp_respond _⟩

/-- Every append to a codeword that ends with at most 256 bits succeeds, and leaves a canonical entry. -/
theorem HasCodeword.callAll_tblAppends (h : HasCodeword s x pre t) (hwf : (t.entry x).wf = true)
    (hlen : pre.length + bits.length ≤ 256) :
    ∃ u, callAll t (bits.map (Instr.tblAppend x)) = .ok u ∧ HasCodeword s x (pre ++ bits) u ∧ (u.entry x).wf = true := by
  induction bits generalizing pre t with
  | nil => exact ⟨t, rfl, by rwa [List.append_nil], hwf⟩
  | cons b bits ih =>
    rw [List.length_cons] at hlen
    have hroom : (t.codeOf x).length < 256 := by rw [h.code]; omega
    have hissue := issue_tblAppend b h.err h.valid hroom
    have hwf' : ((issue t (.tblAppend x b)).entry x).wf = true := by
      rw [hissue]
      exact (entry_setEntry_self t x _ (ctValid_lt t h.valid)).symm ▸
        CtEntry.append_wf _ b hwf h.valid (mt len_eq_lMax_iff.mp hroom.ne)
    obtain ⟨u, hcalls, hu⟩ := ih (h.tblAppend b (by omega)) hwf' (by rw [List.length_append, List.length_singleton]; omega)
    rw [List.append_assoc] at hu
    exact ⟨u, by rw [List.map_cons, callAll_cons, call_of_issue hissue]; exact hcalls, hu⟩

/-- Loading a codeword for a symbol with no entry succeeds, and leaves a canonical entry. -/
theorem callAll_tblLoad (herr : s.err = 0) (hx : x < 257) (hv : s.ctValid x = false) (hlen : bits.length ≤ 256) :
    ∃ u, callAll s (tblLoad x bits) = .ok u ∧ HasCodeword s x bits u ∧ (u.entry x).wf = true := by
  have hissue := issue_tblDefine herr (Nat.le_of_lt_succ hx) hv
  have hwf : ((issue s (.tblDefine x)).entry x).wf = true := by
    rw [hissue]
    exact (entry_setEntry_self s x _ hx).symm ▸ (by decide : (⟨true, 0, 0⟩ : CtEntry).wf = true)
  obtain ⟨u, hcalls, hu⟩ := (hasCodeword_tblDefine herr (Nat.le_of_lt_succ hx) hv).callAll_tblAppends (bits := bits) hwf
    (by simpa using hlen)
  exact ⟨u, by rw [tblLoad, callAll_cons, call_of_issue hissue]; exact hcalls, hu⟩

/-! ### `Parse` of the lines of some symbols (R197) -/

/-- `v` is not faulted, and its table is that of `u` with the entries of the symbols `xs` taken from `s`. -/
structure Restored (s : State) (xs : List Nat) (u v : State) : Prop where
  err    : v.err = 0
  taken  : ∀ x ∈ xs, v.entry x = s.entry x
  others : ∀ x, x ∉ xs → v.entry x = u.entry x

/-- The line of one symbol restores its entry. -/
theorem parseLines_symLine (hwf : Memory.wf s = true) (herr : u.err = 0) (hx : x < 257)
    (hempty : u.entry x = CtEntry.empty) :
    ∃ v, parseLines [] (s.symLine x ++ rest) u = parseLines [] rest v ∧ Restored s [x] u v := by
  obtain ⟨-, -, hentries⟩ := (memory_wf_iff s).mp hwf
  unfold State.symLine
  cases hv : s.ctValid x with
  | false =>
    obtain ⟨hlen, -⟩ := ((CtEntry.wf_iff _).mp (hentries x)).1 hv
    have hbits : CtEntry.empty.bits = (s.entry x).bits := by rw [CtEntry.bits, CtEntry.bits, hlen]; rfl
    have hsame : u.entry x = s.entry x :=
      hempty.trans (CtEntry.eq_of_bits CtEntry.empty_wf (hentries x) hv.symm hbits)
    exact ⟨u, rfl, herr, fun y hy => List.mem_singleton.mp hy ▸ hsame, fun _ _ => rfl⟩
  | true =>
    obtain ⟨v, hload, ⟨herr', hvalid, hcode, hothers⟩, hwf'⟩ := callAll_tblLoad herr hx
      (congrArg CtEntry.valid hempty) (length_codeOf_le hwf x)
    have hsame : v.entry x = s.entry x := CtEntry.eq_of_bits hwf' (hentries x) (hvalid.trans hv.symm) hcode
    refine ⟨v, ?_, herr', fun y hy => List.mem_singleton.mp hy ▸ hsame,
      fun y hy => hothers y (mt List.mem_singleton.mpr hy)⟩
    rw [if_pos rfl, List.append_assoc, List.singleton_append, parseLines_line (lineBreak_not_mem_written _ hx),
      loadLine_of_some (parseLine_written _ hx), hload]
    rfl

/-- The lines of symbols with no entry yet, each once, restore their entries. -/
theorem parseLines_symLines {xs : List Nat} (hwf : Memory.wf s = true) (herr : u.err = 0) (hxs : ∀ x ∈ xs, x < 257)
    (hnodup : xs.Nodup) (hempty : ∀ x ∈ xs, u.entry x = CtEntry.empty) :
    ∃ v, parseLines [] (xs.flatMap s.symLine) u = .ok v ∧ Restored s xs u v := by
  induction xs generalizing u with
  | nil => exact ⟨u, rfl, herr, nofun, fun _ _ => rfl⟩
  | cons x xs ih =>
    obtain ⟨hx, hxs⟩ := List.forall_mem_cons.mp hxs
    obtain ⟨hemptyx, hempty⟩ := List.forall_mem_cons.mp hempty
    obtain ⟨hnew, hnodup⟩ := List.nodup_cons.mp hnodup
    obtain ⟨v, hline, hv⟩ := parseLines_symLine (rest := xs.flatMap s.symLine) hwf herr hx hemptyx
    have hkept : ∀ y, y ≠ x → v.entry y = u.entry y := fun y hy => hv.others y (mt List.mem_singleton.mp hy)
    obtain ⟨w, hlines, hw⟩ := ih hv.err hxs hnodup fun y hy =>
      (hkept y (ne_of_mem_of_not_mem hy hnew)).trans (hempty y hy)
    refine ⟨w, by rw [List.flatMap_cons, hline, hlines], hw.err, List.forall_mem_cons.mpr ⟨?_, hw.taken⟩, fun y hy => ?_⟩
    · exact (hw.others x hnew).trans (hv.taken x (List.mem_singleton_self x))
    · rw [List.mem_cons, not_or] at hy
      exact (hw.others y hy.2).trans (hkept y hy.1)

/-- `Parse` of a table's text restores the table in any block that is not faulted. -/
theorem parse_tableText (hwf : Memory.wf s = true) (herr : u.err = 0) :
    ∃ v, parse (tableText s) u = .ok v ∧ v.ct = s.ct ∧ v.err = 0 := by
  have hclear : issue u .tblClear = u.clearTable.respond ⟨.ok, 0⟩ := issue_of_rule_ok trivial herr rfl
  obtain ⟨v, hlines, hv⟩ := parseLines_symLines (xs := List.range Config.nsym) (u := issue u .tblClear) hwf
    (by rw [hclear]; exact herr) (fun _ => List.mem_range.mp) List.nodup_range
    (fun x _ => by rw [hclear]; exact entry_clearTable u x)
  refine ⟨v, ?_, ct_ext fun x hx => hv.taken x (List.mem_range.mpr hx), hv.err⟩
  rw [parse, call_of_issue hclear, tableText_eq_flatMap]
  exact hlines

end Parse

/-- Settles O54: each line of the text restores the entry it was written from. -/
theorem parseInvertsSerialize : Obligations.ParseInvertsSerialize := by
  intro s hwf herr
  obtain ⟨t, hserialize, -⟩ := serializeWritesTableText s hwf herr
  exact ⟨tableText s, t, hserialize, fun u => parse_tableText hwf⟩

end Sys2Proof.Machine

/-! Proofs for the family of 44_bit_packer.md: a command's bits follow the pending ones, the flush pads them with 0, and a
stream packed command by command is its bits packed in batch. -/

namespace Sys2Proof.Machine

section Packer

variable {s t u : State} {x : Nat} {bits bits' : List Bool} {xs : List Byte}

/-! ### The rules case by case (R212, R213) -/

theorem packSymRule_param (h : 255 < x) : packSymRule x s = .fault .param := if_pos (Nat.not_le.mpr h)

theorem packSymRule_noCode (hx : x ≤ 255) (hv : s.ctValid x = false) : packSymRule x s = .fault .noCode := by
  rw [packSymRule, if_neg (not_not.mpr hx), if_pos hv]

theorem packSymRule_ok (hx : x ≤ 255) (hv : s.ctValid x = true) :
    packSymRule x s = .ok ((s.entry x).len.setWidth 64) (packBits s (s.codeOf x)) := by
  rw [packSymRule, if_neg (not_not.mpr hx), hv, if_neg (by decide), place_zero]

theorem packEndRule_noCode (hv : s.ctValid Config.eos = false) : packEndRule s = .fault .noCode := if_pos hv

theorem packEndRule_ok (hv : s.ctValid Config.eos = true) :
    packEndRule s =
      .ok ((s.entry Config.eos).len.setWidth 64) (packFlush (packBits s (s.codeOf Config.eos))) := by
  rw [packEndRule, hv, if_neg (by decide), place_zero]

/-! ### The partial byte and the bytes emitted as one bit sequence (R34, R63) -/

/-- A state that differs from `s` in the packer alone is `s` with the packer rewritten. -/
theorem eq_of_notPacker (h : t.notPacker = s.notPacker) :
    t = { s with pkAcc := t.pkAcc, pkCnt := t.pkCnt, pkOut := t.pkOut } :=
  congrArg (fun u : State => { u with pkAcc := t.pkAcc, pkCnt := t.pkCnt, pkOut := t.pkOut }) h

/-- The pending bits are the low bits of the accumulator. -/
theorem pending_prefix (s : State) : s.pending <+: byteBits s.pkAcc := by
  have hlt : s.pkCnt.toNat < 8 := s.pkCnt.isLt
  rw [State.pending, byteBits, ← Nat.min_eq_left hlt.le, ← List.take_range]
  exact (List.take_prefix _ _).map _

/-- A byte sequence shows the bits it begins with. -/
theorem streamBit_of_prefix {P : List Byte} {n : Nat} (h : bits <+: bitsOf P) (hn : n < bits.length) :
    streamBit P n = bits.getD n false := by
  obtain ⟨rest, hrest⟩ := h
  rw [streamBit_eq, ← hrest, List.getD_append _ _ _ _ hn]

/-- A bit of the pending ones followed by others. -/
theorem pending_append_getD (s : State) (bits : List Bool) (k : Nat) :
    (s.pending ++ bits).getD k false =
      if k < s.pkCnt.toNat then s.pkAcc.getLsbD k else bits.getD (k - s.pkCnt.toNat) false := by
  split
  · rename_i hk
    rw [List.getD_append _ _ _ _ (by simpa using hk)]
    simp [State.pending, hk]
  · rename_i hk
    rw [List.getD_append_right _ _ _ _ (by simpa using hk), length_pending]

/-! ### Bits appended (R211, R212) -/

/-- From `s` to `t` the packer took `bits`: what it emitted and what it holds are what it held and then `bits`. The table and
the fault register are as they were. -/
structure Appended (s : State) (bits : List Bool) (t : State) : Prop where
  pack : PackOk t
  err  : t.err = s.err
  ct   : t.ct = s.ct
  out  : ∃ out, t.pkOut = s.pkOut ++ out ∧ bitsOf out ++ t.pending = s.pending ++ bits

theorem Appended.refl (h : PackOk s) : Appended s [] s :=
  ⟨h, rfl, rfl, [], (List.append_nil _).symm, (List.append_nil _).symm⟩

theorem Appended.trans (h : Appended s bits t) (h' : Appended t bits' u) : Appended s (bits ++ bits') u := by
  obtain ⟨-, herr, hct, out, hout, hbits⟩ := h
  obtain ⟨hpack, herr', hct', out', hout', hbits'⟩ := h'
  refine ⟨hpack, herr'.trans herr, hct'.trans hct, out ++ out', by rw [hout', hout, List.append_assoc], ?_⟩
  rw [bitsOf_append, List.append_assoc, hbits', ← List.append_assoc, hbits, List.append_assoc]

theorem Appended.respond (h : Appended s bits t) (r : Response) : Appended s bits (t.respond r) :=
  ⟨h.pack, h.err, h.ct, h.out⟩

theorem appended_packBits (bits : List Bool) (h : PackOk s) : Appended s bits (packBits s bits) := by
  obtain ⟨hpack, hframe, hout⟩ := packBits_spec s bits h
  exact ⟨hpack, congrArg (·.err) hframe, congrArg (·.ct) hframe, hout⟩

/-- `PACK.SYM` of a byte with a codeword appends it, issued through `step` (R212). -/
theorem appended_packSym (hpack : PackOk s) (herr : s.err = 0) (hx : x ≤ 255) (hv : s.ctValid x = true) :
    Appended s (s.codeOf x) (issue s (.packSym x)) := by
  rw [issue_of_rule_ok (i := .packSym x) (hx.trans_lt (by decide)) herr (packSymRule_ok hx hv)]
  exact (appended_packBits _ hpack).respond _

/-- `PACK.SYM` of each byte appends the codewords in order. -/
theorem appended_packBytes (hpack : PackOk s) (herr : s.err = 0) (hv : ∀ x ∈ xs, s.ctValid x.toNat = true) :
    Appended s (xs.flatMap fun x => s.codeOf x.toNat) (issueAll s (packBytes xs)) := by
  induction xs generalizing s with
  | nil => exact .refl hpack
  | cons x xs ih =>
    obtain ⟨hx, hrest⟩ := List.forall_mem_cons.mp hv
    have hfirst := appended_packSym hpack herr (Nat.le_of_lt_succ x.isLt) hx
    have hentry := entry_congr hfirst.ct
    have htail := ih hfirst.pack (hfirst.err.trans herr) fun y hy =>
      (congrArg CtEntry.valid (hentry y.toNat)).trans (hrest y hy)
    simp only [State.codeOf, hentry] at htail
    exact hfirst.trans htail

/-! ### The flush (R213) -/

/-- The bits of `PACK.END` and the flush: all go out, with fewer than eight 0 bits after them, and the packer is cleared. -/
theorem packFlush_packBits (bits : List Bool) (h : PackOk s) :
    ∃ out k, packFlush (packBits s bits) = { s with pkAcc := 0, pkCnt := 0, pkOut := s.pkOut ++ out } ∧ k < 8 ∧
      bitsOf out = s.pending ++ bits ++ List.replicate k false := by
  obtain ⟨hpack, hframe, out, hout, hbits⟩ := packBits_spec s bits h
  obtain ⟨hacc, hcnt, hframe', last, k, hlast, hk, hpad⟩ := packFlush_spec _ hpack
  refine ⟨out ++ last, k, ?_, hk, ?_⟩
  · rw [eq_of_notPacker (hframe'.trans hframe), hacc, hcnt, hlast, hout, List.append_assoc]
  · rw [bitsOf_append, hpad, ← List.append_assoc, hbits]

/-- `PACK.END` issued through `step`: the sentinel's codeword goes out after the pending bits, padded. -/
theorem issue_packEnd (hpack : PackOk s) (herr : s.err = 0) (hv : s.ctValid Config.eos = true) :
    ∃ out k r, issue s .packEnd = { s with pkAcc := 0, pkCnt := 0, pkOut := s.pkOut ++ out }.respond r ∧ k < 8 ∧
      bitsOf out = s.pending ++ s.codeOf Config.eos ++ List.replicate k false := by
  obtain ⟨out, k, hflush, hk, hbits⟩ := packFlush_packBits (s.codeOf Config.eos) hpack
  exact ⟨out, k, _, hflush ▸ issue_of_rule_ok (i := .packEnd) trivial herr (packEndRule_ok hv), hk, hbits⟩

end Packer

/-- Settles O44: the rule's checks in their order; where they pass, the bytes emitted and the partial byte begin with the
bits that were pending and the codeword. -/
theorem packSymAppendsCodeword : Obligations.PackSymAppendsCodeword := by
  intro s x
  have hw : encode (.packSym x.toNat) = mkWord 0x40 x 0 :=
    encode_withOperands (c := .packSym 0) x 0 nofun (by decide)
  refine ⟨decode_of_encode_eq x.isLt hw, fun hpack herr => ⟨fun h => ?_, fun hx hv => ?_, fun hx hv => ?_⟩⟩
  · exact exec_of_rule herr hw (packSymRule_param h)
  · exact exec_of_rule herr hw (packSymRule_noCode hx hv)
  · obtain ⟨hpack', hframe, out, hout, hbits⟩ := packBits_spec s (s.codeOf x.toNat) hpack
    have hlen := congrArg List.length hbits
    simp only [List.length_append, length_bitsOf, length_pending] at hlen
    have hcnt : (packBits s (s.codeOf x.toNat)).pkCnt.toNat < 8 := BitVec.isLt _
    refine ⟨_, out, exec_of_rule herr hw (packSymRule_ok hx hv), hout ▸ eq_of_notPacker hframe, hpack', by omega, by omega,
      fun k hk => ?_⟩
    rw [← pending_append_getD]
    refine streamBit_of_prefix ?_ (by rwa [List.length_append, length_pending])
    rw [← hbits, bitsOf_append, bitsOf_singleton]
    exact (List.prefix_append_right_inj _).mpr (pending_prefix _)

/-- Settles O45: the rule's one check; where it passes, the padded bits are the packed form. -/
theorem packEndFlushesStream : Obligations.PackEndFlushesStream := by
  have hw : encode .packEnd = mkWord 0x41 0 0 := rfl
  refine ⟨decode_of_encode_eq trivial hw, fun s hpack herr => ⟨fun hv => ?_, fun hv => ?_⟩⟩
  · exact exec_of_rule herr hw (packEndRule_noCode hv)
  · obtain ⟨out, k, hflush, hk, hbits⟩ := packFlush_packBits (s.codeOf Config.eos) hpack
    exact ⟨_, out, exec_of_rule herr hw (packEndRule_ok hv), hflush, isPacked_of_bitsOf hbits hk⟩

/-- Settles O46: the bytes emitted before `PACK.END` and by it are, as bits, the codewords in order and the padding. -/
theorem streamingEqualsBatch : Obligations.StreamingEqualsBatch := by
  intro s xs hpack herr hcnt heos hxs
  obtain ⟨hpack', herr', hct, out, hout, hbits⟩ := appended_packBytes hpack herr hxs
  have hentry := entry_congr hct Config.eos
  obtain ⟨last, k, r, hend, hk, hpad⟩ := issue_packEnd hpack' (herr'.trans herr)
    ((congrArg CtEntry.valid hentry).trans heos)
  have hcode : (issueAll s (packBytes xs)).codeOf Config.eos = s.codeOf Config.eos := congrArg CtEntry.bits hentry
  have hempty : s.pending = [] := by rw [State.pending, hcnt]; rfl
  rw [issueAll_append, issueAll_cons, issueAll_nil, hend]
  refine ⟨out ++ last, by simp [hout], isPacked_of_bitsOf (k := k) ?_ hk, herr'.trans herr, rfl⟩
  calc bitsOf (out ++ last)
    _ = bitsOf out ++ (issueAll s (packBytes xs)).pending ++ s.codeOf Config.eos ++ List.replicate k false := by
      rw [bitsOf_append, hpad, hcode]
      simp only [List.append_assoc]
    _ = streamBits s xs ++ List.replicate k false := by rw [hbits, hempty, List.nil_append, streamBits]

end Sys2Proof.Machine

/-! Proofs for the family of 45_bit_unpacker.md: one bit by what `Match` finds, a byte as eight bits in order, and a packed
stream decoded codeword by codeword up to the sentinel. -/

namespace Sys2Proof.Machine

section Unpacker

variable {s t : State} {x : Nat} {b : Bool} {v : Byte} {c : FaultCode} {p : List Bool}

/-! ### The rules case by case (R228 to R230) -/

/-- The state that `UNPK.START` leaves: `s` with the unpacker cleared (R228). -/
def State.started (s : State) : State := (s.setUp 0 0).setUpFlags false false

theorem unpkByteRule_ok (h : unpackBits s (byteBits v) = .ok t) :
    unpkByteRule v s = .ok (if t.upDone then 1 else 0) t := by
  have hrd : place (BitVec.ofBool t.upDone) 0 = if t.upDone then 1 else 0 := by cases t.upDone <;> rfl
  rw [unpkByteRule, h, ← hrd]

theorem unpkByteRule_error (h : unpackBits s (byteBits v) = .error c) : unpkByteRule v s = .fault c := by
  rw [unpkByteRule, h]

theorem unpkEndRule_truncated (h : s.upDone = false) : unpkEndRule s = .fault .truncatedStream := if_pos h

theorem unpkEndRule_ok (h : s.upDone = true) : unpkEndRule s = .ok 0 s := if_neg (by simp [h])

/-! ### One bit, by what `Match` finds (R226, R227) -/

/-- What `UnpackBit` does when the symbols `l` match what its bit made of the accumulator (R227). -/
def State.onMatch (s : State) (l : List Nat) : Except FaultCode State :=
  match l with
  | [] => .ok (if s.upLen = BitVec.ofNat 9 Config.lMax then s.setUpFlags true s.upDone else s)
  | [x] => .ok (decoded s x)
  | _ :: _ :: _ => .error .formatError

theorem unpackBit_eq (s : State) (b : Bool) : unpackBit s b =
    if s.upDone || s.upDead then .ok s else (s.accumulate b).onMatch ((s.accumulate b).matchSyms (s.accumulate b).upBits) :=
  rfl

/-- A state whose next bit joins the accumulator: the sentinel has not come, and there is room (R35, R36). -/
structure Listening (s : State) : Prop where
  done : s.upDone = false
  dead : s.upDead = false
  room : s.upLen.toNat < 256

theorem UnpackOk.listening (h : UnpackOk s) (hdone : s.upDone = false) (hdead : s.upDead = false) : Listening s :=
  ⟨hdone, hdead, h.short.lt_of_ne fun hfull => by simp [h.dead.mpr hfull] at hdead⟩

theorem listening_started (s : State) : Listening s.started := ⟨rfl, rfl, Nat.zero_lt_succ _⟩

theorem unpackBit_of_noMatch (h : Listening s) (hm : s.matchSyms (s.upBits ++ [b]) = []) :
    unpackBit s b =
      .ok (if s.upLen.toNat + 1 = 256 then (s.accumulate b).setUpFlags true false else s.accumulate b) := by
  rcases unpackBit_cases s b h.done h.dead h.room with ⟨-, hr⟩ | ⟨x, hx, -⟩ | ⟨⟨x, y, l, hxy⟩, -⟩
  · exact hr
  · rw [hm] at hx; cases hx
  · rw [hm] at hxy; cases hxy

/-- A bit that completes no codeword, and leaves room for another. -/
theorem unpackBit_accumulates (h : Listening s) (hm : s.matchSyms (s.upBits ++ [b]) = []) (hroom : s.upLen.toNat + 1 < 256) :
    unpackBit s b = .ok (s.accumulate b) := by
  rw [unpackBit_of_noMatch h hm, if_neg hroom.ne]

theorem unpackBit_of_match (h : Listening s) (hm : s.matchSyms (s.upBits ++ [b]) = [x]) :
    unpackBit s b = .ok (decoded s x) := by
  rcases unpackBit_cases s b h.done h.dead h.room with ⟨hnil, -⟩ | ⟨y, hy, hr⟩ | ⟨⟨y, z, l, hyz⟩, -⟩
  · rw [hm] at hnil; cases hnil
  · rw [hm] at hy; cases hy; exact hr
  · rw [hm] at hyz; cases hyz

/-- Two different symbols with the codeword completed. -/
theorem unpackBit_of_matches {y : Nat} (h : Listening s) (hx : x ∈ s.matchSyms (s.upBits ++ [b]))
    (hy : y ∈ s.matchSyms (s.upBits ++ [b])) (hxy : x ≠ y) : unpackBit s b = .error .formatError := by
  rcases unpackBit_cases s b h.done h.dead h.room with ⟨hnil, -⟩ | ⟨z, hz, -⟩ | ⟨-, hr⟩
  · rw [hnil] at hx; cases hx
  · rw [hz, List.mem_singleton] at hx hy; exact absurd (hx.trans hy.symm) hxy
  · exact hr

/-! ### Distinct codewords raise no fault (R229) -/

/-- Where codewords are distinct, `Match` finds at most one symbol. -/
theorem DistinctCodes.not_two_matches {y : Nat} {l : List Nat} (h : DistinctCodes s) : s.matchSyms p ≠ x :: y :: l := by
  intro hm
  have hmem := fun z => (mem_matchSyms s p z).mp
  obtain ⟨hx, hxcode⟩ := hmem x (hm ▸ .head _)
  obtain ⟨hy, hycode⟩ := hmem y (hm ▸ .tail _ (.head _))
  obtain rfl : x = y := h x y hx hy (hxcode.trans hycode.symm)
  exact (List.nodup_cons.mp (hm ▸ matchSyms_nodup s p)).1 (.head _)

theorem onMatch_ok {l : List Nat} (h : ∀ x y l', l ≠ x :: y :: l') : ∃ t, s.onMatch l = .ok t := by
  match l with
  | [] => exact ⟨_, rfl⟩
  | [x] => exact ⟨_, rfl⟩
  | x :: y :: l => exact absurd rfl (h x y l)

theorem DistinctCodes.unpackBit_ok (h : DistinctCodes s) (b : Bool) : ∃ t, unpackBit s b = .ok t := by
  rw [unpackBit_eq]
  split
  · exact ⟨s, rfl⟩
  · exact onMatch_ok fun x y l => DistinctCodes.not_two_matches (s := s.accumulate b) h

theorem DistinctCodes.congr (h : DistinctCodes s) (hct : t.ct = s.ct) : DistinctCodes t := by
  simpa only [DistinctCodes, State.ctValid, State.codeOf, entry_congr hct] using h

theorem DistinctCodes.unpackBits_ok (h : DistinctCodes s) (bits : List Bool) : ∃ t, unpackBits s bits = .ok t := by
  induction bits generalizing s with
  | nil => exact ⟨s, rfl⟩
  | cons b bits ih =>
    obtain ⟨t, ht⟩ := h.unpackBit_ok b
    have hct : t.ct = s.ct := congrArg (·.ct) (unpackBit_notUnpacker s b t ht)
    obtain ⟨u, hu⟩ := ih (h.congr hct)
    exact ⟨u, by rw [unpackBits_cons, ht]; exact hu⟩

end Unpacker

/-- Settles O47: `UNPK.START` checks nothing, and `UNPK.END` only `up_done`. -/
theorem unpkStartAndEnd : Obligations.UnpkStartAndEnd := by
  have hstart : encode .unpkStart = mkWord 0x50 0 0 := rfl
  have hend : encode .unpkEnd = mkWord 0x52 0 0 := rfl
  exact ⟨decode_of_encode_eq trivial hstart, decode_of_encode_eq trivial hend, fun s herr =>
    ⟨exec_of_rule herr hstart rfl, fun h => exec_of_rule herr hend (unpkEndRule_truncated h),
      fun h => exec_of_rule herr hend (unpkEndRule_ok h)⟩⟩

/-- Settles O48: the three outcomes of `Match` for the string that the bit makes. -/
theorem unpackBitByCases : Obligations.UnpackBitByCases := by
  intro s b hok
  refine ⟨fun hwf => length_codeOf_le hwf, mem_matchSyms s, unpackBit_ignored s b, fun hdone hdead => ?_⟩
  have hs := hok.listening hdone hdead
  refine ⟨fun hno => ?_, fun x y hx hy hxy hxcode hycode => ?_, fun x hx hcode hunique => ?_⟩
  · have hbit := unpackBit_of_noMatch hs ((matchSyms_eq_nil_iff s _).mpr hno)
    refine ⟨_, hbit, ?_, unpackOk_unpackBit b hok hbit, ?_⟩
    · split <;> exact accumulate_upBits s b hs.room
    · split
      · rw [decide_eq_true (by omega), ← hdone]; rfl
      · rw [decide_eq_false (by omega), ← hdead]; rfl
  · exact unpackBit_of_matches hs ((mem_matchSyms s _ x).mpr ⟨hx, hxcode⟩) ((mem_matchSyms s _ y).mpr ⟨hy, hycode⟩) hxy
  · exact unpackBit_of_match hs (matchSyms_eq_singleton s _ x hx hcode hunique)

/-- Settles O49: the rule runs the eight bits, and a fault of theirs is the command's. -/
theorem unpkByteTakesEightBits : Obligations.UnpkByteTakesEightBits := by
  intro s v
  have hw : encode (.unpkByte v) = mkWord 0x51 0 (v.setWidth 32) := rfl
  refine ⟨decode_of_encode_eq trivial hw, fun herr => ?_⟩
  have hok : ∀ t, unpackBits s (byteBits v) = .ok t →
      exec (.unpkByte v) s = .next (t.respond ⟨.ok, if t.upDone then 1 else 0⟩) :=
    fun t h => exec_of_rule herr hw (unpkByteRule_ok h)
  refine ⟨hok, fun c h => ?_, fun hdistinct => ?_, fun hdone => ?_, fun hdone hdead => ?_⟩
  · obtain rfl := unpackBits_error _ h
    exact ⟨rfl, exec_of_rule herr hw (unpkByteRule_error h)⟩
  · obtain ⟨t, ht⟩ := hdistinct.unpackBits_ok (byteBits v)
    exact ⟨t, _, hok t ht⟩
  · simpa [hdone] using hok s (unpackBits_ignored s _ (.inl hdone))
  · simpa [hdone] using hok s (unpackBits_ignored s _ (.inr hdead))

section Stream

variable {s t u : State} {x k : Nat} {bits p q r : List Bool} {xs P : List Byte}

/-! ### A codeword where none begins another (R227, R231) -/

/-- The bits of a codeword before its last one are accumulated: no codeword begins another. -/
theorem unpackBits_codeword_begun (hfree : PrefixFree s) (hv : s.ctValid x = true) (hlen : (s.codeOf x).length ≤ 256)
    (hs : Listening s) (hcode : s.codeOf x = s.upBits ++ (p ++ r)) (hr : r ≠ []) :
    ∃ acc len, unpackBits s p = .ok (s.setUp acc len) ∧ Listening (s.setUp acc len) ∧
      (s.setUp acc len).upBits = s.upBits ++ p := by
  induction p generalizing s with
  | nil => exact ⟨s.upAcc, s.upLen, rfl, hs, (List.append_nil _).symm⟩
  | cons b p ih =>
    have hnext := accumulate_upBits s b hs.room
    rw [List.cons_append, List.append_cons] at hcode
    have hnone : s.matchSyms (s.upBits ++ [b]) = [] := by
      refine (matchSyms_eq_nil_iff s _).mpr fun y hy hycode => ?_
      obtain rfl := hfree y x hy hv (hycode ▸ hcode ▸ List.prefix_append _ _)
      rw [hycode, List.self_eq_append_right, List.append_eq_nil_iff] at hcode
      exact hr hcode.2
    have hroom : s.upLen.toNat + 1 < 256 := by
      have hsum := congrArg List.length hcode
      have hpos := List.length_pos_iff.mpr hr
      simp only [List.length_append, List.length_singleton, length_upBits] at hsum
      omega
    obtain ⟨acc, len, hp, hlisten, hbits⟩ := ih (s := s.accumulate b) hfree hv hlen
      ⟨hs.done, hs.dead, (toNat_succ_upLen s hs.room).trans_lt hroom⟩ (hnext ▸ hcode)
    refine ⟨acc, len, ?_, hlisten, ?_⟩
    · rw [unpackBits_cons, unpackBit_accumulates hs hnone hroom]
      exact hp
    · rw [List.append_cons, ← hnext]
      exact hbits

/-- A whole codeword, from an empty accumulator, is decoded. -/
theorem unpackBits_codeword (hfree : PrefixFree s) (hv : s.ctValid x = true) (hlen : (s.codeOf x).length ≤ 256)
    (hne : s.codeOf x ≠ []) : unpackBits s.started (s.codeOf x) = .ok (decoded s.started x) := by
  obtain ⟨p, b, hsplit⟩ := (List.eq_nil_or_concat' (s.codeOf x)).resolve_left hne
  obtain ⟨acc, len, hp, hlisten, hbits⟩ := unpackBits_codeword_begun (s := s.started) hfree hv hlen (listening_started s)
    hsplit (List.cons_ne_nil b [])
  have hmatch : (s.started.setUp acc len).matchSyms ((s.started.setUp acc len).upBits ++ [b]) = [x] := by
    rw [hbits]
    exact matchSyms_eq_singleton s _ x hv hsplit fun y hy hycode => hfree y x hy hv (hycode ▸ hsplit ▸ List.prefix_rfl)
  rw [hsplit, unpackBits_append, hp]
  change (unpackBit (s.started.setUp acc len) b).bind .ok = _
  rw [unpackBit_of_match hlisten hmatch]
  rfl

/-! ### A packed stream (R231, R232) -/

/-- `P` is a packed stream of the bytes `xs`, under the table of `s`, which is one that R231 speaks of. -/
structure PackedStream (s : State) (xs P : List Byte) : Prop where
  code  : Decodable s
  short : ∀ x, (s.codeOf x).length ≤ 256
  valid : ∀ x ∈ xs, s.ctValid x.toNat = true
  bits  : ∃ k < 8, bitsOf P = streamBits s xs ++ List.replicate k false

/-- The codewords of bytes, from a cleared unpacker, emit the bytes. -/
theorem unpackBits_codewords (hcode : Decodable s) (hshort : ∀ x, (s.codeOf x).length ≤ 256)
    (hxs : ∀ x ∈ xs, s.ctValid x.toNat = true) :
    unpackBits s.started (xs.flatMap fun x => s.codeOf x.toNat) = .ok { s.started with upOut := s.upOut ++ xs } := by
  induction xs generalizing s with
  | nil => rw [List.append_nil]; rfl
  | cons x xs ih =>
    obtain ⟨hx, hxs⟩ := List.forall_mem_cons.mp hxs
    have hemit : decoded s.started x.toNat = (s.emitUp x).started := by
      rw [decoded, if_neg (Nat.ne_of_lt x.isLt), BitVec.ofNat_toNat, BitVec.setWidth_eq]; rfl
    have hrest := ih (s := s.emitUp x) ⟨hcode.prefixFree, hcode.nonEmpty, hcode.sentinel⟩ hshort hxs
    rw [State.emitUp_upOut, List.append_assoc, List.singleton_append] at hrest
    rw [List.flatMap_cons, unpackBits_append, unpackBits_codeword hcode.prefixFree hx (hshort _) (hcode.nonEmpty _ hx), hemit]
    exact hrest

/-- The whole stream's bits emit the bytes, and the sentinel ends it. -/
theorem unpackBits_streamBits (hcode : Decodable s) (hshort : ∀ x, (s.codeOf x).length ≤ 256)
    (hxs : ∀ x ∈ xs, s.ctValid x.toNat = true) :
    unpackBits s.started (streamBits s xs) = .ok { s.started with upOut := s.upOut ++ xs, upDone := true } := by
  rw [streamBits, unpackBits_append, unpackBits_codewords hcode hshort hxs]
  exact unpackBits_codeword (s := { s with upOut := s.upOut ++ xs }) hcode.prefixFree hcode.sentinel (hshort _)
    (hcode.nonEmpty _ hcode.sentinel)

/-- A block that has not met the sentinel had not met it before. -/
theorem not_upDone_of_append (h : unpackBits s (p ++ q) = .ok t) (hdone : t.upDone = false) :
    ∃ u, unpackBits s p = .ok u ∧ u.upDone = false := by
  rw [unpackBits_append] at h
  cases hp : unpackBits s p with
  | error c => rw [hp] at h; cases h
  | ok u =>
    refine ⟨u, rfl, Bool.eq_false_iff.mpr fun hu => ?_⟩
    have hsame : unpackBits u q = .ok t := by rw [hp] at h; exact h
    rw [unpackBits_ignored u q (.inl hu)] at hsame
    cases hsame
    rw [hu] at hdone
    cases hdone

/-- Before the stream's last bit the sentinel has not been met. -/
theorem not_upDone_before_end (hcode : Decodable s) (hshort : ∀ x, (s.codeOf x).length ≤ 256)
    (hxs : ∀ x ∈ xs, s.ctValid x.toNat = true) (hp : streamBits s xs = p ++ r) (hr : r ≠ []) :
    ∃ t, unpackBits s.started p = .ok t ∧ t.upDone = false := by
  obtain ⟨c, b, hlast⟩ := (List.eq_nil_or_concat' (s.codeOf Config.eos)).resolve_left (hcode.nonEmpty _ hcode.sentinel)
  obtain ⟨r, d, rfl⟩ := (List.eq_nil_or_concat' r).resolve_left hr
  obtain ⟨acc, len, hbegun, -⟩ := unpackBits_codeword_begun (s := { s.started with upOut := s.upOut ++ xs })
    hcode.prefixFree hcode.sentinel (hshort _) (listening_started { s with upOut := s.upOut ++ xs }) hlast
    (List.cons_ne_nil b [])
  have hbits : (xs.flatMap fun x => s.codeOf x.toNat) ++ c = p ++ r := by
    rw [streamBits, hlast, ← List.append_assoc, ← List.append_assoc] at hp
    exact (List.append_inj' hp rfl).1
  refine not_upDone_of_append (q := r) (t := ({ s.started with upOut := s.upOut ++ xs } : State).setUp acc len) ?_ rfl
  rw [← hbits, unpackBits_append, unpackBits_codewords hcode hshort hxs]
  exact hbegun

/-! ### Bytes issued through `step` (R229) -/

theorem onMatch_respond (s : State) (r : Response) (l : List Nat) :
    (s.respond r).onMatch l = (s.onMatch l).map (·.respond r) := by
  match l with
  | [] =>
    have hfull := apply_ite (State.respond · r) (s.upLen = BitVec.ofNat 9 Config.lMax) (s.setUpFlags true s.upDone) s
    exact congrArg Except.ok hfull.symm
  | [x] =>
    have hsym := apply_ite (State.respond · r) (x = Config.eos) ((s.setUp 0 0).setUpFlags s.upDead true)
      ((s.setUp 0 0).emitUp (BitVec.ofNat 8 x))
    exact congrArg Except.ok hsym.symm
  | _ :: _ :: _ => rfl

/-- The unpacker does not read the response record (R39, log 3). -/
theorem unpackBit_respond (s : State) (r : Response) (b : Bool) :
    unpackBit (s.respond r) b = (unpackBit s b).map (·.respond r) := by
  rw [unpackBit_eq, unpackBit_eq, apply_ite (Except.map (State.respond · r)), ← onMatch_respond]
  rfl

theorem unpackBits_respond (s : State) (r : Response) (bits : List Bool) :
    unpackBits (s.respond r) bits = (unpackBits s bits).map (·.respond r) := by
  induction bits generalizing s with
  | nil => rfl
  | cons b bits ih =>
    rw [unpackBits_cons, unpackBits_cons, unpackBit_respond]
    cases unpackBit s b with
    | error c => rfl
    | ok t => exact ih t

theorem unpackBits_err (h : unpackBits s bits = .ok t) : t.err = s.err :=
  congrArg (·.err) (unpackBits_notUnpacker s bits t h)

/-- `UNPK.BYTE` of each byte feeds the bytes' bits in order, and leaves but its responses besides. -/
theorem issueAll_unpkBytes (herr : s.err = 0) (h : unpackBits s (bitsOf P) = .ok t) :
    ∃ rs, issueAll s (unpkBytes P) = { t with resps := rs } := by
  induction P generalizing s t with
  | nil => cases h; exact ⟨s.resps, rfl⟩
  | cons v P ih =>
    rw [← List.singleton_append, bitsOf_append, bitsOf_singleton, unpackBits_append] at h
    cases hv : unpackBits s (byteBits v) with
    | error c => rw [hv] at h; cases h
    | ok u =>
      rw [hv] at h
      have hu : unpackBits u (bitsOf P) = .ok t := h
      have hissue := issue_of_rule_ok (i := .unpkByte v) trivial herr (unpkByteRule_ok hv)
      have hrest : unpackBits (issue s (.unpkByte v)) (bitsOf P) = .ok (t.respond ⟨.ok, if u.upDone then 1 else 0⟩) := by
        rw [hissue, unpackBits_respond, hu]; rfl
      exact ih (t := t.respond _) (by rw [hissue]; exact (unpackBits_err hv).trans herr) hrest

theorem issueAll_unpkStart_unpkBytes (herr : s.err = 0) (h : unpackBits s.started (bitsOf P) = .ok t) :
    ∃ rs, issueAll s (.unpkStart :: unpkBytes P) = { t with resps := rs } := by
  have hstart : issue s .unpkStart = s.started.respond ⟨.ok, 0⟩ := issue_of_rule_ok trivial herr rfl
  rw [issueAll_cons, hstart]
  exact issueAll_unpkBytes (t := t.respond ⟨.ok, 0⟩) herr (by rw [unpackBits_respond, h]; rfl)

theorem issue_unpkEnd_of_upDone (herr : s.err = 0) (h : s.upDone = true) : issue s .unpkEnd = s.respond ⟨.ok, 0⟩ :=
  issue_of_rule_ok trivial herr (unpkEndRule_ok h)

theorem issue_unpkEnd_truncated (herr : s.err = 0) (h : s.upDone = false) :
    issue s .unpkEnd = raiseFault (encode .unpkEnd) .truncatedStream s := by
  rw [issue_of_not_faulted trivial herr, ruleOf, unpkEndRule_truncated h, complete_fault]

/-! ### What packing emits, unpacked (R231, R232) -/

/-- The packed form of bits is these bits and fewer than eight 0 bits. -/
theorem bitsOf_of_isPacked (h : IsPacked bits P) : ∃ k < 8, bitsOf P = bits ++ List.replicate k false := by
  obtain ⟨hlen, hbit⟩ := h
  refine ⟨8 * P.length - bits.length, by omega, List.ext_getElem (by simp; omega) fun n hn hn' => ?_⟩
  rw [← List.getD_eq_getElem _ false hn, ← List.getD_eq_getElem _ false hn', ← streamBit_eq, hbit n (by simpa using hn)]
  by_cases hin : n < bits.length
  · rw [List.getD_append _ _ _ _ hin]
  · rw [List.getD_append_right _ _ _ _ (not_lt.mp hin), List.getD_eq_default _ _ (not_lt.mp hin)]
    exact (List.getElem?_getD_replicate_default_eq _ _ _).symm

theorem Decodable.congr (h : Decodable s) (hct : u.ct = s.ct) : Decodable u := by
  obtain ⟨hfree, hne, heos⟩ := h
  constructor <;> simpa only [PrefixFree, State.ctValid, State.codeOf, entry_congr hct]

/-- What packing emits is a packed stream in any block with the same table. -/
theorem packedStream_of_issueAll (hwf : Memory.wf s = true) (hcode : Decodable s) (hpack : PackOk s) (herr : s.err = 0)
    (hcnt : s.pkCnt = 0) (hxs : ∀ x ∈ xs, s.ctValid x.toNat = true)
    (hP : (issueAll s (packBytes xs ++ [.packEnd])).pkOut = s.pkOut ++ P) (hct : u.ct = s.ct) : PackedStream u xs P := by
  obtain ⟨Q, hQ, hpacked, -⟩ := streamingEqualsBatch s xs hpack herr hcnt hcode.sentinel hxs
  obtain rfl : P = Q := List.append_cancel_left (hP.symm.trans hQ)
  have hcodeOf : ∀ x, u.codeOf x = s.codeOf x := fun x => congrArg CtEntry.bits (entry_congr hct x)
  refine ⟨hcode.congr hct, fun x => hcodeOf x ▸ length_codeOf_le hwf x, fun x hx => ?_, ?_⟩
  · exact (congrArg CtEntry.valid (entry_congr hct x.toNat)).trans (hxs x hx)
  · simpa only [streamBits, hcodeOf] using bitsOf_of_isPacked hpacked

/-- The bytes of a packed stream, after `UNPK.START`, emit what was packed and meet the sentinel (R231). -/
theorem PackedStream.decodes (h : PackedStream u xs P) (herr : u.err = 0) :
    (issueAll u (.unpkStart :: unpkBytes P)).err = 0 ∧ (issueAll u (.unpkStart :: unpkBytes P)).upOut = u.upOut ++ xs ∧
      (issueAll u (.unpkStart :: unpkBytes P)).upDone = true := by
  obtain ⟨hcode, hshort, hvalid, k, -, hbits⟩ := h
  have hall : unpackBits u.started (bitsOf P) = .ok { u.started with upOut := u.upOut ++ xs, upDone := true } := by
    rw [hbits, unpackBits_append, unpackBits_streamBits hcode hshort hvalid]
    exact unpackBits_ignored _ _ (.inl rfl)
  obtain ⟨rs, hissue⟩ := issueAll_unpkStart_unpkBytes herr hall
  rw [hissue]
  exact ⟨herr, rfl, rfl⟩

/-- Fewer bytes end inside the stream's bits, since the last byte holds at least one of them (R232). -/
theorem PackedStream.exists_rest (h : PackedStream u xs P) (hk : k < P.length) :
    ∃ r, r ≠ [] ∧ streamBits u xs = bitsOf (P.take k) ++ r := by
  obtain ⟨-, -, -, n, hn, hbits⟩ := h
  have hlen := congrArg List.length hbits
  rw [List.length_append, List.length_replicate, length_bitsOf] at hlen
  have htake : (bitsOf (P.take k)).length < (streamBits u xs).length := by
    rw [length_bitsOf, List.length_take]; omega
  have hall : bitsOf (P.take k) ++ bitsOf (P.drop k) = bitsOf P := by rw [← bitsOf_append, List.take_append_drop]
  obtain ⟨r, hr⟩ := List.prefix_of_prefix_length_le ⟨_, hall⟩ ⟨_, hbits.symm⟩ htake.le
  refine ⟨r, ?_, hr.symm⟩
  rintro rfl
  rw [List.append_nil] at hr
  exact htake.ne (congrArg List.length hr)

/-- Fewer bytes, after `UNPK.START`, do not meet the sentinel and raise no fault (R232). -/
theorem PackedStream.take_undone (h : PackedStream u xs P) (herr : u.err = 0) (hk : k < P.length) :
    (issueAll u (.unpkStart :: unpkBytes (P.take k))).upDone = false ∧
      (issueAll u (.unpkStart :: unpkBytes (P.take k))).err = 0 := by
  obtain ⟨r, hr, hbits⟩ := h.exists_rest hk
  obtain ⟨t, ht, hdone⟩ := not_upDone_before_end h.code h.short h.valid hbits hr
  obtain ⟨rs, hissue⟩ := issueAll_unpkStart_unpkBytes herr ht
  rw [hissue]
  exact ⟨hdone, (unpackBits_err ht).trans herr⟩

end Stream

/-- Settles O50: the stream's bits are decoded codeword by codeword, the padding is ignored, and `UNPK.END` accepts. -/
theorem decodingInvertsPacking : Obligations.DecodingInvertsPacking := by
  intro s u xs P hwf hcode hpack herr hcnt hxs hP hct hu
  obtain ⟨herr', hout, hdone⟩ := (packedStream_of_issueAll hwf hcode hpack herr hcnt hxs hP hct).decodes hu
  rw [issueAll_append, issueAll_cons, issueAll_nil, issue_unpkEnd_of_upDone herr' hdone]
  exact ⟨herr', hout, hdone⟩

/-- Settles O51: the sentinel's last bit is in the last byte. -/
theorem lastByteIsNeeded : Obligations.LastByteIsNeeded := by
  intro s u xs P hwf hcode hpack herr hcnt hxs hP hct hu
  have hstream := packedStream_of_issueAll hwf hcode hpack herr hcnt hxs hP hct
  obtain ⟨-, -, hall⟩ := hstream.decodes hu
  refine ⟨hall, fun k hk => ?_⟩
  obtain ⟨hdone, herr'⟩ := hstream.take_undone hu hk
  refine ⟨hdone, ?_⟩
  rw [issueAll_append, issueAll_cons, issueAll_nil, issue_unpkEnd_truncated herr' hdone]
  rfl

end Sys2Proof.Machine

/-! Proofs for the family of 46_control_and_host.md: the control commands, `BUILD` as a sequence of `MERGE` commands, and a
whole run of `COMPRESS` and `DECOMPRESS`, stage by stage. -/

namespace Sys2Proof.Machine

section Control

variable {s : State}

/-! ### The control commands (R245, R247, R248) -/

theorem err_ne_zero_iff : s.err ≠ 0 ↔ s.faulted = true := by simp [State.faulted]

/-- A command whose rule leaves the block as it is, and which runs faulted or not, leaves but its response. -/
theorem exec_of_rule_unchanged {i : Instr} {rd : Word} (hi : i.runsFaulted = true) (hrule : ruleOf i s = .ok rd s) :
    exec i s = .next { s with resps := s.resps ++ [⟨.ok, rd⟩] } := by
  rw [exec_always i s hi, always, hrule]
  rfl

/-- Every bit of the data word of `STATUS` (R247). -/
theorem statusWord_fields (s : State) :
    (statusWord s).extractLsb' 0 4 = s.err ∧ (statusWord s).extractLsb' 4 9 = BitVec.ofNat 9 s.hsize ∧
      (statusWord s).extractLsb' 13 10 = BitVec.ofNat 10 s.ncount ∧ (statusWord s).extractLsb' 23 10 = s.root ∧
      (statusWord s).extractLsb' 33 3 = s.pkCnt ∧ (statusWord s).extractLsb' 36 9 = s.upLen ∧
      (statusWord s).extractLsb' 45 1 = BitVec.ofBool s.upDone ∧ (statusWord s).extractLsb' 46 1 = BitVec.ofBool s.upDead ∧
      (statusWord s).extractLsb' 47 17 = 0 := by
  unfold statusWord
  simp (disch := decide) [BitVec.extractLsb'_or, extractLsb'_place_self, extractLsb'_place_of_disjoint]

theorem getLsbD_of_extractLsb'_one {w : Word} {k : Nat} {b : Bool} (h : w.extractLsb' k 1 = BitVec.ofBool b) :
    w.getLsbD k = b := by
  simpa using congrArg (·.getLsbD 0) h

end Control

/-- Settles O16: the rule of `NOP` writes nothing, and a faulted block does not run it. -/
theorem nopDoesNothing : Obligations.NopDoesNothing := by
  refine ⟨decode_of_encode_eq (i := .nop) trivial rfl, fun s herr => ?_, fun s herr => ?_⟩
  · exact exec_of_rule (i := .nop) herr rfl rfl
  · rw [exec_of_faulted .nop s (err_ne_zero_iff.mp herr) rfl, refuse, place_zero]
    rfl

/-- Settles O18: each register is placed in bits of its own. -/
theorem statusShowsScalarRegisters : Obligations.StatusShowsScalarRegisters := by
  refine ⟨decode_of_encode_eq (i := .status) trivial rfl, fun s => ⟨statusWord s, exec_of_rule_unchanged rfl rfl, ?_⟩⟩
  obtain ⟨herr, hhsize, hncount, hroot, hcnt, hlen, hdone, hdead, hzero⟩ := statusWord_fields s
  exact ⟨herr, hhsize, hncount, hroot, hcnt, hlen, getLsbD_of_extractLsb'_one hdone, getLsbD_of_extractLsb'_one hdead, hzero⟩

/-- Settles O19: the rule of `ERRCMD` writes nothing, and the invariant ties the two fault registers. -/
theorem errcmdShowsFaultingWord : Obligations.ErrcmdShowsFaultingWord :=
  ⟨decode_of_encode_eq (i := .errcmd) trivial rfl, fun _ => exec_of_rule_unchanged rfl rfl, fun _ h => h.fault.cmd⟩

section Merges

variable {s t u : State}

/-! ### `BUILD` as `MERGE` commands (R259) -/

/-- `v` is `u` but for `root` and the responses, which no merge step reads. -/
def UpToRoot (u v : State) : Prop := ∃ root resps, v = { u with root := root, resps := resps }

/-- `MERGE`, where its checks pass, makes a merge step, and leaves no root. -/
theorem issue_merge (herr : s.err = 0) (h2 : 2 ≤ s.hsize) (hn : s.ncount ≠ 513) (hsum : s.mergeSum < 2 ^ 32) :
    ∃ rd, issue s .merge = (s.merged.setRoot Config.nil).respond ⟨.ok, rd⟩ :=
  ⟨_, issue_of_rule_ok (i := .merge) trivial herr
    ((mergeRule_of_two h2).trans ((if_neg hn).trans (if_neg (Nat.not_le.mpr hsum))))⟩

/-- `MERGE` commands, one for each step that the loop of `BUILD` takes, follow the loop (R154, R259). -/
theorem issueAll_merges {n fuel : Nat} (hu : UpToRoot u s) (herr : u.err = 0) (hh : HeapOk u) (ht : TreeOk u)
    (hsize : u.hsize = n + 1) (hfuel : n ≤ fuel) (hloop : mergeLoop fuel u = .ok t) :
    UpToRoot t (issueAll s (List.replicate n .merge)) := by
  induction n generalizing s u fuel with
  | zero =>
    rw [mergeLoop_of_hsize_le_one fuel hsize.le] at hloop
    cases hloop
    exact hu
  | succ n ih =>
    obtain ⟨fuel, rfl⟩ := Nat.exists_eq_add_one.mpr (Nat.zero_lt_of_lt hfuel)
    have h2 : 2 ≤ u.hsize := by omega
    have hn := ncount_lt_of_two_entries hh ht h2
    rw [mergeLoop_succ_of_two fuel hh ht h2] at hloop
    split_ifs at hloop with hsum
    have hsum' := Nat.not_le.mp hsum
    obtain ⟨hh', ht'⟩ := merged_ok hn hh ht h2 hsum'
    obtain ⟨root, resps, rfl⟩ := hu
    obtain ⟨rd, hissue⟩ := issue_merge (s := { u with root := root, resps := resps }) herr h2 hn.ne hsum'
    rw [List.replicate_succ, issueAll_cons, hissue]
    exact ih (u := u.merged) ⟨_, _, rfl⟩ herr hh' ht' (by rw [merged_hsize h2]; omega) (Nat.le_of_succ_le_succ hfuel) hloop

/-- `BUILD` of one entry makes a root of it. -/
theorem issue_build_of_one {r : NodeIdx} (herr : s.err = 0) (hr : s.heap = [r]) :
    ∃ rd, issue s .build = (s.rootAt r).respond ⟨.ok, rd⟩ := by
  have hone : s.hsize = 1 := congrArg List.length hr
  have hloop := mergeLoop_of_hsize_le_one s.hsize hone.le
  exact ⟨_, issue_of_rule_ok (i := .build) trivial herr (buildRule_of_ok hone.ge hloop hr)⟩

end Merges

/-- Settles O34: the merges follow the loop of `BUILD` on everything but `root`, which the last `BUILD` writes. -/
theorem buildEqualsMerges : Obligations.BuildEqualsMerges := by
  intro s t rd h hexec hresps
  have herr := err_of_answer_ok rfl hexec hresps
  obtain ⟨u, hrule, rfl⟩ := ruleOf_of_answer_ok hexec hresps
  have hbuild : buildRule s = .ok rd u := hrule
  have hpos : 1 ≤ s.hsize := Nat.one_le_iff_ne_zero.mpr fun hzero => by
    rw [buildRule, if_pos hzero] at hbuild
    cases hbuild
  rcases mergeLoop_outcome s.hsize h.heap h.tree hpos (Nat.le_succ _) with ⟨herror, -⟩ | ⟨v, hloop, hone⟩
  · rw [buildRule_of_error hpos herror] at hbuild
    cases hbuild
  obtain ⟨r, hr⟩ := List.length_eq_one_iff.mp hone
  obtain ⟨root, resps, hmerges⟩ := issueAll_merges (s := s) (n := s.hsize - 1) ⟨s.root, s.resps, rfl⟩ herr h.heap h.tree
    (by omega) (by omega) hloop
  have hverr : v.err = 0 := (congrArg (·.err) (mergeLoop_rest _ hloop)).trans herr
  obtain ⟨rd', hlast⟩ := issue_build_of_one (s := { v with root := root, resps := resps }) hverr hr
  rw [buildRule_of_ok hpos hloop hr] at hbuild
  cases hbuild
  rw [issueAll_append, hmerges, issueAll_cons, issueAll_nil, hlast]
  rfl

section Calls

variable {s t : State} {i : Instr} {is js : List Instr} {rd : Word}

/-! ### Commands that succeed as calls -/

/-- A command of a block that is not faulted, whose rule answers `OK`, succeeds as a call. -/
theorem call_of_rule_ok (hi : i.WellFormed) (herr : s.err = 0) (hrule : ruleOf i s = .ok rd t) :
    call s i = .ok (t.respond ⟨.ok, rd⟩) := by
  have hissue := issue_of_rule_ok hi herr hrule
  rw [call_of_issue hissue, hissue]

/-- `RESET` succeeds as a call, faulted or not (R246). -/
theorem call_reset (s : State) : call s .reset = .ok ((resetBlock s).respond ⟨.ok, 0⟩) := by
  have hissue : issue s .reset = (resetBlock s).respond ⟨.ok, 0⟩ := issue_eq .reset rfl (exec_always .reset s rfl)
  rw [call_of_issue hissue, hissue]

/-- No fault code is 0, the value of `ERR` when there is no fault (R271). -/
theorem code_ne_zero (c : FaultCode) : c.code ≠ 0 := by cases c <;> decide

/-- A command that a faulted block refuses, and that never answers `NONE`: without a fault it answers `OK`. -/
structure Acts (i : Instr) : Prop where
  fits    : i.WellFormed
  refused : i.runsFaulted = false
  answers : ∀ s, ruleOf i s ≠ .none

/-- A block that is not faulted after such a command was not before, and the command succeeds as a call (R278, R280). -/
theorem Acts.call_ok (hi : Acts i) (h : (issue s i).err = 0) : s.err = 0 ∧ call s i = .ok (issue s i) := by
  have hd := decodeOfEncodeIsIdentity i hi.fits
  cases hf : s.faulted with
  | true =>
    rw [issue_eq i hd (exec_of_faulted i s hf hi.refused)] at h
    exact absurd hf (by simpa [State.faulted, refuse] using h)
  | false =>
    have herr : s.err = 0 := by simpa [State.faulted] using hf
    refine ⟨herr, ?_⟩
    cases hrule : ruleOf i s with
    | ok rd t => exact call_of_issue (issue_of_rule_ok hi.fits herr hrule)
    | none => exact absurd hrule (hi.answers s)
    | fault c =>
      rw [issue_of_not_faulted hi.fits herr, hrule] at h
      exact absurd h (code_ne_zero c)

/-- The same of commands in order. -/
theorem callAll_ok_of_acts (his : ∀ i ∈ is, Acts i) (h : (issueAll s is).err = 0) :
    s.err = 0 ∧ callAll s is = .ok (issueAll s is) := by
  induction is generalizing s with
  | nil => exact ⟨h, rfl⟩
  | cons i is ih =>
    obtain ⟨hi, his⟩ := List.forall_mem_cons.mp his
    obtain ⟨herr, hcalls⟩ := ih his h
    obtain ⟨herr', hcall⟩ := hi.call_ok herr
    exact ⟨herr', by rw [callAll_cons, hcall]; exact hcalls⟩

theorem acts_packSym {x : Nat} (hx : x ≤ 255) : Acts (.packSym x) :=
  ⟨hx.trans_lt (by decide), rfl, fun s => by simp only [ruleOf, packSymRule]; split_ifs <;> exact nofun⟩

theorem acts_packEnd : Acts .packEnd :=
  ⟨trivial, rfl, fun s => by simp only [ruleOf, packEndRule]; split_ifs <;> exact nofun⟩

theorem acts_unpkByte (v : Byte) : Acts (.unpkByte v) :=
  ⟨trivial, rfl, fun s => by simp only [ruleOf, unpkByteRule]; split <;> exact nofun⟩

theorem acts_packing (xs : List Byte) : ∀ i ∈ packBytes xs ++ [.packEnd], Acts i := by
  intro i hi
  rcases List.mem_append.mp hi with hbyte | hend
  · obtain ⟨x, -, rfl⟩ := List.mem_map.mp hbyte
    exact acts_packSym (Nat.le_of_lt_succ x.isLt)
  · obtain rfl := List.mem_singleton.mp hend
    exact acts_packEnd

theorem acts_unpkBytes (P : List Byte) : ∀ i ∈ unpkBytes P, Acts i := by
  intro i hi
  obtain ⟨v, -, rfl⟩ := List.mem_map.mp hi
  exact acts_unpkByte v

end Calls

section Leaves

variable {s t : State} {S : List Byte} {x y n : Nat} {c : Weight}

/-! ### The frequency count (R251, R257) -/

/-- The counts sum to one more than the input's length: every byte is counted once, and the sentinel. -/
theorem sum_freq (S : List Byte) : ∑ x ∈ Finset.range 257, freq S x = S.length + 1 := by
  have hbytes : ∑ x ∈ Finset.range 256, freq S x = S.length := by
    induction S with
    | nil => exact Finset.sum_eq_zero fun x hx => if_neg (Finset.mem_range.mp hx).ne
    | cons b S ih =>
      have hcons : ∀ x ∈ Finset.range 256, freq (b :: S) x = freq S x + if b.toNat = x then 1 else 0 := fun x hx => by
        have hne : x ≠ Config.eos := (Finset.mem_range.mp hx).ne
        simp only [freq, if_neg hne, List.countP_cons, beq_iff_eq]
      rw [Finset.sum_congr rfl hcons, Finset.sum_add_distrib, ih, Finset.sum_ite_eq,
        if_pos (Finset.mem_range.mpr b.isLt), List.length_cons]
  rw [Finset.sum_range_succ, hbytes]
  rfl

theorem freq_le (hx : x < 257) : freq S x ≤ S.length + 1 :=
  sum_freq S ▸ Finset.single_le_sum (fun _ _ => Nat.zero_le _) (Finset.mem_range.mpr hx)

theorem freq_eos_ne_zero (S : List Byte) : freq S Config.eos ≠ 0 := Nat.one_ne_zero

theorem freq_ne_zero_of_mem {b : Byte} (hb : b ∈ S) : freq S b.toNat ≠ 0 := by
  have hpos : 0 < S.countP (fun a => a.toNat == b.toNat) := List.countP_pos_iff.mpr ⟨b, hb, beq_self_eq_true _⟩
  rw [freq, if_neg (Nat.ne_of_lt b.isLt)]
  exact hpos.ne'

/-! ### Adding a leaf (R151) -/

/-- The state that `LEAF` leaves. -/
def State.withLeaf (s : State) (x : Nat) (c : Weight) : State :=
  (((s.allocNode (leafNode x c)).setLeafSeen x).heapInsert s.nextIdx).setRoot Config.nil

theorem leafRule_ok (h : Inv s) (hx : x ≤ 256) (hc : c ≠ 0) (hseen : s.leafSeen x = false) :
    leafRule x c s = .ok (rdNode s.nextIdx c) (s.withLeaf x c) := by
  obtain ⟨hn, hz⟩ := room_of_not_seen h.heap h.tree hx hseen
  rw [leafRule_of_not_seen hx hc hseen, if_neg (not_or.mpr ⟨hn.ne, hz.ne⟩)]
  rfl

theorem withLeaf_heap_perm (s : State) (x : Nat) (c : Weight) : (s.withLeaf x c).heap.Perm (s.nextIdx :: s.heap) :=
  heapPush_perm _ _ _

theorem withLeaf_node_nextIdx (hn : s.ncount < 1024) : (s.withLeaf x c).node s.nextIdx.toNat = leafNode x c := by
  rw [toNat_nextIdx s hn]
  exact node_allocNode_new s (leafNode x c)

theorem withLeaf_weightOf {i : NodeIdx} (hi : i.toNat < s.ncount) : (s.withLeaf x c).weightOf i = s.weightOf i :=
  weightOf_allocNode s (leafNode x c) i hi

theorem withLeaf_totalWeight (h : HeapOk s) (hn : s.ncount < 1024) :
    totalWeight (s.withLeaf x c) (s.withLeaf x c).heap = totalWeight s s.heap + c.toNat := by
  have hold : totalWeight (s.withLeaf x c) s.heap = totalWeight s s.heap :=
    totalWeight_congr fun i hi => withLeaf_weightOf (h.owned i hi).1
  have hnew : (s.withLeaf x c).weightOf s.nextIdx = c := congrArg Node.weight (withLeaf_node_nextIdx hn)
  rw [totalWeight_perm (withLeaf_heap_perm s x c), totalWeight_cons, hold, hnew, Nat.add_comm]

/-- The heap's trees gain the leaf added. -/
theorem withLeaf_heapHasLeaf_iff (r : Response) (h : Inv s) (hx : x < 257) :
    ((s.withLeaf x c).respond r).HeapHasLeaf y ↔ y = x ∨ s.HeapHasLeaf y := by
  set u := (s.withLeaf x c).respond r
  have hkept : NodesKept (.leaf x c) s u := (nodesKept_allocNode (leafNode x c)).congr rfl
  have hnode : u.node s.nextIdx.toNat = leafNode x c := withLeaf_node_nextIdx (h.ncount_le.trans_lt (by decide))
  have hsym : (leafNode x c).sym.toNat = x := (BitVec.toNat_ofNat x 9).trans (Nat.mod_eq_of_lt (by omega))
  have hnew : u.HasLeaf s.nextIdx y ↔ y = x := by
    rw [hasLeaf_leaf_iff (by rw [hnode]; rfl), hnode, hsym, eq_comm]
  have hold : (∃ i ∈ s.heap, u.HasLeaf i y) ↔ s.HeapHasLeaf y :=
    exists_congr fun i => and_congr_right fun hi => hasLeaf_iff_of_nodesKept h.tree hkept (h.heap.owned i hi).1
  have hperm : u.heap.Perm (s.nextIdx :: s.heap) := withLeaf_heap_perm s x c
  simp only [State.HeapHasLeaf, hperm.mem_iff, List.exists_mem_cons_iff, hnew]
  exact or_congr_right hold

/-! ### Loading the leaves (R252) -/

/-- The block after `RESET` and the leaves of the symbols below `n`. -/
structure Loaded (S : List Byte) (n : Nat) (t : State) : Prop where
  inv    : Inv t
  err    : t.err = 0
  cnt    : t.pkCnt = 0
  unseen : ∀ x, n ≤ x → t.leafSeen x = false
  leaves : ∀ x, t.HeapHasLeaf x ↔ x < n ∧ freq S x ≠ 0
  weight : totalWeight t t.heap = ∑ x ∈ Finset.range n, freq S x

theorem loaded_reset (S : List Byte) (s : State) : Loaded S 0 ((resetBlock s).respond ⟨.ok, 0⟩) where
  inv := inv_respond _ (inv_resetBlock s)
  err := rfl
  cnt := rfl
  unseen x _ := by
    simp only [State.leafSeen, resetBlock, State.respond_leafseen, State.reset, Vector.getElem?_replicate]
    split <;> rfl
  leaves x := by simp [State.HeapHasLeaf, resetBlock, State.reset]
  weight := rfl

/-- The next symbol's leaf is loaded when it occurs. -/
theorem Loaded.loadLeaf (h : Loaded S n t) (hn : n < 257) (hS : S.length ≤ 2 ^ 32 - 2) :
    ∃ u, loadLeaf S t n = .ok u ∧ Loaded S (n + 1) u := by
  obtain ⟨hinv, herr, hcnt, hunseen, hleaves, hweight⟩ := h
  have hunseen' : ∀ x, n + 1 ≤ x → t.leafSeen x = false := fun x hx => hunseen x (by omega)
  unfold Machine.loadLeaf
  by_cases hzero : freq S n = 0
  · refine ⟨t, if_pos hzero, hinv, herr, hcnt, hunseen', fun x => ?_, ?_⟩
    · rw [hleaves]
      refine and_congr_left fun hx => ?_
      have hne : x ≠ n := fun hxn => hx (hxn ▸ hzero)
      omega
    · rw [Finset.sum_range_succ, hzero, hweight, Nat.add_zero]
  · have hfits : freq S n < 2 ^ 32 := (freq_le hn).trans_lt (by omega)
    have hc : (BitVec.ofNat 32 (freq S n)).toNat = freq S n := by rw [BitVec.toNat_ofNat, Nat.mod_eq_of_lt hfits]
    have hrule := leafRule_ok (c := BitVec.ofNat 32 (freq S n)) hinv (Nat.le_of_lt_succ hn)
      (fun hc0 => hzero (by rw [← hc, hc0]; rfl)) (hunseen n le_rfl)
    rw [if_neg hzero, if_neg (Nat.not_le.mpr hfits),
      call_of_rule_ok (i := .leaf n _) (hn.trans (by decide)) herr hrule]
    refine ⟨_, rfl, inv_respond _ (inv_leaf hinv hrule), herr, hcnt, fun x hx => ?_, fun x => ?_, ?_⟩
    · have hne : x ≠ n := by omega
      exact (leafSeen_setLeafSeen _ n x).trans ((if_neg fun hxn => hne hxn.1).trans (hunseen' x hx))
    · rw [withLeaf_heapHasLeaf_iff _ hinv hn, hleaves, Nat.lt_succ_iff_lt_or_eq, or_and_right, or_comm]
      exact or_congr_right (iff_self_and.mpr fun hxn => hxn ▸ hzero)
    · have hadded := withLeaf_totalWeight (x := n) (c := BitVec.ofNat 32 (freq S n)) hinv.heap
        (hinv.ncount_le.trans_lt (by decide))
      rw [hc, hweight, ← Finset.sum_range_succ] at hadded
      exact hadded

theorem loadLeaves_ok (h : Loaded S 0 s) (hS : S.length ≤ 2 ^ 32 - 2) (hn : n ≤ 257) :
    ∃ t, (List.range n).foldlM (loadLeaf S) s = .ok t ∧ Loaded S n t := by
  induction n with
  | zero => exact ⟨s, rfl, h⟩
  | succ n ih =>
    obtain ⟨t, hfold, ht⟩ := ih (Nat.le_of_succ_le hn)
    obtain ⟨u, hload, hu⟩ := ht.loadLeaf hn hS
    refine ⟨u, ?_, hu⟩
    rw [List.range_succ, List.foldlM_append, hfold]
    exact (bind_pure _).trans hload

/-! ### The tree and the table (R154, R171, R252) -/

/-- The block with the tree of the input's symbols built. -/
structure Built (S : List Byte) (t : State) : Prop where
  inv    : Inv t
  err    : t.err = 0
  cnt    : t.pkCnt = 0
  root   : t.root ≠ Config.nil
  leaves : ∀ x, t.HasLeaf t.root x ↔ x < 257 ∧ freq S x ≠ 0

/-- `BUILD` succeeds: the sentinel's leaf is in the heap, and the counts fit one weight (R257). -/
theorem Loaded.call_build (h : Loaded S 257 t) (hS : S.length ≤ 2 ^ 32 - 2) :
    ∃ u, call t .build = .ok u ∧ Built S u := by
  obtain ⟨hinv, herr, hcnt, -, hleaves, hweight⟩ := h
  obtain ⟨i, hi, -⟩ := (hleaves Config.eos).mpr ⟨by decide, freq_eos_ne_zero S⟩
  rcases buildRule_outcome hinv.heap hinv.tree (List.length_pos_of_mem hi) with ⟨-, hheavy⟩ | ⟨v, r, hrule, hr, hjoined⟩
  · rw [hweight, sum_freq] at hheavy
    omega
  · have hrest := buildRule_rest hrule
    have hlt : r.toNat < v.ncount := (hjoined.heap.owned r (by simp [hr])).1
    have hinv' := inv_build hinv hrule
    have hroot : r ≠ Config.nil := by
      rintro rfl
      have hle := hinv'.ncount_le
      rw [ncount_rootAt] at hle
      exact absurd hlt (Nat.not_lt.mpr (hle.trans (by decide)))
    refine ⟨_, call_of_rule_ok (i := .build) trivial herr hrule, inv_respond _ hinv', ?_, ?_, hroot, fun x => ?_⟩
    · exact (congrArg (·.err) hrest).trans herr
    · exact (congrArg (·.pkCnt) hrest).trans hcnt
    · exact (hjoined.hasLeaf_root_iff (u := (v.rootAt r).respond ⟨.ok, rdNode r (v.weightOf r)⟩) hr rfl).trans (hleaves x)

/-- The block with the codeword table of the input, as `COMPRESS` writes it out and packs under it. -/
structure Coded (S : List Byte) (t : State) : Prop where
  wf    : Memory.wf t = true
  pack  : PackOk t
  err   : t.err = 0
  cnt   : t.pkCnt = 0
  code  : Decodable t
  valid : ∀ x, t.ctValid x = true ↔ x < 257 ∧ freq S x ≠ 0
  lone  : ∀ x, t.ctValid x = true → (∀ y, t.ctValid y = true → y = x) → t.codeOf x = [false]

/-- The codeword of a symbol that is alone in the table: under an internal root it would begin every bit sequence (R172,
R173). -/
theorem Assigned.codeOf_of_lone (ht : TreeOk s) (hi : s.root.toNat < s.ncount) (h : Assigned s t n)
    (hv : t.ctValid x = true) (hlone : ∀ y, t.ctValid y = true → y = x) : t.codeOf x = [false] := by
  cases hk : (s.node s.root.toNat).kind with
  | leaf => exact h.codeOf_of_leaf hk hv
  | internal =>
    obtain ⟨b, bits, hcode⟩ := List.exists_cons_of_ne_nil (h.codeOf_ne_nil hv)
    obtain ⟨y, ⟨hy, hbegins⟩, -⟩ := h.complete ht hi hk fun _ => !b
    rw [hlone y hy, hcode, List.length_cons, List.range_succ_eq_map, List.map_cons, List.cons.injEq] at hbegins
    exact absurd hbegins.1 (by simp)

/-- `ASSIGN` succeeds, and its table is one that R231 speaks of. -/
theorem Built.call_assign (h : Built S t) : ∃ u, call t .assign = .ok u ∧ Coded S u := by
  obtain ⟨hinv, herr, hcnt, hroot, hleaves⟩ := h
  obtain ⟨v, n, hrule, hassigned⟩ := assignRule_of_root hinv hroot
  obtain ⟨ct, hct⟩ := assignRule_setCt hrule
  have hi := (hinv.root.resolve_left hroot).1
  have hvalid : ∀ x, v.ctValid x = true ↔ x < 257 ∧ freq S x ≠ 0 := fun x => hassigned.ctValid_iff.trans (hleaves x)
  have hinv' := inv_assign hinv hrule
  have hlone := fun x => hassigned.codeOf_of_lone (x := x) hinv.tree hi
  refine ⟨_, call_of_rule_ok (i := .assign) trivial herr hrule, hinv'.mem, hinv'.pack, ?_, ?_,
    ⟨hassigned.prefixFree, fun x => hassigned.codeOf_ne_nil, ?_⟩, hvalid, hlone⟩
  · subst hct; exact herr
  · subst hct; exact hcnt
  · exact (hvalid _).mpr ⟨by decide, freq_eos_ne_zero S⟩

end Leaves

section Runs

variable {s t u : State} {S xs P : List Byte}

/-! ### The whole runs (R252 to R255) -/

/-- The block is the same but for the record of the host. -/
theorem SameBlock.eq_of_record (h : SameBlock s t) : t = { s with inbox := t.inbox, resps := t.resps } :=
  (congrArg (fun u : State => { u with inbox := t.inbox, resps := t.resps }) h).symm

theorem Coded.sameBlock (h : Coded S s) (hst : SameBlock s t) : Coded S t := by
  obtain ⟨hwf, hpack, herr, hcnt, hcode, hvalid, hlone⟩ := h
  rw [hst.eq_of_record]
  exact ⟨hwf, hpack, herr, hcnt, hcode.congr rfl, hvalid, hlone⟩

theorem Coded.ctValid_of_mem (h : Coded S s) {b : Byte} (hb : b ∈ S) : s.ctValid b.toNat = true :=
  (h.valid _).mpr ⟨b.isLt.trans (by decide), freq_ne_zero_of_mem hb⟩

theorem PackedStream.congr (h : PackedStream s xs P) (hct : u.ct = s.ct) : PackedStream u xs P := by
  obtain ⟨hcode, hshort, hvalid, hbits⟩ := h
  refine ⟨hcode.congr hct, ?_, ?_, ?_⟩ <;>
    simpa only [streamBits, State.ctValid, State.codeOf, entry_congr hct]

/-- Packing the input under its table succeeds and emits a packed stream (R252). -/
theorem Coded.callAll_packing (h : Coded S s) :
    ∃ P t, callAll s (packBytes S ++ [.packEnd]) = .ok t ∧ t.pkOut = s.pkOut ++ P ∧ t.err = 0 ∧ PackedStream s S P := by
  have hvalid : ∀ b ∈ S, s.ctValid b.toNat = true := fun b => h.ctValid_of_mem
  obtain ⟨P, hout, -, herr, -⟩ := streamingEqualsBatch s S h.pack h.err h.cnt h.code.sentinel hvalid
  exact ⟨P, _, (callAll_ok_of_acts (acts_packing S) herr).2, hout, herr,
    packedStream_of_issueAll h.wf h.code h.pack h.err h.cnt hvalid hout rfl⟩

/-- What `COMPRESS` answers: a packed stream of the input under the input's table, and the text of that table. -/
theorem compress_ok (s : State) (hS : S.length ≤ 2 ^ 32 - 2) :
    ∃ v P t, compress S s = .ok (P, tableText v, t) ∧ t.err = 0 ∧ Coded S v ∧ PackedStream v S P := by
  obtain ⟨t, hfold, ht⟩ := loadLeaves_ok (loaded_reset S s) hS le_rfl
  obtain ⟨u, hbuild, hu⟩ := ht.call_build hS
  obtain ⟨v, hassign, hv⟩ := hu.call_assign
  obtain ⟨w, hserialize, hsame⟩ := serializeWritesTableText v hv.wf hv.err
  obtain ⟨P, z, hpacking, hout, herr, hstream⟩ := (hv.sameBlock hsame).callAll_packing
  refine ⟨v, P, z, ?_, herr, hv, hstream.congr hsame.ct.symm⟩
  rw [compress, call_reset]
  simp only [bind, Except.bind, hfold, hbuild, hassign, hserialize, hpacking, hout, List.drop_left]

/-- `DECOMPRESS` of a packed stream and the text of its table gives the bytes packed. -/
theorem decompress_ok (hwf : Memory.wf s = true) (hstream : PackedStream s xs P) (hu : u.err = 0) :
    ∃ v, decompress P (tableText s) u = .ok (xs, v) ∧ v.err = 0 := by
  obtain ⟨v, hparse, hct, herr⟩ := parse_tableText hwf hu
  have hissue : issue v .unpkStart = v.started.respond ⟨.ok, 0⟩ := issue_of_rule_ok trivial herr rfl
  obtain ⟨herr', hout, hdone⟩ := (hstream.congr hct).decodes herr
  rw [issueAll_cons] at herr' hout hdone
  have hbytes := (callAll_ok_of_acts (acts_unpkBytes P) herr').2
  have hend := call_of_rule_ok (i := .unpkEnd) trivial herr' (unpkEndRule_ok hdone)
  have hfrom : (issue v .unpkStart).upOut = v.upOut := by rw [hissue]; rfl
  refine ⟨State.respond _ ⟨.ok, 0⟩, ?_, herr'⟩
  rw [decompress, hparse]
  simp only [bind, Except.bind, call_of_issue hissue, hbytes, hend, State.respond_upOut, hout, hfrom, List.drop_left]

/-- The table of the empty input has the sentinel alone, its codeword `0` (R172, R254). -/
theorem Coded.codeOf_eos_of_nil (h : Coded [] s) :
    (∀ x, s.ctValid x = true ↔ x = Config.eos) ∧ s.codeOf Config.eos = [false] := by
  have hvalid : ∀ x, s.ctValid x = true ↔ x = Config.eos := fun x => by
    rw [h.valid]
    simp only [freq, List.countP_nil, ne_eq, ite_eq_right_iff, one_ne_zero, imp_false, not_not]
    exact and_iff_right_of_imp fun hx => hx ▸ by decide
  exact ⟨hvalid, h.lone _ ((hvalid _).mpr rfl) fun y => (hvalid y).mp⟩

theorem Coded.tableText_of_nil (h : Coded [] s) : tableText s = [0x45, 0x4F, 0x46, 0x30, 0x0A] := by
  obtain ⟨hvalid, hcode⟩ := h.codeOf_eos_of_nil
  have hbytes : (List.range 256).flatMap s.symLine = [] := List.flatMap_eq_nil_iff.mpr fun x hx =>
    if_neg (mt (hvalid x).mp (List.mem_range.mp hx).ne)
  have heos : s.symLine Config.eos = designator Config.eos ++ [false].map bitChar ++ [lineBreak] :=
    hcode ▸ if_pos ((hvalid _).mpr rfl)
  rw [tableText_eq_flatMap, List.range_succ, List.flatMap_append, hbytes, List.flatMap_singleton, heos]
  rfl

/-- The packed form of the sentinel's one bit is one byte 0 (R254). -/
theorem packedStream_nil (h : Coded [] s) (hstream : PackedStream s [] P) : P = [0x00] := by
  obtain ⟨k, hk, hbits⟩ := hstream.bits
  have hstreamBits : streamBits s [] = [false] := h.codeOf_eos_of_nil.2
  rw [hstreamBits] at hbits
  exact isPacked_unique (isPacked_of_bitsOf hbits hk) (isPacked_of_bitsOf (P := [0x00]) (k := 7) (by decide) (by decide))

end Runs

/-- Settles O56: `COMPRESS` answers a packed stream and the text of its table, which `DECOMPRESS` reads back. -/
theorem compressThenDecompressIsIdentity : Obligations.CompressThenDecompressIsIdentity := by
  intro S s hS
  obtain ⟨v, P, t, hcompress, herr, hv, hstream⟩ := compress_ok s hS
  exact ⟨P, tableText v, t, hcompress, herr, fun _ => decompress_ok hv.wf hstream⟩

/-- Settles O55: the run of O56, on the table that has the sentinel alone. -/
theorem emptyInputRoundTrips : Obligations.EmptyInputRoundTrips := by
  intro s u hu
  obtain ⟨v, P, t, hcompress, herr, hv, hstream⟩ := compress_ok (S := []) s (Nat.zero_le _)
  have hback := decompress_ok hv.wf hstream hu
  rw [packedStream_nil hv hstream, hv.tableText_of_nil] at hcompress hback
  exact ⟨⟨t, hcompress, herr⟩, hback⟩

end Sys2Proof.Machine

/-! Proofs for the family of 60_exceptions.md: what one step does with each input, the fault entry and the refusal, and which
rules answer `NONE`. -/

namespace Sys2Proof.Machine

section Wrapper

variable {i : Instr} {s : State} {w : Word} {c : FaultCode}

/-! ### One step by its input (R272, R275, R278; 70_reset_and_hazards.md R302) -/

theorem step_hardReset {rest : List HostEvent} (h : s.inbox = .hardReset :: rest) :
    step s = .next (State.reset.setInbox rest) := by
  simp [step, h, hardReset, takeInput]

theorem illegalCommand_of_not_faulted (h : s.faulted = false) :
    illegalCommand w s = .next (raiseFault w .illegalCommand s) := by
  rw [illegalCommand, guarded, h]; rfl

theorem illegalCommand_of_faulted (h : s.faulted = true) : illegalCommand w s = .next (refuse s) := by
  rw [illegalCommand, guarded, h]; rfl

/-! ### The fault entry and the refusal as record updates (R276, R278) -/

theorem raiseFault_eq (w : Word) (c : FaultCode) (s : State) :
    raiseFault w c s = { s with err := c.code, errCmd := w, resps := s.resps ++ [⟨.fault, c.code.setWidth 64⟩] } := by
  rw [raiseFault, place_zero]; rfl

theorem refuse_eq (s : State) : refuse s = { s with resps := s.resps ++ [⟨.refused, s.err.setWidth 64⟩] } := by
  rw [refuse, place_zero]; rfl

/-! ### The three commands that run faulted (R278) -/

theorem runsFaulted_iff : i.runsFaulted = true ↔ i = .reset ∨ i = .status ∨ i = .errcmd := by
  simp [Instr.runsFaulted, or_assoc]

/-- The commands that run faulted have no faults (R277). -/
theorem not_runsFaulted_of_mem_faults (h : c ∈ i.faults) : ¬ i.runsFaulted = true := by
  rw [runsFaulted_iff]
  rintro (rfl | rfl | rfl) <;> cases h

/-! ### The rules that answer `NONE` (R282) -/

/-- A rule that checks only that there is something to act on. -/
theorem checked_eq_none_iff {p : Prop} [Decidable p] {r : Result} (hr : r ≠ .none) :
    (if p then Result.none else r) = .none ↔ p :=
  ⟨fun h => by_contra fun hp => hr ((if_neg hp).symm.trans h), fun hp => if_pos hp⟩

/-- A read that checks its index, and then that the index names something. -/
theorem indexedRead_eq_none_iff {p q : Prop} [Decidable p] [Decidable q] {rd : Word} :
    (if ¬ p then Result.fault c else if q then .none else .ok rd s) = .none ↔ p ∧ q := by
  by_cases hp : p
  · rw [if_neg (not_not.mpr hp), and_iff_right hp]
    exact checked_eq_none_iff nofun
  · rw [if_pos hp]
    exact iff_of_false nofun fun h => hp h.1

theorem mergeRule_eq_none_iff : mergeRule s = .none ↔ s.hsize < 2 :=
  checked_eq_none_iff (by split <;> exact nofun)

theorem buildRule_eq_none_iff : buildRule s = .none ↔ s.hsize = 0 :=
  checked_eq_none_iff (by split <;> exact nofun)

theorem assignRule_ne_none : assignRule s ≠ .none := by
  unfold assignRule
  split
  · exact nofun
  · dsimp only
    split <;> exact nofun

/-- A rule answers `NONE` exactly when its command finds nothing to act on. -/
theorem ruleOf_eq_none_iff : ruleOf i s = .none ↔ i.nothingToActOn s := by
  cases i with
  | heapPeek | heapExtract => exact checked_eq_none_iff nofun
  | merge => exact mergeRule_eq_none_iff
  | build => exact buildRule_eq_none_iff
  | nodeInfo _ | nodeKids _ | heapSlot _ => exact indexedRead_eq_none_iff.trans (and_congr_left' Nat.lt_succ_iff)
  | tblLen _ | tblBit _ _ => exact indexedRead_eq_none_iff
  | nop | reset | status | errcmd | tbClear | tblClear | unpkStart => exact iff_of_false nofun id
  | leaf _ _ | heapInsert _ | nodeJoin _ _ | tblDefine _ | tblAppend _ _ | packSym _ | packEnd | unpkEnd =>
    refine iff_of_false (fun h => ?_) id
    dsimp only [ruleOf, leafRule, heapInsertRule, nodeJoinRule, tblDefineRule, tblAppendRule, packSymRule, packEndRule,
      unpkEndRule] at h
    split_ifs at h
  | assign => exact iff_of_false assignRule_ne_none id
  | unpkByte v => exact iff_of_false ((acts_unpkByte v).answers s) id

end Wrapper

/-- Settles O6: the word decodes, so the step is its command once the input is taken. -/
theorem stepRunsDecodedCommand : Obligations.StepRunsDecodedCommand := step_command

/-- Settles O7: an empty list of inputs holds the state, and a hardware reset keeps the list alone. -/
theorem idleHoldsAndHardResetClears : Obligations.IdleHoldsAndHardResetClears :=
  ⟨step_idle, fun _ _ => step_hardReset⟩

/-- Settles O8: a word of no row is an illegal one, which enters the fault. -/
theorem illegalWordFaults : Obligations.IllegalWordFaults := by
  intro s w rest hinbox hnone herr
  obtain ⟨e, hdec⟩ := (decode_error_iff w).mpr hnone
  rw [step_illegal s w rest e hinbox hdec, illegalCommand_of_not_faulted (by simp [State.faulted, herr]), raiseFault_eq]
  rfl

/-- Settles O9: a faulted block runs the rules of three commands and refuses everything else. -/
theorem faultedBlockRefuses : Obligations.FaultedBlockRefuses := by
  intro s herr
  have hf := err_ne_zero_iff.mp herr
  refine ⟨fun i hreset hstatus herrcmd => ?refused, fun w rest hinbox hillegal => ?illegal,
    ⟨_, exec_always .reset s rfl, rfl, rfl⟩, exec_of_rule_unchanged rfl rfl, exec_of_rule_unchanged rfl rfl⟩
  case refused =>
    have hi : ¬ i.runsFaulted = true := by simp [runsFaulted_iff, hreset, hstatus, herrcmd]
    rw [exec_of_faulted i s hf (Bool.eq_false_of_not_eq_true hi), refuse_eq]
  case illegal =>
    obtain ⟨e, hdec⟩ := hillegal
    rw [step_illegal s w rest e hinbox hdec, illegalCommand_of_faulted (s := s.setInbox rest) hf, refuse_eq]
    rfl

/-- Settles O10: the fault answered is the rule's, which only a block that is not faulted raises; fault entry writes the rest. -/
theorem faultWritesOnlyFaultRegisters : Obligations.FaultWritesOnlyFaultRegisters := by
  intro i s t rd hexec hresps
  obtain ⟨c, hrule, hrd⟩ := ruleOf_of_answer_fault hexec hresps
  have hmem := ruleOf_fault_mem hrule
  rw [place_zero] at hrd
  rcases exec_cases i s t hexec with ⟨-, -, rfl⟩ | ⟨hruns, rfl⟩
  · simp [refuse] at hresps
  · have herr : s.err = 0 := by simpa [State.faulted] using hruns.resolve_right (not_runsFaulted_of_mem_faults hmem)
    exact ⟨herr, c, hmem, hrd, by rw [hrule, complete_fault, raiseFault_eq, hrd]⟩

/-- Settles O11: a command answers `NONE` exactly when its rule does. -/
theorem noneExactlyWhenNothingToActOn : Obligations.NoneExactlyWhenNothingToActOn := by
  intro i s herr
  refine ⟨fun h => exec_of_rule herr rfl (ruleOf_eq_none_iff.mpr h), fun h => ?_⟩
  cases hrule : ruleOf i s with
  | none => exact absurd (ruleOf_eq_none_iff.mp hrule) h
  | ok rd t =>
    exact ⟨_, .ok, rd, exec_of_rule herr rfl hrule, nofun, by simp [(ruleOf_keeps_host hrule).2]⟩
  | fault c => exact ⟨_, .fault, place c.code 0, exec_of_rule herr rfl hrule, nofun, rfl⟩

end Sys2Proof.Machine
